-- ==== Sys2Proof/Word.lean ====
section
/-! DEFINITION. The word of the block: a message, a cursor cell, an interest word, a GPIO register and a command word are
all 32 bits wide (R10, R110). -/

namespace Sys2Proof

/-- A 32-bit word (R10 `WORD`). -/
abbrev Word := BitVec 32

end Sys2Proof
end

