-- ==== Sys2Proof/Config.lean ====
section
/-! DEFINITION. What the source fixes (R10), what it leaves open and the model takes as an argument (R11, `Params`), and the
free values: the outcomes the spec calls a draw (R13), under no law. A free value is a constant with no body. -/

namespace Sys2Proof.Config

/-- `P_ADC_MODE` (R11, D18): `async`, results appear at any time after the trigger and the drain stops at an empty queue;
`sync`, the drain waits for the whole sweep. -/
inductive AdcMode where
  | async
  | sync
  deriving DecidableEq, Repr

/-- `P_ADC_LAST_INIT` (R11, D13): the last-reported value a newly discovered analog channel gets. -/
inductive LastInit where
  | unknown
  | zero
  deriving DecidableEq, Repr

/-- `P_GPIO_ORDER` (R11, D21, C6): the order of the GPIO sampling pass. -/
inductive GpioOrder where
  | discovery
  | pinId
  deriving DecidableEq, Repr

/-- `P_MEM_ORDER` (R11, D5): one total order of all accesses (R82), or a per-agent coherent order (R83). -/
inductive MemOrder where
  | sc
  | weak
  deriving DecidableEq, Repr

/-- The parameters of R11, each an argument of the model. No step writes them (log 3). -/
structure Params where
  /-- `P_MAX_GPIO`: capacity of the GPIO tracking table (D22). -/
  maxGpio : Nat
  /-- `P_TIMER_PERIOD`: no rule depends on it (D24). -/
  timerPeriod : Nat
  adcMode : AdcMode
  adcLastInit : LastInit
  /-- `P_MUX_INIT`, 0..7 (D16). -/
  muxInit : BitVec 3
  gpioOrder : GpioOrder
  memOrder : MemOrder
  /-- `P_SHM_BASE_HOST`: byte address of shared word 0 for the host (D31). -/
  shmBaseHost : Nat
  /-- `P_SHM_BASE_RTU`: byte address of shared word 0 for the RTU (D31). -/
  shmBaseRtu : Nat
  /-- `P_SHM_WORDS`: size of the shared region in words, at least 1031 (D31). -/
  shmWords : Nat
  /-- `P_GPIO_BASE[m]` (D30). -/
  gpioBase : Vector Nat 4
  /-- `P_OFF_OE` (D30). -/
  offOe : Nat
  /-- `P_OFF_DATAIN` (D30). -/
  offDatain : Nat
  /-- `P_OFF_DATAOUT` (D30). -/
  offDataout : Nat
  /-- `P_GPIO_WIN`: bytes of one GPIO window (D30). -/
  gpioWin : Nat
  /-- `P_OE_RESET`: the value of each `GPIO_OE[m]` before the host writes it (R41, D32). -/
  oeReset : Word
  /-- `P_DATAOUT_RESET`: the value of each `GPIO_DATAOUT[m]` before the host writes it (R43, D32). -/
  dataoutReset : Word
  /-- `P_MUX_LINE[0..2]`: the physical lines of the select bits; no rule depends on them (D17). -/
  muxLine : Vector Nat 3
  /-- `P_ADC_FIFO_DEPTH`: capacity of the result queue, at least 7 (D40). -/
  fifoDepth : Nat
  deriving DecidableEq, Repr

/-- The defaults of R11. The GPIO bases, offsets, window and reset values are PRESUMED: the family's (rows G2 to G5 of
93_implementation_defined.md), log 6. The bases of the shared region, the multiplexer lines and the timer period, for which
the spec has no default, are 0: DESIGN CHOICE, log 7. -/
def Params.default : Params where
  maxGpio := 128
  timerPeriod := 0
  adcMode := .async
  adcLastInit := .unknown
  muxInit := 7
  gpioOrder := .discovery
  memOrder := .sc
  shmBaseHost := 0
  shmBaseRtu := 0
  shmWords := 1031
  gpioBase := #v[0x44E07000, 0x4804C000, 0x481AC000, 0x481AE000]
  offOe := 0x134
  offDatain := 0x138
  offDataout := 0x13C
  gpioWin := 0x1000
  oeReset := 0xFFFFFFFF
  dataoutReset := 0
  muxLine := Vector.replicate 3 0
  fifoDepth := 14

/-- The bounds R11 and R59 put on the parameters: `P_SHM_WORDS ≥ 1031` and `P_ADC_FIFO_DEPTH ≥ 7`. -/
abbrev Params.Wf (p : Params) : Prop := 1031 ≤ p.shmWords ∧ 7 ≤ p.fifoDepth

/-- R84: the registers stand inside a window of `P_GPIO_WIN` bytes, a register being 4 bytes (R40), and the four windows have different
base addresses. -/
abbrev Params.WindowsWf (p : Params) : Prop :=
  p.offOe + 4 ≤ p.gpioWin ∧ p.offDatain + 4 ≤ p.gpioWin ∧ p.offDataout + 4 ≤ p.gpioWin ∧ p.gpioBase.toList.Nodup

/-- R75: every base-address parameter is a multiple of 4. R75 names the bases only. DESIGN CHOICE, log 20: the register offsets are not
constrained, so an address that `gpioAddr` gives can be misaligned although the bases are aligned. -/
abbrev Params.BasesAligned (p : Params) : Prop :=
  p.shmBaseHost % 4 = 0 ∧ p.shmBaseRtu % 4 = 0 ∧ ∀ b ∈ p.gpioBase.toList, b % 4 = 0

/-! Constants of R10 and of the shared-memory layout (R32, R72). -/

/-- `C`: the number of ring slots. -/
abbrev ringSlots : Nat := 1024
/-- `CMOD` = 2C: the cursor modulus. -/
abbrev cursorMod : Nat := 2048
/-- Word index of `HEAD`. -/
abbrev headWord : Nat := 1024
/-- Word index of `TAIL`. -/
abbrev tailWord : Nat := 1025
/-- Word index of `GPIO_INT[0]`. -/
abbrev gpioIntWord : Nat := 1026
/-- Word index of `ADC_INT`. -/
abbrev adcIntWord : Nat := 1030

/-! Free values (R13 `draw`; log 12). Each is indexed by the count of steps taken, so that every draw of a run is its own
value. A read under `WEAK` is also indexed by the word read: one step reads a word at most once. -/

/-- The mapping outcome of a `MAP_REGS` (R220). -/
opaque freeMapOutcome : Nat → Bool

/-- The outcome of resolving and writing a pin's configuration path in a `CFG_PIN` (R222). -/
opaque freePathOutcome : Nat → Bool

/-- The outcome of loading and starting the firmware in an `RTU_START` (R246). -/
opaque freeLoadOutcome : Nat → Bool

/-- Which of the writes a side may still see a `MemRead` under `WEAK` returns (R83); taken modulo their number. -/
opaque freeReadPick : Nat → Nat → Nat

/-- The command word some agent performs when none is placed (R311; log 2). -/
opaque freeWord : Nat → Word

end Sys2Proof.Config
end

