-- ==== Sys2Proof/Syntax.lean ====
section
/-! DEFINITION. The operations of the block (R117) and the two message formats (R101, R102), one constructor per row of the
opcode table. The operand fields have the widths of their formats (R111 to R115), so an operand holds exactly the values its
field can. -/

namespace Sys2Proof

/-- The five agents (R15, D1). The loader is no agent: the host calls it (C9). -/
inductive Agent where
  | rtu
  | host
  | adc
  | timer
  | env
  deriving DecidableEq, Repr

/-- One constructor per row of the opcode table. -/
inductive Instr where
  | rbInit
  | rbWrite
  | rbRead
  | encGpio (pin : BitVec 8) (b : BitVec 1)
  | encAdc (ch : BitVec 4) (val : BitVec 12)
  | decode
  | seqInit
  | muxAdv
  | adcTrig
  | adcPop
  | adcEnd
  | gpioEnd
  | discAdc
  | discGpio
  | tmrWait
  | fastAcc
  | fastAvg
  | slowCmp
  | adcSkip
  | gpioCmp
  | mapRegs
  | cfgPin (pin : BitVec 8) (b : BitVec 1)
  | regAdc (ch : BitVec 4)
  | setOut (pin : BitVec 8) (b : BitVec 1)
  | sessionEnd
  | tmrFire
  | adcConv (step : BitVec 4) (data : BitVec 12)
  | pinSet (pin : BitVec 8) (b : BitVec 1)
  | rtuStart
  | rtuHalt
  /-- A GPIO-change message word (R101): not an operation of an agent, but the data the ring carries and `DECODE` reads. -/
  | msgGpio (pin : BitVec 8) (level : BitVec 1)
  /-- An ADC-sample message word (R102). -/
  | msgAdc (channel : BitVec 4) (value : BitVec 12)
  deriving DecidableEq, Repr

/-- The mnemonic of the opcode table. -/
def Instr.mnemonic : Instr → String
  | .rbInit => "RB_INIT"
  | .rbWrite => "RB_WRITE"
  | .rbRead => "RB_READ"
  | .encGpio _ _ => "ENC_GPIO"
  | .encAdc _ _ => "ENC_ADC"
  | .decode => "DECODE"
  | .seqInit => "SEQ_INIT"
  | .muxAdv => "MUX_ADV"
  | .adcTrig => "ADC_TRIG"
  | .adcPop => "ADC_POP"
  | .adcEnd => "ADC_END"
  | .gpioEnd => "GPIO_END"
  | .discAdc => "DISC_ADC"
  | .discGpio => "DISC_GPIO"
  | .tmrWait => "TMR_WAIT"
  | .fastAcc => "FAST_ACC"
  | .fastAvg => "FAST_AVG"
  | .slowCmp => "SLOW_CMP"
  | .adcSkip => "ADC_SKIP"
  | .gpioCmp => "GPIO_CMP"
  | .mapRegs => "MAP_REGS"
  | .cfgPin _ _ => "CFG_PIN"
  | .regAdc _ => "REG_ADC"
  | .setOut _ _ => "SET_OUT"
  | .sessionEnd => "SESSION_END"
  | .tmrFire => "TMR_FIRE"
  | .adcConv _ _ => "ADC_CONV"
  | .pinSet _ _ => "PIN_SET"
  | .rtuStart => "RTU_START"
  | .rtuHalt => "RTU_HALT"
  | .msgGpio _ _ => "MSG_GPIO"
  | .msgAdc _ _ => "MSG_ADC"

/-- The only agent that may perform the operation (R117). A message word is read by the host's `DECODE` (R154). -/
def Instr.agent : Instr → Agent
  | .rbInit => .host
  | .rbWrite => .rtu
  | .rbRead => .host
  | .encGpio _ _ => .rtu
  | .encAdc _ _ => .rtu
  | .decode => .host
  | .seqInit => .rtu
  | .muxAdv => .rtu
  | .adcTrig => .rtu
  | .adcPop => .rtu
  | .adcEnd => .rtu
  | .gpioEnd => .rtu
  | .discAdc => .rtu
  | .discGpio => .rtu
  | .tmrWait => .rtu
  | .fastAcc => .rtu
  | .fastAvg => .rtu
  | .slowCmp => .rtu
  | .adcSkip => .rtu
  | .gpioCmp => .rtu
  | .mapRegs => .host
  | .cfgPin _ _ => .host
  | .regAdc _ => .host
  | .setOut _ _ => .host
  | .sessionEnd => .host
  | .tmrFire => .timer
  | .adcConv _ _ => .adc
  | .pinSet _ _ => .env
  | .rtuStart => .host
  | .rtuHalt => .host
  | .msgGpio _ _ => .host
  | .msgAdc _ _ => .host

/-- What a message word carries (R100 to R102). -/
inductive Message where
  | gpio (pin : BitVec 8) (level : BitVec 1)
  | adc (channel : BitVec 4) (value : BitVec 12)
  deriving DecidableEq, Repr

/-- The row of the opcode table a message stands for. -/
def Message.instr : Message → Instr
  | .gpio pin level => .msgGpio pin level
  | .adc channel value => .msgAdc channel value

/-- One step's name (R110, R120): who performs which command word. -/
structure Command where
  agent : Agent
  word : Word
  deriving DecidableEq, Repr

end Sys2Proof
end

