-- ==== Sys2Proof/WellFormed.lean ====
section
/-! DEFINITION. The range limits beyond the field width that R116 names: a pin id above 127 names no pin (R44), a channel above
13 no logical channel (R50), a step above 6 no step of the sweep (R175). The encoders' operands have no such limit: they encode
every value of their field (R151, R153). -/

namespace Sys2Proof

/-- R44: a pin id 0..127 names a pin. -/
abbrev PinNamed (pin : BitVec 8) : Prop := pin.toNat ≤ 127

/-- R50: a logical analog channel is 0..13. -/
abbrev ChannelNamed (ch : BitVec 4) : Prop := ch.toNat ≤ 13

/-- R175: a step of the sweep is 0..6. -/
abbrev StepNamed (step : BitVec 4) : Prop := step.toNat ≤ 6

/-- The operands name something that exists, for the operations whose rule checks it (R116). -/
def Instr.wellFormed : Instr → Bool
  | .cfgPin pin _ => decide (PinNamed pin)
  | .setOut pin _ => decide (PinNamed pin)
  | .pinSet pin _ => decide (PinNamed pin)
  | .regAdc ch => decide (ChannelNamed ch)
  | .adcConv step _ => decide (StepNamed step)
  | .rbInit => true
  | .rbWrite => true
  | .rbRead => true
  | .encGpio _ _ => true
  | .encAdc _ _ => true
  | .decode => true
  | .seqInit => true
  | .muxAdv => true
  | .adcTrig => true
  | .adcPop => true
  | .adcEnd => true
  | .gpioEnd => true
  | .discAdc => true
  | .discGpio => true
  | .tmrWait => true
  | .fastAcc => true
  | .fastAvg => true
  | .slowCmp => true
  | .adcSkip => true
  | .gpioCmp => true
  | .mapRegs => true
  | .sessionEnd => true
  | .tmrFire => true
  | .rtuStart => true
  | .rtuHalt => true
  | .msgGpio _ _ => true
  | .msgAdc _ _ => true

end Sys2Proof
end

