-- ==== Sys2Proof/Decode.lean ====
section
/-! DEFINITION. The decoder of command words (R119), the decoder of message words (R155), and the encoders of both, written
from the field tables of R101, R102 and R111 to R117. Command words are the spec's names for steps and stand in no memory of
the block (R110); message words travel through the ring. -/

namespace Sys2Proof

/-! ## Fields -/

/-- `OPC = word[31:24]` (R110). -/
def fieldOpc (w : Word) : BitVec 8 := w.extractLsb' 24 8

/-- `PIN = word[7:0]` of format P, and `PIN` of a GPIO message (R112, R101). -/
def fieldPin (w : Word) : BitVec 8 := w.extractLsb' 0 8

/-- `B = word[8]` of format P, and `LEVEL` of a GPIO message (R112, R101). -/
def fieldB (w : Word) : BitVec 1 := w.extractLsb' 8 1

/-- `CH` of formats A and K, `STEP` of format S, `CHANNEL` of an ADC message: `word[3:0]` (R113 to R115, R102). -/
def fieldCh (w : Word) : BitVec 4 := w.extractLsb' 0 4

/-- `VAL` of format A, `DATA` of format S, `VALUE` of an ADC message: `word[15:4]` (R113, R115, R102). -/
def fieldVal (w : Word) : BitVec 12 := w.extractLsb' 4 12

/-- Bits 23:0, which format N has zero (R111). -/
def zeroN (w : Word) : Bool := decide (w.extractLsb' 0 24 = 0)

/-- Bits 23:9, which format P has zero (R112). -/
def zeroP (w : Word) : Bool := decide (w.extractLsb' 9 15 = 0)

/-- Bits 23:16, which formats A and S have zero (R113, R115). -/
def zeroA (w : Word) : Bool := decide (w.extractLsb' 16 8 = 0)

/-- Bits 23:4, which format K has zero (R114). -/
def zeroK (w : Word) : Bool := decide (w.extractLsb' 4 20 = 0)

/-! ## The decoder of command words -/

/-- The decoder's verdict on a 32-bit word (R119): one operation with its fields, or `IllegalCommand` (R118). -/
inductive Verdict where
  | op (i : Instr)
  | illegalCommand
  deriving DecidableEq, Repr

/-- The operation if the format's zero bits are zero, else `IllegalCommand` (R118). -/
def checked (zero : Bool) (i : Instr) : Verdict := if zero then .op i else .illegalCommand

/-- R119 over the opcode map R117. -/
def decodeCommand (w : Word) : Verdict :=
  match (fieldOpc w).toNat with
  | 0x01 => checked (zeroN w) .rbInit
  | 0x02 => checked (zeroN w) .rbWrite
  | 0x03 => checked (zeroN w) .rbRead
  | 0x10 => checked (zeroP w) (.encGpio (fieldPin w) (fieldB w))
  | 0x11 => checked (zeroA w) (.encAdc (fieldCh w) (fieldVal w))
  | 0x12 => checked (zeroN w) .decode
  | 0x20 => checked (zeroN w) .seqInit
  | 0x21 => checked (zeroN w) .muxAdv
  | 0x22 => checked (zeroN w) .adcTrig
  | 0x23 => checked (zeroN w) .adcPop
  | 0x24 => checked (zeroN w) .adcEnd
  | 0x25 => checked (zeroN w) .gpioEnd
  | 0x26 => checked (zeroN w) .discAdc
  | 0x27 => checked (zeroN w) .discGpio
  | 0x28 => checked (zeroN w) .tmrWait
  | 0x30 => checked (zeroN w) .fastAcc
  | 0x31 => checked (zeroN w) .fastAvg
  | 0x32 => checked (zeroN w) .slowCmp
  | 0x33 => checked (zeroN w) .adcSkip
  | 0x34 => checked (zeroN w) .gpioCmp
  | 0x40 => checked (zeroN w) .mapRegs
  | 0x41 => checked (zeroP w) (.cfgPin (fieldPin w) (fieldB w))
  | 0x42 => checked (zeroK w) (.regAdc (fieldCh w))
  | 0x43 => checked (zeroP w) (.setOut (fieldPin w) (fieldB w))
  | 0x44 => checked (zeroN w) .sessionEnd
  | 0x50 => checked (zeroN w) .tmrFire
  | 0x51 => checked (zeroA w) (.adcConv (fieldCh w) (fieldVal w))
  | 0x52 => checked (zeroP w) (.pinSet (fieldPin w) (fieldB w))
  | 0x53 => checked (zeroN w) .rtuStart
  | 0x54 => checked (zeroN w) .rtuHalt
  | _ => .illegalCommand

/-! ## The decoder of message words -/

/-- `dec` (R155): bit 31 alone selects the format; the reserved bits are ignored (R104). -/
def decodeMessage (w : Word) : Message :=
  if w.getLsbD 31 then .adc (fieldCh w) (fieldVal w) else .gpio (fieldPin w) (fieldB w)

/-- The row of the opcode table a word belongs to: the operation it spells, else the message it carries. A word can be both
(`0x01000000` is `RB_INIT`, and a GPIO message with a reserved bit set); as an instruction word the operation comes first
(log 14). -/
def decodeTable (w : Word) : Instr :=
  match decodeCommand w with
  | .op i => i
  | .illegalCommand => (decodeMessage w).instr

/-- The instruction read from the `nbits` low bits of `w`, the bits above zero. -/
def decodeTableWord (nbits w : Nat) : Option Instr := some (decodeTable (BitVec.ofNat 32 (w % 2 ^ nbits)))

/-! ## The encoders -/

/-- A field put at bit `low`, all other bits zero (R116: unsigned, zero-extended, not scaled). -/
def fieldAt {n : Nat} (x : BitVec n) (low : Nat) : Word := x.setWidth 32 <<< low

/-- Format N (R111). -/
def formN (opc : BitVec 8) : Word := fieldAt opc 24

/-- Format P (R112). -/
def formP (opc : BitVec 8) (pin : BitVec 8) (b : BitVec 1) : Word := fieldAt opc 24 ||| fieldAt b 8 ||| fieldAt pin 0

/-- Formats A and S (R113, R115). -/
def formA (opc : BitVec 8) (ch : BitVec 4) (val : BitVec 12) : Word := fieldAt opc 24 ||| fieldAt val 4 ||| fieldAt ch 0

/-- Format K (R114). -/
def formK (opc : BitVec 8) (ch : BitVec 4) : Word := fieldAt opc 24 ||| fieldAt ch 0

/-- A message word: the tag of R101 or R102, the fields, and zero reserved bits (R104). -/
def encodeMessage : Message → Word
  | .gpio pin level => fieldAt 0#1 31 ||| fieldAt level 8 ||| fieldAt pin 0
  | .adc channel value => fieldAt 1#1 31 ||| fieldAt value 4 ||| fieldAt channel 0

/-- The word of an operation (R117) or of a message (R101, R102). -/
def encode : Instr → Word
  | .rbInit => formN 0x01
  | .rbWrite => formN 0x02
  | .rbRead => formN 0x03
  | .encGpio pin b => formP 0x10 pin b
  | .encAdc ch val => formA 0x11 ch val
  | .decode => formN 0x12
  | .seqInit => formN 0x20
  | .muxAdv => formN 0x21
  | .adcTrig => formN 0x22
  | .adcPop => formN 0x23
  | .adcEnd => formN 0x24
  | .gpioEnd => formN 0x25
  | .discAdc => formN 0x26
  | .discGpio => formN 0x27
  | .tmrWait => formN 0x28
  | .fastAcc => formN 0x30
  | .fastAvg => formN 0x31
  | .slowCmp => formN 0x32
  | .adcSkip => formN 0x33
  | .gpioCmp => formN 0x34
  | .mapRegs => formN 0x40
  | .cfgPin pin b => formP 0x41 pin b
  | .regAdc ch => formK 0x42 ch
  | .setOut pin b => formP 0x43 pin b
  | .sessionEnd => formN 0x44
  | .tmrFire => formN 0x50
  | .adcConv step data => formA 0x51 step data
  | .pinSet pin b => formP 0x52 pin b
  | .rtuStart => formN 0x53
  | .rtuHalt => formN 0x54
  | .msgGpio pin level => encodeMessage (.gpio pin level)
  | .msgAdc channel value => encodeMessage (.adc channel value)

/-- The command that names an operation performed by its own agent (R110, R117). -/
def Instr.command (i : Instr) : Command := ⟨i.agent, encode i⟩

/-! ## The assembler's spelling (R120) -/

/-- The spelling of an agent in a program line. -/
def Agent.spelling : Agent → String
  | .rtu => "RTU"
  | .host => "HOST"
  | .adc => "ADC"
  | .timer => "TIMER"
  | .env => "ENV"

/-- The operands of a line, separated by commas, in decimal; a direction of `CFG_PIN` is spelled `IN` or `OUT`. -/
def Instr.operands : Instr → List String
  | .encGpio pin b => [toString pin.toNat, toString b.toNat]
  | .encAdc ch val => [toString ch.toNat, toString val.toNat]
  | .cfgPin pin b => [toString pin.toNat, if b = 1 then "IN" else "OUT"]
  | .regAdc ch => [toString ch.toNat]
  | .setOut pin b => [toString pin.toNat, toString b.toNat]
  | .adcConv step data => [toString step.toNat, toString data.toNat]
  | .pinSet pin b => [toString pin.toNat, toString b.toNat]
  | .msgGpio pin level => [toString pin.toNat, toString level.toNat]
  | .msgAdc channel value => [toString channel.toNat, toString value.toNat]
  | .rbInit => []
  | .rbWrite => []
  | .rbRead => []
  | .decode => []
  | .seqInit => []
  | .muxAdv => []
  | .adcTrig => []
  | .adcPop => []
  | .adcEnd => []
  | .gpioEnd => []
  | .discAdc => []
  | .discGpio => []
  | .tmrWait => []
  | .fastAcc => []
  | .fastAvg => []
  | .slowCmp => []
  | .adcSkip => []
  | .gpioCmp => []
  | .mapRegs => []
  | .sessionEnd => []
  | .tmrFire => []
  | .rtuStart => []
  | .rtuHalt => []

/-- One line of a program, `AGENT: MNEMONIC operands` (R120). -/
def Instr.spelling (i : Instr) : String :=
  match i.operands with
  | [] => i.agent.spelling ++ ": " ++ i.mnemonic
  | ops => i.agent.spelling ++ ": " ++ i.mnemonic ++ " " ++ String.intercalate ", " ops

end Sys2Proof
end

