-- ==== Sys2Proof/Machine/State.lean ====
section
/-! DEFINITION. The state of the block as plain data (R30 to R66), the reasons a step can stop, and the state after power-on
(R68). Which rule names each field, and its reset value, is listed in INVENTORY.md. -/

namespace Sys2Proof.Machine

open Sys2Proof.Config

/-! ## Records of faults and refusals -/

/-- The cell an `F_UNINIT` names (R261 code 2). -/
inductive UninitCell where
  /-- A shared word never written (R79). -/
  | word (w : Nat)
  /-- `RDATA` before any read returned a message (R154). -/
  | rdata
  deriving DecidableEq, Repr

/-- The faults of R261 with what each records. Raising one is a NEXT state of the machine: the record joins `FAULT` and the run
goes on (R262). -/
inductive ModelFault where
  /-- Code 1, `F_CURSOR_RANGE(w, x)`: `RB_WRITE` part 1 and `RB_READ` part 0. -/
  | cursorRange (w : Nat) (x : Word)
  /-- Code 2, `F_UNINIT`: any `MemRead` of a word never written, and `DECODE` of a never-written `RDATA`. -/
  | uninit (cell : UninitCell)
  /-- Code 3, `F_ADC_STEP(s)`: `ADC_POP` of an entry with a step id above 6. -/
  | adcStep (s : BitVec 4)
  /-- Code 4, `F_ADC_BUSY(ADC_PEND)`: `ADC_TRIG` while the previous sweep has unconverted steps. -/
  | adcBusy (pend : Nat)
  /-- Code 5, `F_ENC_RANGE`: `enc_gpio` and `enc_adc` with an operand beyond its field. -/
  | encRange (a b : Nat)
  deriving DecidableEq, Repr

/-- The cause code of R261. -/
def ModelFault.code : ModelFault → Nat
  | .cursorRange _ _ => 1
  | .uninit _ => 2
  | .adcStep _ => 3
  | .adcBusy _ => 4
  | .encRange _ _ => 5

/-- The refusals of R263. Refusing is a NEXT state too: the mark `REFUSED` is set and nothing else changes. -/
inductive RefuseReason where
  /-- The word spells no operation (R118). -/
  | illegalCommand
  /-- A legal word performed by another agent (R118). -/
  | wrongAgent
  /-- An operand names no pin or channel (R222, R224, R226, R244). -/
  | hostRange
  /-- A GPIO register access with `HMAPPED = 0` (R222, R226). -/
  | notMapped
  /-- A base-address parameter that is not a multiple of 4 (R75). -/
  | misalignedBase
  deriving DecidableEq, Repr

/-! ## Why the machine stops -/

/-- The stops in states the spec gives no cell for. No run from power-on reaches one (`Safety`); each is safe: the model stops
where the spec is silent (log 15). -/
inductive Fault where
  /-- An access to a shared word outside the region of `P_SHM_WORDS` words: any operation that reads or writes shared memory,
  only when the parameters break `P_SHM_WORDS ≥ 1031` (R32, R80). Safe. -/
  | noSuchWord (w : Nat)
  /-- A GPIO module other than 0..3 (R40): `DISC_GPIO` with `GIDX` above 3, `GPIO_CMP` of an entry whose pin id is above 127.
  Safe. -/
  | noSuchModule (m : Nat)
  /-- A rolling buffer of a channel other than 0..5 (R51): `FAST_AVG` with `CUR_CH` above 5. Safe. -/
  | noSuchBuffer (c : Nat)
  deriving DecidableEq, Repr

/-- The stops that give the instruction no meaning. -/
inductive Refusal where
  /-- Not modelled yet; raised by an arm of exec only. Safe. -/
  | notModelled (mnemonic : String)
  /-- The command's enabling condition does not hold: it is no step the agent can take in this state (R268). Raised by every
  operation that has an enabling condition, and by a step for an RTU command that the sequencer does not select (R170). Safe:
  the model allows nothing there (log 10). -/
  | notEnabled (mnemonic : String)
  deriving DecidableEq, Repr

/-- How a pseudocode ends early (R13): it raises a fault, refuses, or meets a cell that does not exist. -/
inductive Stop where
  | raise (f : ModelFault)
  | refuse (r : RefuseReason)
  | halt (f : Fault)
  deriving DecidableEq, Repr

/-! ## Cell types -/

/-- `SEQ` (R45). -/
inductive Seq where
  | halted
  | init
  | run
  deriving DecidableEq, Repr

/-- `PHASE` (R52). -/
inductive Phase where
  | mux
  | trig
  | drain
  | gpio
  | disca
  | discg
  | wait
  deriving DecidableEq, Repr

/-- `REP_PEND` (R47). -/
inductive RepPend where
  | none
  | adc
  | gpio
  deriving DecidableEq, Repr

/-- `CUR_STAGE` (R48). -/
inductive CurStage where
  | classify
  | avg
  deriving DecidableEq, Repr

/-- `WSTEP` (R49): the part of the ring write that comes next, `idle` for 0. -/
inductive WStep where
  | idle
  | part1
  | part2
  | part3
  deriving DecidableEq, Repr

/-- `RSTEP` (R64): the part of the ring read that comes next, `idle` for 0. -/
inductive RStep where
  | idle
  | part2
  | part3
  deriving DecidableEq, Repr

/-- `HREG_PIN[p]` (R62). -/
inductive PinUse where
  | none
  | input
  | output
  deriving DecidableEq, Repr

/-- `HSTATUS` (R63, R264); the codes are names. -/
inductive HStatus where
  | ok
  | registerMapError
  | pinConfigError
  | pinConflictError
  | firmwareStartError
  deriving DecidableEq, Repr

/-- `DEC_KIND` (R65). -/
inductive DecKind where
  | gpio
  | adc
  deriving DecidableEq, Repr

/-- An entry of `ADC_FIFO` (R59). -/
structure AdcResult where
  step : BitVec 4
  data : BitVec 12
  deriving DecidableEq, Repr

/-- An entry of the GPIO tracking table: `GPIO_PIN[k]` (R55) and `GPIO_LAST[k]` (R58), where `none` is `UNKNOWN` (R14). -/
structure GpioEntry where
  pin : BitVec 8
  last : Option (BitVec 1)
  deriving DecidableEq, Repr

/-- Shared memory: the bytes written so far, by byte offset from the region's base (R71, R72), addresses strictly rising. An
unlisted byte has never been written and has no value (R79; log 8). -/
abbrev Memory := List Host.Cell

/-! ## The state -/

/-- The state of the block (R30) with the model's own fields `params`, `pending` and `tick`. -/
structure State where
  /-- The parameters of R11; no step writes them (log 3). -/
  params : Params
  /-- The placed commands, first to perform first (log 1). -/
  pending : List Command
  /-- The count of steps taken; indexes the free values (log 12). -/
  tick : Nat
  /-- `SHM` with `SHM_W` (R32). -/
  shm : Memory
  /-- Older values of shared words the host may still read under `WEAK`, oldest first (R83; log 13). -/
  staleHost : List (Nat × Word)
  /-- Older values of shared words the RTU may still read under `WEAK`, oldest first (R83; log 13). -/
  staleRtu : List (Nat × Word)
  /-- `GPIO_OE[m]` (R41). -/
  gpioOe : Vector Word 4
  /-- `GPIO_DATAIN[m]` (R42). -/
  gpioDatain : Vector Word 4
  /-- `GPIO_DATAOUT[m]` (R43). -/
  gpioDataout : Vector Word 4
  /-- `SEQ` (R45). -/
  seq : Seq
  /-- `MUX_POS` (R46). -/
  muxPos : BitVec 3
  /-- `MSG` (R47). -/
  msg : Word
  /-- `REP_PEND` (R47). -/
  repPend : RepPend
  /-- `REP_CH` (R47). -/
  repCh : BitVec 4
  /-- `REP_VAL` (R47). -/
  repVal : BitVec 12
  /-- `REP_PIN` (R47). -/
  repPin : BitVec 8
  /-- `REP_LVL` (R47). -/
  repLvl : BitVec 1
  /-- `CUR_CH` (R48). -/
  curCh : BitVec 4
  /-- `CUR_RAW` (R48). -/
  curRaw : BitVec 12
  /-- `CUR_VALID` (R48). -/
  curValid : Bool
  /-- `CUR_STAGE` (R48). -/
  curStage : CurStage
  /-- `WSTEP` (R49). -/
  wstep : WStep
  /-- `WHEAD` (R49). -/
  whead : Word
  /-- `WTAIL` (R49). -/
  wtail : Word
  /-- `PHASE` (R52). -/
  phase : Phase
  /-- `GIDX` (R52). -/
  gidx : Nat
  /-- `ADC_EN[c]` (R50). -/
  adcEn : Vector Bool 14
  /-- `ADC_BUF[c][j]` of the six fast channels (R51, C1). -/
  adcBuf : Vector (Vector (BitVec 7) 8) 6
  /-- `ADC_LAST[c]` (R56), where `none` is `UNKNOWN` (R14). -/
  adcLast : Vector (Option (BitVec 12)) 14
  /-- The GPIO tracking table (R54, R55, R58), in creation order; `GPIO_N` is its length. -/
  gpioTab : List GpioEntry
  /-- `ADC_FIFO` (R59), oldest first. -/
  adcFifo : List AdcResult
  /-- `ADC_PEND` (R60). -/
  adcPend : Nat
  /-- `ADC_NEXT` (R60). -/
  adcNext : Nat
  /-- `TMR_FLAG` (R61). -/
  tmrFlag : Bool
  /-- `HREG_PIN[p]` (R62). -/
  hregPin : Vector PinUse 128
  /-- `HREG_ADC[c]` (R62). -/
  hregAdc : Vector Bool 14
  /-- `HMAPPED` (R63). -/
  hmapped : Bool
  /-- `HSTATUS` (R63). -/
  hstatus : HStatus
  /-- `RDATA` (R64). -/
  rdata : Word
  /-- Whether a read has ever written `RDATA` (R154; log 16). -/
  rdataW : Bool
  /-- `RVALID` (R64). -/
  rvalid : Bool
  /-- `RSTEP` (R64). -/
  rstep : RStep
  /-- `RHEAD` (R64). -/
  rhead : Word
  /-- `DEC_KIND` (R65). -/
  decKind : DecKind
  /-- `DEC_PIN` (R65). -/
  decPin : BitVec 8
  /-- `DEC_LVL` (R65). -/
  decLvl : BitVec 1
  /-- `DEC_CH` (R65). -/
  decCh : BitVec 4
  /-- `DEC_VAL` (R65). -/
  decVal : BitVec 12
  /-- `FAULT` (R66): a set, held as a list without repeats in the order first raised (log 9). -/
  faults : List ModelFault
  /-- `REFUSED` (R66). -/
  refused : Bool
  deriving DecidableEq, Repr

/-- What R68 leaves to be any value at power-on: the pins' levels, the result queue, the sweep and the timer flag. R68 does not say
whether the ranges of R59 and R60 bound that 'any'. DESIGN CHOICE, log 5: they do not, so `ADC_PEND` and `ADC_NEXT` may be any number
there and the queue any list, also a longer one than `P_ADC_FIFO_DEPTH`. -/
structure PowerOn where
  datain : Vector Word 4
  fifo : List AdcResult
  pend : Nat
  next : Nat
  flag : Bool
  deriving DecidableEq, Repr

/-- The values the model takes for them where a run starts at `State.reset`: DESIGN CHOICE, log 5. -/
def PowerOn.quiet : PowerOn where
  datain := Vector.replicate 4 0
  fifo := []
  pend := 0
  next := 0
  flag := false

/-- The state before any agent steps (R68, R290, R291), for any parameters and any power-on values. The RTU's cells are
`unwritten` there and are written by `SEQ_INIT` before any rule reads them; their values are DESIGN CHOICE, log 4. A misaligned
base parameter is refused as the model is configured (R75). -/
def State.powerOn (p : Params) (e : PowerOn) : State where
  params := p
  pending := []
  tick := 0
  shm := []
  staleHost := []
  staleRtu := []
  gpioOe := Vector.replicate 4 p.oeReset
  gpioDatain := e.datain
  gpioDataout := Vector.replicate 4 p.dataoutReset
  seq := .halted
  muxPos := 0
  msg := 0
  repPend := .none
  repCh := 0
  repVal := 0
  repPin := 0
  repLvl := 0
  curCh := 0
  curRaw := 0
  curValid := false
  curStage := .classify
  wstep := .idle
  whead := 0
  wtail := 0
  phase := .mux
  gidx := 0
  adcEn := Vector.replicate 14 false
  adcBuf := Vector.replicate 6 (Vector.replicate 8 0)
  adcLast := Vector.replicate 14 none
  gpioTab := []
  adcFifo := e.fifo
  adcPend := e.pend
  adcNext := e.next
  tmrFlag := e.flag
  hregPin := Vector.replicate 128 .none
  hregAdc := Vector.replicate 14 false
  hmapped := false
  hstatus := .ok
  rdata := 0
  rdataW := false
  rvalid := false
  rstep := .idle
  rhead := 0
  decKind := .gpio
  decPin := 0
  decLvl := 0
  decCh := 0
  decVal := 0
  faults := []
  refused := decide (¬ p.BasesAligned)

/-- The machine at power-on with the default parameters. -/
def State.reset : State := State.powerOn Params.default PowerOn.quiet

end Sys2Proof.Machine
end

