-- ==== Sys2Proof/Machine/Ops.lean ====
section
/-! DEFINITION. The named operations over memory and registers (R13, R70 to R84), and taking a fault or a refusal (R262, R263). -/

namespace Sys2Proof.Machine

open Sys2Proof.Config

/-! ## Shared memory as bytes (R71 to R73) -/

/-- The byte at an offset, `none` where nothing has been written. -/
def Memory.readByte : Memory → Nat → Option (BitVec 8)
  | [], _ => none
  | (b, v) :: rest, a => if a = b then some v else Memory.readByte rest a

/-- Store a byte, keeping the addresses strictly rising. -/
def Memory.writeByte : Memory → Nat → BitVec 8 → Memory
  | [], a, v => [(a, v)]
  | (b, u) :: rest, a, v =>
    if a < b then (a, v) :: (b, u) :: rest
    else if a = b then (a, v) :: rest
    else (b, u) :: Memory.writeByte rest a v

/-- Byte `i` of a word, little-endian: bits `8i+7 : 8i` (R73). -/
def byteOf (v : Word) (i : Nat) : BitVec 8 := v.extractLsb' (8 * i) 8

/-- The word at word index `w`, from its four bytes at offset `4w` (R71, R73); `none` where it was never written. -/
def Memory.readWord (m : Memory) (w : Nat) : Option Word :=
  match m.readByte (4 * w), m.readByte (4 * w + 1), m.readByte (4 * w + 2), m.readByte (4 * w + 3) with
  | some b0, some b1, some b2, some b3 => some (b3 ++ (b2 ++ (b1 ++ b0)))
  | _, _, _, _ => none

/-- Store a whole word at word index `w` (R73, R76). -/
def Memory.writeWord (m : Memory) (w : Nat) (v : Word) : Memory :=
  (((m.writeByte (4 * w) (byteOf v 0)).writeByte (4 * w + 1) (byteOf v 1)).writeByte (4 * w + 2) (byteOf v 2)).writeByte
    (4 * w + 3) (byteOf v 3)

/-- The canonical form: addresses strictly rising. An unlisted byte has no value, so no entry can equal it. -/
abbrev Memory.wf (m : Memory) : Prop := (m.map Prod.fst).Pairwise (· < ·)

/-- Byte address of shared word `w` for the host (R71). -/
def shmAddrHost (p : Params) (w : Nat) : Nat := p.shmBaseHost + 4 * w

/-- Byte address of shared word `w` for the RTU (R71). -/
def shmAddrRtu (p : Params) (w : Nat) : Nat := p.shmBaseRtu + 4 * w

/-! ## Reads and writes of shared words (R76, R79, R82, R83) -/

/-- The two agents that reach shared memory (R70). -/
inductive Side where
  | host
  | rtu
  deriving DecidableEq, Repr

/-- The older values a side may still read under `WEAK`. -/
def State.stale (s : State) : Side → List (Nat × Word)
  | .host => s.staleHost
  | .rtu => s.staleRtu

/-- Replace the older values a side may still read. -/
def State.setStale (s : State) (side : Side) (l : List (Nat × Word)) : State :=
  match side with
  | .host => { s with staleHost := l }
  | .rtu => { s with staleRtu := l }

/-- The other side of shared memory. -/
def Side.other : Side → Side
  | .host => .rtu
  | .rtu => .host

/-- The older values of word `w` in a list of older values, oldest first. -/
def staleValues (l : List (Nat × Word)) (w : Nat) : List Word := (l.filter (fun e => e.1 = w)).map Prod.snd

/-- Forget the `k` oldest values of word `w`. -/
def dropStale (w : Nat) : Nat → List (Nat × Word) → List (Nat × Word)
  | _, [] => []
  | 0, l => l
  | k + 1, e :: l => if e.1 = w then dropStale w k l else e :: dropStale w (k + 1) l

/-- `MemRead(w)` by one side (R76). A word outside the region does not exist (R32); a word never written raises `F_UNINIT(w)`
(R79). Under `SC` the value is the last written (R82). Under `WEAK` it is a write no older than the newest this side has performed
or read, which one a draw, and the older ones are then past (R83). -/
def memRead (side : Side) (w : Nat) (s : State) : Except Stop (Word × State) :=
  if s.params.shmWords ≤ w then .error (.halt (.noSuchWord w))
  else
    match s.shm.readWord w with
    | none => .error (.raise (.uninit (.word w)))
    | some v =>
      match s.params.memOrder with
      | .sc => .ok (v, s)
      | .weak =>
        let older := staleValues (s.stale side) w
        let k := freeReadPick s.tick w % (older.length + 1)
        .ok (older.getD k v, s.setStale side (dropStale w k (s.stale side)))

/-- `MemWrite(w, v)` by one side (R76, R79). Under `WEAK` the other side may still read the value overwritten, and the writer may
not (R83). -/
def memWrite (side : Side) (w : Nat) (v : Word) (s : State) : Except Stop State :=
  if s.params.shmWords ≤ w then .error (.halt (.noSuchWord w))
  else
    match s.params.memOrder with
    | .sc => .ok { s with shm := s.shm.writeWord w v }
    | .weak =>
      let mine := (s.stale side).filter (fun e => e.1 ≠ w)
      let theirs := s.stale side.other ++ ((s.shm.readWord w).map (fun u => (w, u))).toList
      .ok { (s.setStale side mine).setStale side.other theirs with shm := s.shm.writeWord w v }

/-! ## GPIO registers (R40, R84) -/

/-- The three registers the block sees of a GPIO module (R40). -/
inductive GpioReg where
  | oe
  | datain
  | dataout
  deriving DecidableEq, Repr

/-- The four modules' copies of a register. -/
def State.gpioBank (s : State) : GpioReg → Vector Word 4
  | .oe => s.gpioOe
  | .datain => s.gpioDatain
  | .dataout => s.gpioDataout

/-- Replace the four modules' copies of a register. -/
def State.setGpioBank (s : State) (r : GpioReg) (b : Vector Word 4) : State :=
  match r with
  | .oe => { s with gpioOe := b }
  | .datain => { s with gpioDatain := b }
  | .dataout => { s with gpioDataout := b }

/-- `RegRead(m, r)` (R13, R76, R77): no side effect. -/
def regRead (m : Nat) (r : GpioReg) (s : State) : Except Stop Word :=
  match (s.gpioBank r)[m]? with
  | some v => .ok v
  | none => .error (.halt (.noSuchModule m))

/-- `RegWrite(m, r, v)` (R13, R76, R77): it stores the value and nothing else. -/
def regWrite (m : Nat) (r : GpioReg) (v : Word) (s : State) : Except Stop State :=
  if h : m < 4 then .ok (s.setGpioBank r ((s.gpioBank r).set m v))
  else .error (.halt (.noSuchModule m))

/-- The offset parameter of a register (R84). -/
def gpioOffset (p : Params) : GpioReg → Nat
  | .oe => p.offOe
  | .datain => p.offDatain
  | .dataout => p.offDataout

/-- Byte address of register `r` of module `m` in the host's physical address space (R84). -/
def gpioAddr (p : Params) (m : Fin 4) (r : GpioReg) : Nat := p.gpioBase[m] + gpioOffset p r

/-- An address of module `m`'s window in the host's physical address space (R84). -/
abbrev InGpioWindow (p : Params) (m : Fin 4) (a : Nat) : Prop := p.gpioBase[m] ≤ a ∧ a < p.gpioBase[m] + p.gpioWin

/-! ## Taking a fault or a refusal -/

/-- R262: the fault and its record join `FAULT`, and nothing else changes. The block has no handler and nothing to return to
(R270, R271): the run goes on. -/
def takeFault (f : ModelFault) (s : State) : State :=
  { s with faults := if f ∈ s.faults then s.faults else s.faults ++ [f] }

/-- R263: a refused step sets `REFUSED`, and nothing else changes. -/
def takeRefusal (s : State) : State := { s with refused := true }

/-- End a step whose pseudocode ran from `s`: with its effect, or by taking the fault or refusal it met, everything it had written
discarded (R262.1, R263). -/
def finish (s : State) : Except Stop State → Host.Outcome State Fault Refusal
  | .ok t => .next t
  | .error (.raise f) => .next (takeFault f s)
  | .error (.refuse _) => .next (takeRefusal s)
  | .error (.halt f) => .fault f

/-- An operation performed under its enabling condition (R268): where the condition fails it is not a step. -/
def guarded (mnemonic : String) (enabled : Prop) [Decidable enabled] (s : State) (body : Except Stop State) :
    Host.Outcome State Fault Refusal :=
  if enabled then finish s body else .refused (.notEnabled mnemonic)

/-- The count of steps goes up by one. -/
def State.ticked (s : State) : State := { s with tick := s.tick + 1 }

end Sys2Proof.Machine
end

