-- ==== Sys2Proof/Machine/Operands.lean ====
section
/-! DEFINITION. What an operand names and how the rules compute with it: pin ids, cursors, steps and channels, samples and
averages, the sampling order. -/

namespace Sys2Proof.Machine

open Sys2Proof.Config

/-! ## Pins (R44) -/

/-- The module `m = PIN >> 5` of a pin id. -/
def pinModule (pin : BitVec 8) : Nat := pin.toNat / 32

/-- The bit `b = PIN & 31` of a pin id. -/
def pinBit (pin : BitVec 8) : Nat := pin.toNat % 32

/-- The pin id of bit `b` of module `m`: `p = 32*m + b`. -/
def pinId (m b : Nat) : BitVec 8 := BitVec.ofNat 8 (32 * m + b)

/-- `v | (1 << b)`. -/
def setBit (v : Word) (b : Nat) : Word := v ||| (1#32 <<< b)

/-- `v & ~(1 << b)`. -/
def clearBit (v : Word) (b : Nat) : Word := v &&& ~~~(1#32 <<< b)

/-- Write bit `b` of a word with a one-bit level. -/
def putBit (v : Word) (b : Nat) (level : BitVec 1) : Word := if level = 1 then setBit v b else clearBit v b

/-- Bit `b` of a word as a one-bit level. -/
def levelAt (v : Word) (b : Nat) : BitVec 1 := BitVec.ofBool (v.getLsbD b)

/-! ## Ring cursors (R131) -/

/-- `slot(x) = x & 0x3FF`. -/
def slot (x : Word) : Nat := (x &&& 0x3FF#32).toNat

/-- `next(x) = (x + 1) & 0x7FF`. -/
def nextCursor (x : Word) : Word := (x + 1) &&& 0x7FF#32

/-- `EMPTY(h, t)`. -/
abbrev RingEmpty (h t : Word) : Prop := t = h

/-- `FULL(h, t)`. -/
abbrev RingFull (h t : Word) : Prop := t = h ^^^ 0x400#32

/-- A cursor value is legal when it is at most 2047. -/
abbrev CursorLegal (x : Word) : Prop := x.toNat ≤ 2047

/-- Read both cursors, `TAIL` first, and check each (R131, R132 part 1, R135 part 0; the order of R269). -/
def readCursors (side : Side) (s : State) : Except Stop (Word × Word × State) :=
  match memRead side tailWord s with
  | .error e => .error e
  | .ok (t, s1) =>
    match memRead side headWord s1 with
    | .error e => .error e
    | .ok (h, s2) =>
      if ¬ CursorLegal t then .error (.raise (.cursorRange tailWord t))
      else if ¬ CursorLegal h then .error (.raise (.cursorRange headWord h))
      else .ok (h, t, s2)

/-! ## Steps and channels (R175, R177) -/

/-- `chmap(s, p)`: the logical channel of a step at a multiplexer position; `none` for a step the sweep does not have. -/
def chmap (step : BitVec 4) (pos : BitVec 3) : Option (BitVec 4) :=
  match step.toNat with
  | 0 => some 0
  | 1 => some 1
  | 2 => some 2
  | 3 => some 3
  | 4 => some 4
  | 5 =>
    match pos.toNat with
    | 0 => some 13
    | 1 => some 6
    | 2 => some 7
    | 3 => some 8
    | 4 => some 9
    | 5 => some 10
    | 6 => some 11
    | _ => some 12
  | 6 => some 5
  | _ => none

/-- `ADC_EN[c]`; `none` for a channel that has no such cell (log 15). -/
def State.enabledChannel (s : State) (c : BitVec 4) : Option Bool := s.adcEn[c.toNat]?

/-! ## Samples and averages (R201, R203) -/

/-- The 7-bit sample of a 12-bit raw value: bits 11:5. -/
def fastSample (raw : BitVec 12) : BitVec 7 := raw.extractLsb' 5 7

/-- The sum of a channel's eight slots. -/
def bufferSum (buf : Vector (BitVec 7) 8) : Nat := (buf.toList.map BitVec.toNat).sum

/-- `sum >> 3`, in the message's 12-bit value field. -/
def average (buf : Vector (BitVec 7) 8) : BitVec 12 := BitVec.ofNat 12 (bufferSum buf >>> 3)

/-- `ADC_BUF[c][pos] <- v`. -/
def storeSample (bufs : Vector (Vector (BitVec 7) 8) 6) (c : Nat) (pos : BitVec 3) (v : BitVec 7) :
    Vector (Vector (BitVec 7) 8) 6 :=
  if h : c < 6 then bufs.set c (bufs[c].set pos.toNat v pos.isLt) else bufs

/-! ## Tracked pins (R57, R182, R206) -/

/-- `TRACKED(p)`: some entry of the table has pin id `p`. -/
def tracked (tab : List GpioEntry) (pin : BitVec 8) : Bool := tab.any (fun e => decide (e.pin = pin))

/-- Discovery of one requested pin: a new entry at the end, unless the pin is tracked or the table is full (R182, R183). -/
def trackPin (maxGpio : Nat) (tab : List GpioEntry) (pin : BitVec 8) : List GpioEntry :=
  if tracked tab pin then tab
  else if tab.length < maxGpio then tab ++ [⟨pin, none⟩]
  else tab

/-- The scan of module `m`'s interest word `x`, bits 0..31 in ascending order (R182). -/
def scanModule (maxGpio : Nat) (x : Word) (m : Nat) (tab : List GpioEntry) : List GpioEntry :=
  (List.range 32).foldl (fun tab b => if x.getLsbD b then trackPin maxGpio tab (pinId m b) else tab) tab

/-- The table with its entry numbers, in creation order. -/
def numberedFrom : Nat → List GpioEntry → List (Nat × GpioEntry)
  | _, [] => []
  | k, e :: rest => (k, e) :: numberedFrom (k + 1) rest

/-- Put a numbered entry into a list ordered by pin id, before the first entry with the same pin id. -/
def insertByPin (x : Nat × GpioEntry) : List (Nat × GpioEntry) → List (Nat × GpioEntry)
  | [] => [x]
  | y :: rest => if x.2.pin.toNat ≤ y.2.pin.toNat then x :: y :: rest else y :: insertByPin x rest

/-- Order numbered entries by ascending pin id. -/
def orderByPin : List (Nat × GpioEntry) → List (Nat × GpioEntry)
  | [] => []
  | x :: rest => insertByPin x (orderByPin rest)

/-- The sampling order `σ` of the entries (R206, `P_GPIO_ORDER`). -/
def samplingOrder (order : GpioOrder) (tab : List GpioEntry) : List (Nat × GpioEntry) :=
  match order with
  | .discovery => numberedFrom 0 tab
  | .pinId => orderByPin (numberedFrom 0 tab)

/-- The entry the next `GPIO_CMP` samples: `σ(GIDX)` with its number, `none` when `GIDX ≥ GPIO_N`. -/
def State.sampledEntry (s : State) : Option (Nat × GpioEntry) := (samplingOrder s.params.gpioOrder s.gpioTab)[s.gidx]?

end Sys2Proof.Machine
end

