-- ==== Sys2Proof/Machine/Flags.lean ====
section
/-! DEFINITION. The block has no arithmetic flags and no condition codes (R69). Its one-bit status cells are `TMR_FLAG`, `CUR_VALID`
and `RVALID`; here is how each is written, with the host status `HSTATUS` (R264) and the change test that decides every report
(R207). -/

namespace Sys2Proof.Machine

/-- `TMR_FLAG <- v` (R61). -/
def State.setTmrFlag (s : State) (v : Bool) : State := { s with tmrFlag := v }

/-- `CUR_VALID <- v` (R48). -/
def State.setCurValid (s : State) (v : Bool) : State := { s with curValid := v }

/-- `RVALID <- v` (R64). -/
def State.setRvalid (s : State) (v : Bool) : State := { s with rvalid := v }

/-- `HSTATUS <- v` (R63, R264). -/
def State.setStatus (s : State) (v : HStatus) : State := { s with hstatus := v }

/-- R207: a report is due exactly when the new value differs from the last reported; `UNKNOWN` differs from every value (R14). -/
def reportDue {n : Nat} (new : BitVec n) (last : Option (BitVec n)) : Bool := decide (last ≠ some new)

/-- `REP_PEND <- ADC; REP_CH <- c; REP_VAL <- v` (R202, R204). -/
def State.reportAdc (s : State) (c : BitVec 4) (v : BitVec 12) : State := { s with repPend := .adc, repCh := c, repVal := v }

/-- `REP_PEND <- GPIO; REP_PIN <- p; REP_LVL <- l` (R206). -/
def State.reportGpio (s : State) (p : BitVec 8) (l : BitVec 1) : State := { s with repPend := .gpio, repPin := p, repLvl := l }

end Sys2Proof.Machine
end

