-- ==== Sys2Proof/Machine/Enabling.lean ====
section
/-! DEFINITION. The enabling conditions the rules list under 'Agent and enabling'. An operation whose condition fails is not a step
the agent can take (R268). -/

namespace Sys2Proof.Machine

/-- HOST operations other than `RB_READ`: no read is in progress (R130, R154, R220 to R229). -/
abbrev HostIdle (s : State) : Prop := s.rstep = .idle

/-- The RTU runs, is in this phase, and nothing is pending (R170). -/
abbrev RtuAt (s : State) (p : Phase) : Prop :=
  s.seq = .run ∧ s.wstep = .idle ∧ s.repPend = .none ∧ s.curValid = false ∧ s.phase = p

/-- The RTU runs and a popped pair awaits the comparator at this stage (R200 to R205). -/
abbrev PairAt (s : State) (st : CurStage) : Prop :=
  s.seq = .run ∧ s.wstep = .idle ∧ s.repPend = .none ∧ s.curValid = true ∧ s.curStage = st

/-- `RB_WRITE` (R132). -/
abbrev CanRbWrite (s : State) : Prop := s.seq = .run ∧ s.wstep ≠ .idle

/-- `ENC_GPIO` (R150). -/
abbrev CanEncGpio (s : State) : Prop := s.seq = .run ∧ s.wstep = .idle ∧ s.repPend = .gpio

/-- `ENC_ADC` (R152). -/
abbrev CanEncAdc (s : State) : Prop := s.seq = .run ∧ s.wstep = .idle ∧ s.repPend = .adc

/-- `SEQ_INIT` (R171). -/
abbrev CanSeqInit (s : State) : Prop := s.seq = .init

/-- `ADC_POP` (R176). -/
abbrev CanAdcPop (s : State) : Prop := RtuAt s .drain ∧ s.adcFifo ≠ []

/-- `ADC_END` (R178). -/
abbrev CanAdcEnd (s : State) : Prop :=
  RtuAt s .drain ∧ s.adcFifo = [] ∧ (s.params.adcMode = .async ∨ s.adcPend = 0)

/-- `GPIO_END` (R179). -/
abbrev CanGpioEnd (s : State) : Prop := RtuAt s .gpio ∧ s.gpioTab.length ≤ s.gidx

/-- `GPIO_CMP` (R206). -/
abbrev CanGpioCmp (s : State) : Prop := RtuAt s .gpio ∧ s.gidx < s.gpioTab.length

/-- `TMR_WAIT` (R184). -/
abbrev CanTmrWait (s : State) : Prop := RtuAt s .wait ∧ s.tmrFlag = true

/-- `FAST_ACC` (R200). -/
abbrev CanFastAcc (s : State) : Prop :=
  PairAt s .classify ∧ s.enabledChannel s.curCh = some true ∧ s.curCh.toNat ≤ 5

/-- `FAST_AVG` (R202). -/
abbrev CanFastAvg (s : State) : Prop := PairAt s .avg

/-- `SLOW_CMP` (R204). -/
abbrev CanSlowCmp (s : State) : Prop :=
  PairAt s .classify ∧ s.enabledChannel s.curCh = some true ∧ 6 ≤ s.curCh.toNat

/-- `ADC_SKIP` (R205). -/
abbrev CanAdcSkip (s : State) : Prop := PairAt s .classify ∧ s.enabledChannel s.curCh = some false

/-- `ADC_CONV` (R242). -/
abbrev CanAdcConv (s : State) (step : BitVec 4) : Prop :=
  0 < s.adcPend ∧ step.toNat = s.adcNext ∧ s.adcFifo.length < s.params.fifoDepth

/-- `RTU_START` (R246). -/
abbrev CanRtuStart (s : State) : Prop := HostIdle s ∧ s.seq = .halted

/-- `RTU_HALT` (R248). -/
abbrev CanRtuHalt (s : State) : Prop := HostIdle s ∧ s.seq ≠ .halted

end Sys2Proof.Machine
end

