-- ==== Sys2Proof/Machine/Agents.lean ====
section
/-! DEFINITION. The external agents (45_external_agents.md): the timer, the ADC front end, the pin environment, the loader. -/

namespace Sys2Proof.Machine

open Sys2Proof.Config

/-- `TMR_FIRE` (R240): always enabled; matches are not counted. -/
def execTmrFire (s : State) : Host.Outcome State Fault Refusal := finish s (.ok (s.setTmrFlag true))

/-- `ADC_CONV STEP, DATA` (R242). -/
def execAdcConv (step : BitVec 4) (data : BitVec 12) (s : State) : Host.Outcome State Fault Refusal :=
  guarded "ADC_CONV" (CanAdcConv s step) s
    (.ok { s with
      adcFifo := s.adcFifo ++ [⟨step, data⟩]
      adcNext := s.adcNext + 1
      adcPend := s.adcPend - 1 })

/-- The environment's write of one bit of a data-input register (R244, R82). -/
def setPinLevel (m b : Nat) (level : BitVec 1) (s : State) : Except Stop State :=
  match regRead m .datain s with
  | .error e => .error e
  | .ok v => regWrite m .datain (putBit v b level) s

/-- `PIN_SET PIN, B` (R244): always enabled; a pin id above 127 is refused. -/
def execPinSet (pin : BitVec 8) (b : BitVec 1) (s : State) : Host.Outcome State Fault Refusal :=
  finish s
    (if 127 < pin.toNat then .error (.refuse .hostRange) else setPinLevel (pinModule pin) (pinBit pin) b s)

/-- `RTU_START` (R246): the load and start succeed or fail by a draw. -/
def execRtuStart (s : State) : Host.Outcome State Fault Refusal :=
  guarded "RTU_START" (CanRtuStart s) s
    (.ok (if freeLoadOutcome s.tick then { s with seq := .init }.setStatus .ok
      else s.setStatus .firmwareStartError))

/-- `RTU_HALT` (R248): all other state is kept. -/
def execRtuHalt (s : State) : Host.Outcome State Fault Refusal :=
  guarded "RTU_HALT" (CanRtuHalt s) s (.ok { s with seq := .halted })

end Sys2Proof.Machine
end

