-- ==== Sys2Proof/Machine/Codec.lean ====
section
/-! DEFINITION. The message codec (41_message_codec.md): the encoders, `DECODE`, and what reading a message word does. -/

namespace Sys2Proof.Machine

/-- `enc_gpio(pin, level)` on integers (R151). -/
def encGpioWord (pin level : Nat) : Except Stop Word :=
  if 255 < pin ∨ 1 < level then .error (.raise (.encRange pin level))
  else .ok (BitVec.ofNat 32 (level <<< 8 ||| pin))

/-- `enc_adc(channel, value)` on integers (R153). -/
def encAdcWord (channel value : Nat) : Except Stop Word :=
  if 15 < channel ∨ 4095 < value then .error (.raise (.encRange channel value))
  else .ok (0x80000000#32 ||| BitVec.ofNat 32 (value <<< 4 ||| channel))

/-- Take an encoded message into `MSG`, the report encoded, and start its ring write (R150, R152). -/
def startWrite (word : Except Stop Word) (s : State) : Except Stop State :=
  match word with
  | .error e => .error e
  | .ok w => .ok { s with msg := w, repPend := .none, wstep := .part1 }

/-- `ENC_GPIO PIN, B` (R150). -/
def execEncGpio (pin : BitVec 8) (b : BitVec 1) (s : State) : Host.Outcome State Fault Refusal :=
  guarded "ENC_GPIO" (CanEncGpio s) s (startWrite (encGpioWord pin.toNat b.toNat) s)

/-- `ENC_ADC CH, VAL` (R152). -/
def execEncAdc (ch : BitVec 4) (val : BitVec 12) (s : State) : Host.Outcome State Fault Refusal :=
  guarded "ENC_ADC" (CanEncAdc s) s (startWrite (encAdcWord ch.toNat val.toNat) s)

/-- The fields of a message go to the `DEC_*` cells of its kind; the other kind's are not written (R154). -/
def depositMessage (m : Message) (s : State) : State :=
  match m with
  | .gpio pin level => { s with decKind := .gpio, decPin := pin, decLvl := level }
  | .adc channel value => { s with decKind := .adc, decCh := channel, decVal := value }

/-- `DECODE` (R154): `F_UNINIT(RDATA)` if no read ever returned a message. -/
def execDecode (s : State) : Host.Outcome State Fault Refusal :=
  guarded "DECODE" (HostIdle s) s
    (if s.rdataW then .ok (depositMessage (decodeMessage s.rdata) s) else .error (.raise (.uninit .rdata)))

/-- What reading a GPIO-change message does: the host's `DECODE` of its word (R154, R155; log 14). -/
def execMsgGpio (pin : BitVec 8) (level : BitVec 1) (s : State) : Host.Outcome State Fault Refusal :=
  guarded "MSG_GPIO" (HostIdle s) s (.ok (depositMessage (.gpio pin level) s))

/-- What reading an ADC-sample message does: the host's `DECODE` of its word (R154, R155; log 14). -/
def execMsgAdc (channel : BitVec 4) (value : BitVec 12) (s : State) : Host.Outcome State Fault Refusal :=
  guarded "MSG_ADC" (HostIdle s) s (.ok (depositMessage (.adc channel value) s))

end Sys2Proof.Machine
end

