-- ==== Sys2Proof/Machine/Comparator.lean ====
section
/-! DEFINITION. The moving-average and change-detection comparator (43_comparator.md). -/

namespace Sys2Proof.Machine

/-- `FAST_ACC` (R200): a store into the slot of the current position. -/
def execFastAcc (s : State) : Host.Outcome State Fault Refusal :=
  guarded "FAST_ACC" (CanFastAcc s) s
    (.ok { s with
      adcBuf := storeSample s.adcBuf s.curCh.toNat s.muxPos (fastSample s.curRaw)
      curStage := if s.muxPos = 7 then .avg else s.curStage
      curValid := if s.muxPos = 7 then s.curValid else false })

/-- `ADC_LAST[c]` (R56). -/
def State.lastReported (s : State) (c : BitVec 4) : Option (BitVec 12) := (s.adcLast[c.toNat]?).getD none

/-- The change test of an analog channel (R207): report `v` and keep it as the last reported, if it differs. -/
def compareAnalog (c : BitVec 4) (v : BitVec 12) (s : State) : State :=
  if reportDue v (s.lastReported c) then
    { s.reportAdc c v with adcLast := s.adcLast.setIfInBounds c.toNat (some v) }
  else s

/-- `FAST_AVG` (R202); a channel above 5 has no buffer (R51; log 15). -/
def execFastAvg (s : State) : Host.Outcome State Fault Refusal :=
  guarded "FAST_AVG" (CanFastAvg s) s
    (match s.adcBuf[s.curCh.toNat]? with
      | none => .error (.halt (.noSuchBuffer s.curCh.toNat))
      | some buf => .ok ({ compareAnalog s.curCh (average buf) s with curStage := .classify }.setCurValid false))

/-- `SLOW_CMP` (R204). -/
def execSlowCmp (s : State) : Host.Outcome State Fault Refusal :=
  guarded "SLOW_CMP" (CanSlowCmp s) s (.ok ((compareAnalog s.curCh s.curRaw s).setCurValid false))

/-- `ADC_SKIP` (R205). -/
def execAdcSkip (s : State) : Host.Outcome State Fault Refusal :=
  guarded "ADC_SKIP" (CanAdcSkip s) s (.ok (s.setCurValid false))

/-- The change test of tracked pin number `k` (R206, R207): report level `l` and keep it, if it differs. -/
def compareLevel (k : Nat) (e : GpioEntry) (l : BitVec 1) (s : State) : State :=
  if reportDue l e.last then
    { s.reportGpio e.pin l with gpioTab := s.gpioTab.set k { e with last := some l } }
  else s

/-- Sample the entry `σ(GIDX)`: one read of its module's data-input register (R206). -/
def samplePin (s : State) : Except Stop State :=
  match s.sampledEntry with
  | none => .ok s
  | some (k, e) =>
    match regRead (pinModule e.pin) .datain s with
    | .error x => .error x
    | .ok v => .ok { compareLevel k e (levelAt v (pinBit e.pin)) s with gidx := s.gidx + 1 }

/-- `GPIO_CMP` (R206). -/
def execGpioCmp (s : State) : Host.Outcome State Fault Refusal :=
  guarded "GPIO_CMP" (CanGpioCmp s) s (samplePin s)

end Sys2Proof.Machine
end

