-- ==== Sys2Proof/Machine/HostManager.lean ====
section
/-! DEFINITION. The host channel and register manager (44_host_manager.md). -/

namespace Sys2Proof.Machine

open Sys2Proof.Config

/-- `MAP_REGS` (R220): one draw for the four windows. -/
def execMapRegs (s : State) : Host.Outcome State Fault Refusal :=
  guarded "MAP_REGS" (HostIdle s) s
    (.ok (if freeMapOutcome s.tick then { s with hmapped := true }.setStatus .ok
      else s.setStatus .registerMapError))

/-- The checks of a host operation on a pin, in their order: `HostRange`, then `NotMapped` (R222, R226, R269). -/
def pinChecked (pin : BitVec 8) (s : State) (body : Except Stop State) : Except Stop State :=
  if 127 < pin.toNat then .error (.refuse .hostRange)
  else if s.hmapped = false then .error (.refuse .notMapped)
  else body

/-- The direction of `CFG_PIN`'s operand `B`: 1 is `IN`, 0 is `OUT` (R112). -/
def directionOf (b : BitVec 1) : PinUse := if b = 1 then .input else .output

/-- `HREG_PIN[PIN]` (R62). -/
def State.pinUse (s : State) (pin : BitVec 8) : PinUse := (s.hregPin[pin.toNat]?).getD .none

/-- Read-modify-write one shared word by setting one bit (R222, R224, R225). -/
def requestBit (w b : Nat) (s : State) : Except Stop State :=
  match memRead .host w s with
  | .error e => .error e
  | .ok (g, s1) => memWrite .host w (setBit g b) s1

/-- Read-modify-write one bit of a GPIO register (R222, R226, R305). -/
def updateRegBit (m : Nat) (r : GpioReg) (b : Nat) (level : BitVec 1) (s : State) : Except Stop State :=
  match regRead m r s with
  | .error e => .error e
  | .ok v => regWrite m r (putBit v b level) s

/-- Configure a free pin once its configuration path has been written: the output-enable bit, for an input also the interest
bit, then the registry (R222). An input's `OE` bit is 1 and an output's 0, the sense of `B` (R41, R112, C5). -/
def configurePin (pin : BitVec 8) (b : BitVec 1) (s : State) : Except Stop State :=
  match updateRegBit (pinModule pin) .oe (pinBit pin) b s with
  | .error e => .error e
  | .ok s1 =>
    match (if b = 1 then requestBit (gpioIntWord + pinModule pin) (pinBit pin) s1 else .ok s1) with
    | .error e => .error e
    | .ok s2 => .ok ({ s2 with hregPin := s2.hregPin.setIfInBounds pin.toNat (directionOf b) }.setStatus .ok)

/-- `CFG_PIN PIN, B` (R222). -/
def execCfgPin (pin : BitVec 8) (b : BitVec 1) (s : State) : Host.Outcome State Fault Refusal :=
  guarded "CFG_PIN" (HostIdle s) s
    (pinChecked pin s
      (if s.pinUse pin = directionOf b then .ok (s.setStatus .ok)
        else if s.pinUse pin ≠ .none then .ok (s.setStatus .pinConflictError)
        else if freePathOutcome s.tick then configurePin pin b s
        else .ok (s.setStatus .pinConfigError)))

/-- Request a channel not yet registered (R224). -/
def registerChannel (ch : BitVec 4) (s : State) : Except Stop State :=
  if (s.hregAdc[ch.toNat]?).getD false then .ok (s.setStatus .ok)
  else
    match requestBit adcIntWord ch.toNat s with
    | .error e => .error e
    | .ok s1 => .ok ({ s1 with hregAdc := s1.hregAdc.setIfInBounds ch.toNat true }.setStatus .ok)

/-- `REG_ADC CH` (R224); no mapping is needed. -/
def execRegAdc (ch : BitVec 4) (s : State) : Host.Outcome State Fault Refusal :=
  guarded "REG_ADC" (HostIdle s) s
    (if 13 < ch.toNat then .error (.refuse .hostRange) else registerChannel ch s)

/-- `SET_OUT PIN, B` (R226): no registry check and no status. -/
def execSetOut (pin : BitVec 8) (b : BitVec 1) (s : State) : Host.Outcome State Fault Refusal :=
  guarded "SET_OUT" (HostIdle s) s
    (pinChecked pin s (updateRegBit (pinModule pin) .dataout (pinBit pin) b s))

/-- `SESSION_END` (R228). It does not clear the mark that `RDATA` was written: DEDUCED, log 16. -/
def execSessionEnd (s : State) : Host.Outcome State Fault Refusal :=
  guarded "SESSION_END" (HostIdle s) s
    (.ok { s with
      hregPin := Vector.replicate 128 .none
      hregAdc := Vector.replicate 14 false
      hmapped := false })

end Sys2Proof.Machine
end

