-- ==== Sys2Proof/Machine/Ring.lean ====
section
/-! DEFINITION. The ring operations (40_ring_buffer.md): `RB_INIT`, `RB_WRITE`, `RB_READ`. -/

namespace Sys2Proof.Machine

open Sys2Proof.Config

/-- `MemWrite(w, 0)` for each word of a list, in order. -/
def zeroWords : List Nat → State → Except Stop State
  | [], s => .ok s
  | w :: rest, s =>
    match memWrite .host w 0 s with
    | .error e => .error e
    | .ok s1 => zeroWords rest s1

/-- The seven words `RB_INIT` writes, in its order: `HEAD`, `TAIL`, `GPIO_INT[0..3]`, `ADC_INT` (R130). -/
def initWords : List Nat := [headWord, tailWord, gpioIntWord, gpioIntWord + 1, gpioIntWord + 2, gpioIntWord + 3, adcIntWord]

/-- `RB_INIT` (R130): the seven writes are one step; the slots are not written. -/
def execRbInit (s : State) : Host.Outcome State Fault Refusal :=
  guarded "RB_INIT" (HostIdle s) s (zeroWords initWords s)

/-- `RB_WRITE` part 1 (R132): read both cursors, and drop the message when the ring is full (R136). -/
def ringWritePart1 (s : State) : Except Stop State :=
  match readCursors .rtu s with
  | .error e => .error e
  | .ok (h, t, s1) =>
    .ok { s1 with whead := h, wtail := t, wstep := if RingFull h t then .idle else .part2 }

/-- `RB_WRITE` part 2 (R132): store the message at `slot(WTAIL)`. -/
def ringWritePart2 (s : State) : Except Stop State :=
  match memWrite .rtu (slot s.wtail) s.msg s with
  | .error e => .error e
  | .ok s1 => .ok { s1 with wstep := .part3 }

/-- `RB_WRITE` part 3 (R132): publish it by advancing `TAIL`. -/
def ringWritePart3 (s : State) : Except Stop State :=
  match memWrite .rtu tailWord (nextCursor s.wtail) s with
  | .error e => .error e
  | .ok s1 => .ok { s1 with wstep := .idle }

/-- `RB_WRITE` (R132), one part per step. -/
def execRbWrite (s : State) : Host.Outcome State Fault Refusal :=
  guarded "RB_WRITE" (CanRbWrite s) s
    (match s.wstep with
      | .part1 => ringWritePart1 s
      | .part2 => ringWritePart2 s
      | .part3 => ringWritePart3 s
      | .idle => .ok s)

/-- `RB_READ` part 0 (R135): read both cursors; empty ends the read. -/
def ringReadPart0 (s : State) : Except Stop State :=
  match readCursors .host s with
  | .error e => .error e
  | .ok (h, t, s1) =>
    .ok (if RingEmpty h t then s1.setRvalid false else { s1 with rhead := h, rstep := .part2 })

/-- `RB_READ` part 2 (R135): read the message at `slot(RHEAD)`. -/
def ringReadPart2 (s : State) : Except Stop State :=
  match memRead .host (slot s.rhead) s with
  | .error e => .error e
  | .ok (v, s1) => .ok { s1 with rdata := v, rdataW := true, rstep := .part3 }

/-- `RB_READ` part 3 (R135): advance `HEAD` and report a message. -/
def ringReadPart3 (s : State) : Except Stop State :=
  match memWrite .host headWord (nextCursor s.rhead) s with
  | .error e => .error e
  | .ok s1 => .ok ({ s1 with rstep := .idle }.setRvalid true)

/-- `RB_READ` (R135), one part per step; the host may always issue or continue it. -/
def execRbRead (s : State) : Host.Outcome State Fault Refusal :=
  finish s
    (match s.rstep with
      | .idle => ringReadPart0 s
      | .part2 => ringReadPart2 s
      | .part3 => ringReadPart3 s)

end Sys2Proof.Machine
end

