-- ==== Sys2Proof/Machine/Sequencer.lean ====
section
/-! DEFINITION. The sampling sequencer (42_sampling_sequencer.md): its control (R170), its initialisation, and the operations of
iteration steps 1, 2, 3, 6 and 7. -/

namespace Sys2Proof.Machine

open Sys2Proof.Config

/-- The RTU's next operation in a phase when nothing is pending; `none` is a hold (R170). -/
def phaseNext (s : State) : Option Instr :=
  match s.phase with
  | .mux => some .muxAdv
  | .trig => some .adcTrig
  | .drain =>
    if s.adcFifo ≠ [] then some .adcPop
    else if s.params.adcMode = .sync ∧ s.adcPend ≠ 0 then none
    else some .adcEnd
  | .gpio => if s.gidx < s.gpioTab.length then some .gpioCmp else some .gpioEnd
  | .disca => some .discAdc
  | .discg => some .discGpio
  | .wait => if s.tmrFlag then some .tmrWait else none

/-- The comparator operation a popped pair awaits (R170). -/
def pairNext (s : State) : Option Instr :=
  match s.curStage with
  | .avg => some .fastAvg
  | .classify =>
    match s.enabledChannel s.curCh with
    | none => none
    | some false => some .adcSkip
    | some true => if s.curCh.toNat ≤ 5 then some .fastAcc else some .slowCmp

/-- The RTU's next operation, a function of its state: at most one (R170). `none` when it is halted or holds. -/
def rtuNext (s : State) : Option Instr :=
  match s.seq with
  | .halted => none
  | .init => some .seqInit
  | .run =>
    if s.wstep ≠ .idle then some .rbWrite
    else
      match s.repPend with
      | .adc => some (.encAdc s.repCh s.repVal)
      | .gpio => some (.encGpio s.repPin s.repLvl)
      | .none => if s.curValid then pairNext s else phaseNext s

/-- `SEQ_INIT` (R171). R68 calls `MSG`, `CUR_CH`, `CUR_RAW`, the `REP_*` operands, `WHEAD`, `WTAIL`, `ADC_BUF` and `ADC_LAST` unwritten
after it, and R171 does not write them. DESIGN CHOICE, log 23: they keep the values they had. -/
def execSeqInit (s : State) : Host.Outcome State Fault Refusal :=
  guarded "SEQ_INIT" (CanSeqInit s) s
    (.ok { s with
      adcEn := Vector.replicate 14 false
      gpioTab := []
      muxPos := s.params.muxInit
      tmrFlag := false
      adcFifo := []
      adcPend := 0
      adcNext := 0
      curValid := false
      curStage := .classify
      repPend := .none
      wstep := .idle
      gidx := 0
      phase := .mux
      seq := .run })

/-- The select lines `MUXSEL[2:0]`, which always equal `MUX_POS` (R46). -/
def State.muxSel (s : State) : BitVec 3 := s.muxPos

/-- `MUX_ADV` (R172). -/
def execMuxAdv (s : State) : Host.Outcome State Fault Refusal :=
  guarded "MUX_ADV" (RtuAt s .mux) s (.ok { s with muxPos := s.muxPos + 1, phase := .trig })

/-- `ADC_TRIG` (R174). -/
def execAdcTrig (s : State) : Host.Outcome State Fault Refusal :=
  guarded "ADC_TRIG" (RtuAt s .trig) s
    (if s.adcPend ≠ 0 then .error (.raise (.adcBusy s.adcPend))
      else .ok { s with adcPend := 7, adcNext := 0, phase := .drain })

/-- Pop the oldest result and map it with the current multiplexer position (R176). -/
def popResult (s : State) : Except Stop State :=
  match s.adcFifo with
  | [] => .ok s
  | r :: rest =>
    match chmap r.step s.muxPos with
    | none => .error (.raise (.adcStep r.step))
    | some c => .ok { s with adcFifo := rest, curCh := c, curRaw := r.data, curValid := true, curStage := .classify }

/-- `ADC_POP` (R176). -/
def execAdcPop (s : State) : Host.Outcome State Fault Refusal :=
  guarded "ADC_POP" (CanAdcPop s) s (popResult s)

/-- `ADC_END` (R178). -/
def execAdcEnd (s : State) : Host.Outcome State Fault Refusal :=
  guarded "ADC_END" (CanAdcEnd s) s (.ok { s with phase := .gpio, gidx := 0 })

/-- `GPIO_END` (R179). -/
def execGpioEnd (s : State) : Host.Outcome State Fault Refusal :=
  guarded "GPIO_END" (CanGpioEnd s) s (.ok { s with phase := .disca, gidx := 0 })

/-- The last-reported value a newly discovered analog channel gets (R180, `P_ADC_LAST_INIT`). -/
def initialLast : LastInit → Option (BitVec 12)
  | .unknown => none
  | .zero => some 0

/-- Channel `c` is newly observed as requested: its bit is set and it is not enabled yet (R180). -/
def newlyRequested (x : Word) (en : Vector Bool 14) (c : Fin 14) : Bool := x.getLsbD c && !en[c]

/-- Enable every channel newly observed as requested, and start its entry (R180). Bits 31:14 are not looked at (D23). -/
def discoverChannels (x : Word) (s : State) : State :=
  { s with
    adcEn := Vector.ofFn (fun c : Fin 14 => s.adcEn[c] || x.getLsbD c)
    adcLast := Vector.ofFn (fun c : Fin 14 =>
      if newlyRequested x s.adcEn c then initialLast s.params.adcLastInit else s.adcLast[c])
    adcBuf := Vector.ofFn (fun c : Fin 6 =>
      if newlyRequested x s.adcEn ⟨c.val, by omega⟩ then Vector.replicate 8 0 else s.adcBuf[c]) }

/-- `DISC_ADC` (R180). -/
def execDiscAdc (s : State) : Host.Outcome State Fault Refusal :=
  guarded "DISC_ADC" (RtuAt s .disca) s
    (match memRead .rtu adcIntWord s with
      | .error e => .error e
      | .ok (x, s1) => .ok { discoverChannels x s1 with phase := .discg, gidx := 0 })

/-- Step the module index after a scan: after module 3 the phase is `WAIT` (R182). -/
def nextModule (s : State) : State :=
  if s.gidx + 1 = 4 then { s with phase := .wait, gidx := 0 } else { s with gidx := s.gidx + 1 }

/-- `DISC_GPIO` (R182) of module `m = GIDX`; a module above 3 does not exist (R40; log 15). -/
def execDiscGpio (s : State) : Host.Outcome State Fault Refusal :=
  guarded "DISC_GPIO" (RtuAt s .discg) s
    (if 4 ≤ s.gidx then .error (.halt (.noSuchModule s.gidx))
      else
        match memRead .rtu (gpioIntWord + s.gidx) s with
        | .error e => .error e
        | .ok (x, s1) =>
          .ok (nextModule { s1 with gpioTab := scanModule s1.params.maxGpio x s1.gidx s1.gpioTab }))

/-- `TMR_WAIT` (R184). -/
def execTmrWait (s : State) : Host.Outcome State Fault Refusal :=
  guarded "TMR_WAIT" (CanTmrWait s) s (.ok ({ s with phase := .mux }.setTmrFlag false))

end Sys2Proof.Machine
end

