-- ==== Sys2Proof/Machine/Dispatch.lean ====
section
/-! DEFINITION. The meaning of each instruction, one arm per constructor. -/

namespace Sys2Proof.Machine

def exec (i : Instr) (s : State) : Host.Outcome State Fault Refusal :=
  match i with
  | .rbInit => Sys2Proof.Machine.execRbInit s
  | .rbWrite => Sys2Proof.Machine.execRbWrite s
  | .rbRead => Sys2Proof.Machine.execRbRead s
  | .encGpio pin b => Sys2Proof.Machine.execEncGpio pin b s
  | .encAdc ch val => Sys2Proof.Machine.execEncAdc ch val s
  | .decode => Sys2Proof.Machine.execDecode s
  | .seqInit => Sys2Proof.Machine.execSeqInit s
  | .muxAdv => Sys2Proof.Machine.execMuxAdv s
  | .adcTrig => Sys2Proof.Machine.execAdcTrig s
  | .adcPop => Sys2Proof.Machine.execAdcPop s
  | .adcEnd => Sys2Proof.Machine.execAdcEnd s
  | .gpioEnd => Sys2Proof.Machine.execGpioEnd s
  | .discAdc => Sys2Proof.Machine.execDiscAdc s
  | .discGpio => Sys2Proof.Machine.execDiscGpio s
  | .tmrWait => Sys2Proof.Machine.execTmrWait s
  | .fastAcc => Sys2Proof.Machine.execFastAcc s
  | .fastAvg => Sys2Proof.Machine.execFastAvg s
  | .slowCmp => Sys2Proof.Machine.execSlowCmp s
  | .adcSkip => Sys2Proof.Machine.execAdcSkip s
  | .gpioCmp => Sys2Proof.Machine.execGpioCmp s
  | .mapRegs => Sys2Proof.Machine.execMapRegs s
  | .cfgPin pin b => Sys2Proof.Machine.execCfgPin pin b s
  | .regAdc ch => Sys2Proof.Machine.execRegAdc ch s
  | .setOut pin b => Sys2Proof.Machine.execSetOut pin b s
  | .sessionEnd => Sys2Proof.Machine.execSessionEnd s
  | .tmrFire => Sys2Proof.Machine.execTmrFire s
  | .adcConv step data => Sys2Proof.Machine.execAdcConv step data s
  | .pinSet pin b => Sys2Proof.Machine.execPinSet pin b s
  | .rtuStart => Sys2Proof.Machine.execRtuStart s
  | .rtuHalt => Sys2Proof.Machine.execRtuHalt s
  | .msgGpio pin level => Sys2Proof.Machine.execMsgGpio pin level s
  | .msgAdc channel value => Sys2Proof.Machine.execMsgAdc channel value s

end Sys2Proof.Machine
end

