-- ==== Sys2Proof/Machine/Schedule.lean ====
section
/-! DEFINITION. Which operation a step performs. A command word names a step and is stored in no memory (R88, R110): the placed
commands stand in `State.pending`, and where none is placed a free value chooses among the agents' words, since any enabled step of
any agent may come next (R311). The checks come in the order of R269. -/

namespace Sys2Proof.Machine

open Sys2Proof.Config

/-- An agent performs an operation: refused with `WrongAgent` if it is another agent's (R118); no step if it is an RTU operation
other than the one the sequencer selects (R170, R268). -/
def attempt (agent : Agent) (i : Instr) (s : State) : Host.Outcome State Fault Refusal :=
  if i.agent ≠ agent then .next (takeRefusal s)
  else if i.agent = .rtu ∧ rtuNext s ≠ some i then .refused (.notEnabled i.mnemonic)
  else exec i s

/-- An agent performs a command word: refused with `IllegalCommand` if it spells no operation (R118, R119). -/
def performWord (agent : Agent) (w : Word) (s : State) : Host.Outcome State Fault Refusal :=
  match decodeCommand w with
  | .illegalCommand => .next (takeRefusal s)
  | .op i => attempt agent i s

/-- Count a step taken, so that the next step's draws are new ones (log 12). -/
def counted : Host.Outcome State Fault Refusal → Host.Outcome State Fault Refusal
  | .next t => .next t.ticked
  | .fault f => .fault f
  | .refused r => .refused r

/-- A command performed by its agent, as one counted step. -/
def perform (c : Command) (s : State) : Host.Outcome State Fault Refusal := counted (performWord c.agent c.word s)

/-- An operation performed by its own agent, as one counted step. -/
def act (i : Instr) (s : State) : Host.Outcome State Fault Refusal := counted (attempt i.agent i s)

/-- A freely chosen word: if it names no operation that its agent can perform now, no agent moves (R311; log 2). -/
def freeMove (w : Word) (s : State) : Host.Outcome State Fault Refusal :=
  match decodeCommand w with
  | .illegalCommand => .next s
  | .op i =>
    match attempt i.agent i s with
    | .next t => .next t
    | .fault f => .fault f
    | .refused _ => .next s

/-- One step of the block: the first placed command, taken off the list, or a freely chosen move. -/
def nextStep (s : State) : Host.Outcome State Fault Refusal :=
  match s.pending with
  | c :: rest => perform c { s with pending := rest }
  | [] => counted (freeMove (freeWord s.tick) s)

/-! ## Placing an operation so that the next step performs it (log 1) -/

/-- The RTU runs in a phase with nothing pending. -/
def selectPhase (p : Phase) (s : State) : State :=
  { s with seq := .run, wstep := .idle, repPend := .none, curValid := false, phase := p }

/-- The RTU runs with a popped pair at a stage. -/
def selectPair (st : CurStage) (s : State) : State :=
  { s with seq := .run, wstep := .idle, repPend := .none, curValid := true, curStage := st }

/-- No ring read is in progress. -/
def selectHost (s : State) : State := { s with rstep := .idle }

/-- The channel of the pair if it lies in a range, else the first of the range. -/
def channelWithin (lo hi : Nat) (c : BitVec 4) : BitVec 4 :=
  if lo ≤ c.toNat ∧ c.toNat ≤ hi then c else BitVec.ofNat 4 lo

/-- Set the cells that select an operation: those its enabling condition reads, and for the RTU those the control R170 reads. A cell
that already selects it is left as it is. -/
def selectFor (i : Instr) (s : State) : State :=
  match i with
  | .rbInit => selectHost s
  | .rbWrite => { s with seq := .run, wstep := if s.wstep = .idle then .part1 else s.wstep }
  | .rbRead => s
  | .encGpio pin b => { s with seq := .run, wstep := .idle, repPend := .gpio, repPin := pin, repLvl := b }
  | .encAdc ch val => { s with seq := .run, wstep := .idle, repPend := .adc, repCh := ch, repVal := val }
  | .decode => selectHost s
  | .seqInit => { s with seq := .init }
  | .muxAdv => selectPhase .mux s
  | .adcTrig => selectPhase .trig s
  | .adcPop => { selectPhase .drain s with adcFifo := if s.adcFifo = [] then [⟨0, 0⟩] else s.adcFifo }
  | .adcEnd =>
    { selectPhase .drain s with
      adcFifo := []
      adcPend := if s.params.adcMode = .sync then 0 else s.adcPend }
  | .gpioEnd => { selectPhase .gpio s with gidx := max s.gidx s.gpioTab.length }
  | .discAdc => selectPhase .disca s
  | .discGpio => selectPhase .discg s
  | .tmrWait => { selectPhase .wait s with tmrFlag := true }
  | .fastAcc =>
    { selectPair .classify s with
      curCh := channelWithin 0 5 s.curCh
      adcEn := s.adcEn.setIfInBounds (channelWithin 0 5 s.curCh).toNat true }
  | .fastAvg => { selectPair .avg s with curCh := channelWithin 0 5 s.curCh }
  | .slowCmp =>
    { selectPair .classify s with
      curCh := channelWithin 6 13 s.curCh
      adcEn := s.adcEn.setIfInBounds (channelWithin 6 13 s.curCh).toNat true }
  | .adcSkip =>
    { selectPair .classify s with
      curCh := channelWithin 0 13 s.curCh
      adcEn := s.adcEn.setIfInBounds (channelWithin 0 13 s.curCh).toNat false }
  | .gpioCmp =>
    { selectPhase .gpio s with
      gpioTab := if s.gpioTab = [] then [⟨0, none⟩] else s.gpioTab
      gidx := if s.gidx < s.gpioTab.length then s.gidx else 0 }
  | .mapRegs => selectHost s
  | .cfgPin _ _ => selectHost s
  | .regAdc _ => selectHost s
  | .setOut _ _ => selectHost s
  | .sessionEnd => selectHost s
  | .tmrFire => s
  | .adcConv step _ =>
    { s with
      adcNext := step.toNat
      adcPend := if s.adcPend = 0 then max 1 (7 - step.toNat) else s.adcPend
      adcFifo := if s.adcFifo.length < s.params.fifoDepth then s.adcFifo else [] }
  | .pinSet _ _ => s
  | .rtuStart => { selectHost s with seq := .halted }
  | .rtuHalt => { selectHost s with seq := if s.seq = .halted then .run else s.seq }
  | .msgGpio pin level => { selectHost s with rdata := encodeMessage (.gpio pin level), rdataW := true }
  | .msgAdc channel value => { selectHost s with rdata := encodeMessage (.adc channel value), rdataW := true }

/-- Put a command before those placed. -/
def State.place (s : State) (c : Command) : State := { s with pending := c :: s.pending }

/-- Place the instruction a word spells so that the very next step performs it. An operation: its command, with the cells that
select it. A message word: the word in `RDATA`, where the block reads messages, and the `DECODE` that reads it (log 14). -/
def placeWord (w : Word) (s : State) : State :=
  match decodeCommand w with
  | .op i => (selectFor i s).place ⟨i.agent, w⟩
  | .illegalCommand => ({ selectHost s with rdata := w, rdataW := true } : State).place Instr.decode.command

end Sys2Proof.Machine
end

