-- ==== Sys2Proof/Machine/Step.lean ====
section
/-! DEFINITION. One step of the block, and where an instruction is placed so that the next step runs it. -/

namespace Sys2Proof.Machine

/-- One step: of the first placed command, or of a free choice when none is placed (`nextStep`). -/
def step (s : State) : Host.Outcome State Fault Refusal := nextStep s

/-- The state with the instruction whose `nbits` low bits are `w` placed where the next step takes its instruction (log 1). -/
def State.withFetchWord (s : State) (nbits w : Nat) : State := placeWord (BitVec.ofNat 32 (w % 2 ^ nbits)) s

end Sys2Proof.Machine
end

