-- ==== Sys2Proof/Machine/Pseudo.lean ====
section
/-! DEFINITION. The pseudo-operations of R122: they have no command word, and each expands to operations of R117, one counted step each.
Other agents may step before each of them. A schedule says which commands they perform there: its `k`-th entry is what they do before
the expansion's `k`-th turn. A claim about an expansion is one for every schedule (R311; log 18). -/

namespace Sys2Proof.Machine

/-! ## Carrying out an expansion -/

/-- A pseudo-operation of one agent: the operation it performs at each point of its expansion (`none` while it holds), and the point
that operation `i`, led from one state to another, brings it to. -/
structure Expansion (α : Type) where
  agent : Agent
  next : α → State → Option Instr
  after : α → Instr → State → Sum α α

/-- How far an expansion has come under a schedule. -/
inductive Progress (α : Type) where
  /-- It has ended, at this point and in this state. -/
  | done (point : α) (s : State)
  /-- The schedule ends before it does. -/
  | going (point : α) (s : State)
  /-- The schedule is not one of a run of the model: a command of it, or of the expansion, is not enabled (R268), or is performed
  by the expansion's own agent. -/
  | cut
  deriving DecidableEq, Repr

/-- Other agents perform these commands, in order. -/
def othersMove (agent : Agent) : List Command → State → Option State
  | [], s => some s
  | c :: rest, s =>
    if c.agent = agent then none
    else
      match perform c s with
      | .next t => othersMove agent rest t
      | .fault _ => none
      | .refused _ => none

/-- The operation raises a model fault. No operation reads `FAULT` (R279), so it shows as the record it adds to an empty one. -/
def raisesFault (i : Instr) (s : State) : Bool :=
  match exec i { s with faults := [] } with
  | .next t => !t.faults.isEmpty
  | .fault _ => false
  | .refused _ => false

/-- Carry out an expansion from a point, under a schedule. Where its agent holds, it waits for others. After a fault its next step is
the same one (R262.4). -/
def carryOut {α : Type} (e : Expansion α) : List (List Command) → α → State → Progress α
  | [], a, s => .going a s
  | cs :: rest, a, s =>
    match othersMove e.agent cs s with
    | none => .cut
    | some u =>
      match e.next a u with
      | none => carryOut e rest a u
      | some i =>
        match act i u with
        | .fault _ => .cut
        | .refused _ => .cut
        | .next t =>
          if raisesFault i u then carryOut e rest a t
          else
            match e.after a i t with
            | .inl b => carryOut e rest b t
            | .inr b => .done b t

/-! ## The expansions of R122 -/

/-- The message in the `DEC_*` cells (R65). -/
def State.decoded (s : State) : Message :=
  match s.decKind with
  | .gpio => .gpio s.decPin s.decLvl
  | .adc => .adc s.decCh s.decVal

/-- A point of `DRAIN`: the messages so far, and whether `DECODE` comes next. -/
structure DrainPoint where
  result : List Message
  decoding : Bool
  deriving DecidableEq, Repr

/-- `DRAIN` (R138): read, stop where the read found the ring empty, else decode, append and read again. A read takes its parts, and
`RVALID` says what it found only once they are done (R135). R122 and R138 do not say what a drain begun while a read is in progress does
(`RSTEP` 2 or 3). DESIGN CHOICE, log 18: the rest of that read is the drain's first one, and its message is in the result. -/
def drainExpansion : Expansion DrainPoint where
  agent := .host
  next p _ := some (if p.decoding then .decode else .rbRead)
  after p _ t :=
    if p.decoding then .inl ⟨p.result ++ [t.decoded], false⟩
    else if t.rstep ≠ .idle then .inl p
    else if t.rvalid then .inl { p with decoding := true }
    else .inr p

/-- A drain under a schedule of the other agents' commands: `done` with the messages it returns. -/
def drain (schedule : List (List Command)) (s : State) : Progress DrainPoint :=
  carryOut drainExpansion schedule ⟨[], false⟩ s

/-- `ITERATION` (R122, R185): what the sequencer selects while the RTU runs, until `TMR_WAIT` brings it back to phase `MUX`. -/
def iterationExpansion : Expansion Unit where
  agent := .rtu
  next _ s := if s.seq = .run then rtuNext s else none
  after _ i t := if i = .tmrWait ∧ t.phase = .mux then .inr () else .inl ()

/-- An iteration from phase `MUX`, under a schedule of the other agents' commands. R122 defines it from phase `MUX` only. DESIGN CHOICE
(log 18): the start is not tested, and begun in any other state of the RTU it is the rest of the iteration that is under way, done at
the `TMR_WAIT` that ends that one. -/
def iteration (schedule : List (List Command)) (s : State) : Progress Unit := carryOut iterationExpansion schedule () s

/-- `REPORT_ADC` and `REPORT_GPIO` (R122): the encoding operation, then the parts of `RB_WRITE`. The point is whether the message is
encoded. -/
def reportExpansion (enc : Instr) : Expansion Bool where
  agent := .rtu
  next encoded _ := some (if encoded then .rbWrite else enc)
  after _ _ t := if t.wstep = .idle then .inr true else .inl true

/-- `REPORT_ADC c, v` (R122). -/
def reportAdcOp (c : BitVec 4) (v : BitVec 12) (schedule : List (List Command)) (s : State) : Progress Bool :=
  carryOut (reportExpansion (.encAdc c v)) schedule false s

/-- `REPORT_GPIO p, l` (R122). -/
def reportGpioOp (p : BitVec 8) (l : BitVec 1) (schedule : List (List Command)) (s : State) : Progress Bool :=
  carryOut (reportExpansion (.encGpio p l)) schedule false s

/-- A failure of session start that ends it: `RegisterMapError` of `MAP_REGS`, `FirmwareStartError` of `RTU_START` (R295). -/
def sessionFails (i : Instr) (t : State) : Bool :=
  (i = .mapRegs ∧ t.hstatus = .registerMapError) ∨ (i = .rtuStart ∧ t.hstatus = .firmwareStartError)

/-- Host operations one after another. The point is those still to perform; a session's failure ends it before its end, and what was
done is not undone (R265). -/
def sessionExpansion : Expansion (List Instr) where
  agent := .host
  next ops _ := ops.head?
  after ops i t := if sessionFails i t ∨ ops.tail = [] then .inr ops.tail else .inl ops.tail

/-- `SESSION_START` (R122, R295): `MAP_REGS`, `RB_INIT`, `RTU_START`, then the given `CFG_PIN`s. -/
def sessionStart (pins : List (BitVec 8 × BitVec 1)) (schedule : List (List Command)) (s : State) : Progress (List Instr) :=
  carryOut sessionExpansion schedule ([.mapRegs, .rbInit, .rtuStart] ++ pins.map (fun p => Instr.cfgPin p.1 p.2)) s

/-- `SESSION_STOP` (R122, R297): `RTU_HALT` then `SESSION_END`. -/
def sessionStop (schedule : List (List Command)) (s : State) : Progress (List Instr) :=
  carryOut sessionExpansion schedule [.rtuHalt, .sessionEnd] s

end Sys2Proof.Machine
end

