-- ==== Sys2Proof/Machine/Run.lean ====
section
/-! DEFINITION. Runs of the block (R268, R313) and fairness (R241, R243, R312). A finite run is that of a program listing and shows the
messages the host reads in it; an infinite run is a sequence of states and of the commands performed between them. -/

namespace Sys2Proof.Machine

/-! ## Finite runs (R313) -/

/-- The message the host reads when command `c` leads from `s` to `t`: the word `RB_READ` returns as its last part completes (R135). -/
def readMessage (c : Command) (s t : State) : Option Word :=
  if c = Instr.rbRead.command ∧ s.rstep = .part3 ∧ t.rstep = .idle then some t.rdata else none

/-- The finite run of a program listing: its commands in order, one step of the machine each, up to the listing's end. It gives the
messages the host has read and the last state. `none` when a step is not enabled, which is then no run of the model (R268). -/
def runProgram : List Command → State → Option (List Word × State)
  | [], s => some ([], { s with pending := [] })
  | c :: rest, s =>
    match step { s with pending := c :: rest } with
    | .next t => (runProgram rest t).map (fun r => ((readMessage c s t).toList ++ r.1, r.2))
    | .fault _ => none
    | .refused _ => none

/-- What a finite run shows (R313): the messages the host has read, the shared words, the GPIO registers, `FAULT` and `REFUSED`. -/
structure Observation where
  messages : List Word
  shm : Memory
  oe : Vector Word 4
  datain : Vector Word 4
  dataout : Vector Word 4
  faults : List ModelFault
  refused : Bool
  deriving DecidableEq, Repr

/-- The observable result of the finite run of a program listing from a state (R313). -/
def observe (program : List Command) (s : State) : Option Observation :=
  (runProgram program s).map (fun r =>
    ⟨r.1, r.2.shm, r.2.gpioOe, r.2.gpioDatain, r.2.gpioDataout, r.2.faults, r.2.refused⟩)

/-! ## Infinite runs and fairness (R312) -/

/-- An infinite run: command `n` leads from state `n` to the next. -/
def InfiniteRun (states : Nat → State) (events : Nat → Command) : Prop :=
  ∀ n, perform (events n) (states n) = .next (states (n + 1))

/-- The command is an operation of the agent, performed by it. -/
def Takes (a : Agent) (c : Command) : Prop := c.agent = a ∧ ∃ i, decodeCommand c.word = .op i ∧ i.agent = a

/-- The agent has an enabled step. A halted RTU has none (R170). -/
def HasStep (a : Agent) (s : State) : Prop := ∃ c t, Takes a c ∧ perform c s = .next t

/-- An `ADC_CONV` is enabled: a step remains and the queue is not full (R242). -/
def ConversionEnabled (s : State) : Prop := ∃ st, CanAdcConv s st

/-- R241: the timer fires infinitely often. -/
def TimerFair (events : Nat → Command) : Prop := ∀ n, ∃ k, n ≤ k ∧ events k = Instr.tmrFire.command

/-- R243: while one is enabled, an `ADC_CONV` eventually occurs. -/
def ConversionFair (states : Nat → State) (events : Nat → Command) : Prop :=
  ∀ n, ConversionEnabled (states n) →
    ∃ k, n ≤ k ∧ ((∃ st d, events k = (Instr.adcConv st d).command) ∨ ¬ ConversionEnabled (states k))

/-- R312: every agent that has an enabled step eventually takes one, or has none any more (log 17). -/
def AgentsFair (states : Nat → State) (events : Nat → Command) : Prop :=
  ∀ a n, HasStep a (states n) → ∃ k, n ≤ k ∧ (Takes a (events k) ∨ ¬ HasStep a (states k))

/-- The fairness assumptions of R312, for an infinite run. -/
structure FairRun (states : Nat → State) (events : Nat → Command) : Prop where
  run : InfiniteRun states events
  timer : TimerFair events
  conversion : ConversionFair states events
  agents : AgentsFair states events

end Sys2Proof.Machine
end

