-- ==== Sys2Proof/Safety.lean ====
section
/-! DEFINITION. The terms claims use: which states the spec's properties are about, the invariants, and the enabling
conditions of all operations in one table. -/

namespace Sys2Proof.Machine

open Sys2Proof.Config

/-- A state no fault and no refusal has led to: every property of the spec is about runs of such states (R262.5, R263). -/
abbrev FaultFree (s : State) : Prop := s.faults = [] ∧ s.refused = false

/-- The shared word at index `w`, `none` where never written (R32, R79). -/
def State.word (s : State) (w : Nat) : Option Word := s.shm.readWord w

/-- Bit `b` of module `m` in a bank of GPIO registers. -/
def bankBit (v : Vector Word 4) (m : Fin 4) (b : Nat) : Bool := v[m].getLsbD b

/-- An outcome with the records of faults and refusals taken out of its next state. -/
def withoutRecords : Host.Outcome State Fault Refusal → Host.Outcome State Fault Refusal
  | .next t => .next { t with faults := [], refused := false }
  | .fault f => .fault f
  | .refused r => .refused r

/-! ## Enabling (R268) -/

/-- The enabling condition of each operation as its rule lists it. -/
def Enabled (i : Instr) (s : State) : Prop :=
  match i with
  | .rbInit => s.rstep = .idle
  | .rbWrite => s.seq = .run ∧ s.wstep ≠ .idle
  | .rbRead => True
  | .encGpio _ _ => s.seq = .run ∧ s.wstep = .idle ∧ s.repPend = .gpio
  | .encAdc _ _ => s.seq = .run ∧ s.wstep = .idle ∧ s.repPend = .adc
  | .decode => s.rstep = .idle
  | .seqInit => s.seq = .init
  | .muxAdv => RtuAt s .mux
  | .adcTrig => RtuAt s .trig
  | .adcPop => RtuAt s .drain ∧ s.adcFifo ≠ []
  | .adcEnd => RtuAt s .drain ∧ s.adcFifo = [] ∧ (s.params.adcMode = .async ∨ s.adcPend = 0)
  | .gpioEnd => RtuAt s .gpio ∧ s.gpioTab.length ≤ s.gidx
  | .discAdc => RtuAt s .disca
  | .discGpio => RtuAt s .discg
  | .tmrWait => RtuAt s .wait ∧ s.tmrFlag = true
  | .fastAcc => PairAt s .classify ∧ s.adcEn[s.curCh.toNat]? = some true ∧ s.curCh.toNat ≤ 5
  | .fastAvg => PairAt s .avg
  | .slowCmp => PairAt s .classify ∧ s.adcEn[s.curCh.toNat]? = some true ∧ 6 ≤ s.curCh.toNat
  | .adcSkip => PairAt s .classify ∧ s.adcEn[s.curCh.toNat]? = some false
  | .gpioCmp => RtuAt s .gpio ∧ s.gidx < s.gpioTab.length
  | .mapRegs => s.rstep = .idle
  | .cfgPin _ _ => s.rstep = .idle
  | .regAdc _ => s.rstep = .idle
  | .setOut _ _ => s.rstep = .idle
  | .sessionEnd => s.rstep = .idle
  | .tmrFire => True
  | .adcConv step _ => 0 < s.adcPend ∧ step.toNat = s.adcNext ∧ s.adcFifo.length < s.params.fifoDepth
  | .pinSet _ _ => True
  | .rtuStart => s.rstep = .idle ∧ s.seq = .halted
  | .rtuHalt => s.rstep = .idle ∧ s.seq ≠ .halted
  | .msgGpio _ _ => s.rstep = .idle
  | .msgAdc _ _ => s.rstep = .idle

/-- The row of R117 for an operation: its word, both ways, and its agent; and its enabling condition: where that fails the operation
is not a step (R268). -/
abbrev RowSays (i : Instr) (w : Word) (a : Agent) : Prop :=
  encode i = w ∧ decodeCommand w = .op i ∧ i.agent = a ∧
    ∀ s : State, ¬ Enabled i s → exec i s = .refused (.notEnabled i.mnemonic)

/-! ## Invariants -/

/-- Memory keeps its canonical form, and a word is written whole: a byte that has a value stands in a word that has one (R73, R76). -/
structure MemoryInv (s : State) : Prop where
  canonical : s.shm.wf
  whole : ∀ a, s.shm.readByte a ≠ none → s.shm.readWord (a / 4) ≠ none

/-- While the RTU runs: the sweep counts agree (R60, C8), the queue holds only steps of the sweep (R242), and it is bounded as R243
derives. -/
structure SweepInv (s : State) : Prop where
  pend_le : s.seq = .run → s.adcPend ≤ 7
  next_le : s.seq = .run → s.adcNext ≤ 7
  counts : s.seq = .run → 0 < s.adcPend → s.adcNext + s.adcPend = 7
  steps : s.seq = .run → ∀ r ∈ s.adcFifo, r.step.toNat ≤ 6
  drain_bound : s.seq = .run → s.phase = .drain → s.adcFifo.length + s.adcPend ≤ 14
  other_bound : s.seq = .run → s.phase ≠ .drain → s.adcFifo.length + s.adcPend ≤ 7

/-- The pair awaiting the comparator names a channel, and one at stage `AVG` a fast one (R48, R177). -/
structure PairInv (s : State) : Prop where
  channel : s.curValid = true → s.curCh.toNat ≤ 13
  fast : s.curValid = true → s.curStage = .avg → s.curCh.toNat ≤ 5

/-- The tracking table holds distinct pins that exist, within its capacity (R54, R55, R57, R44). -/
structure TableInv (s : State) : Prop where
  distinct : (s.gpioTab.map GpioEntry.pin).Nodup
  named : ∀ e ∈ s.gpioTab, e.pin.toNat ≤ 127
  bounded : s.gpioTab.length ≤ s.params.maxGpio

/-- A report waiting for the codec names a channel or a pin that exists (R47; corner cases of R150 and R152). -/
structure ReportInv (s : State) : Prop where
  channel : s.repPend = .adc → s.repCh.toNat ≤ 13
  pin : s.repPend = .gpio → s.repPin.toNat ≤ 127

/-- `GIDX` stays within what its phase indexes (R52, R182). -/
structure IndexInv (s : State) : Prop where
  sampling : s.phase = .gpio → s.gidx ≤ s.gpioTab.length
  scanning : s.phase = .discg → s.gidx ≤ 3

/-- A fast channel's last-reported value is a 7-bit average (R56). -/
def LastInv (s : State) : Prop := ∀ c : Fin 6, ∀ v, s.adcLast[c.val]? = some (some v) → v.toNat ≤ 127

/-- The invariant every step keeps, from every power-on state on. -/
structure BlockInv (s : State) : Prop where
  memory : MemoryInv s
  sweep : SweepInv s
  pair : PairInv s
  table : TableInv s
  report : ReportInv s
  index : IndexInv s
  last : LastInv s

/-! ## The ring (R133, R134, R137) -/

/-- The number of unread messages, `(t − h) mod 2048` (R133). -/
def occupancy (h t : Word) : Nat := (t.toNat + 2048 - h.toNat) % 2048

/-- The slots that hold unread messages, oldest first: `slot(h), slot(h+1), …` (R133). -/
def liveSlots (h t : Word) : List Nat := (List.range (occupancy h t)).map (fun k => (h.toNat + k) % 1024)

/-- The unread messages, oldest first. -/
def unread (s : State) (h t : Word) : List (Option Word) := (liveSlots h t).map s.word

/-- The ring invariant under `SC` (R134), with what a write or read in progress has latched (R132, R135): the cursors are written and
legal, at most 1024 messages are unread, each in a slot that was written. -/
structure RingInv (s : State) (h t : Word) : Prop where
  order : s.params.memOrder = .sc
  size : 1031 ≤ s.params.shmWords
  head : s.word headWord = some h
  tail : s.word tailWord = some t
  head_legal : h.toNat ≤ 2047
  tail_legal : t.toNat ≤ 2047
  bound : occupancy h t ≤ 1024
  written : ∀ i ∈ liveSlots h t, s.word i ≠ none
  writing : s.seq = .run → s.wstep = .part2 ∨ s.wstep = .part3 → s.wtail = t ∧ occupancy h t < 1024
  stored : s.seq = .run → s.wstep = .part3 → s.word (slot t) = some s.msg
  reading : s.rstep ≠ .idle → s.rhead = h ∧ 0 < occupancy h t
  fetched : s.rstep = .part3 → s.word (slot h) = some s.rdata

end Sys2Proof.Machine
end

