-- ==== Sys2Proof/Certificates/Slice0/Obligations.lean ====
section
/-! DEFINITION. The statements for the provers, from the spec's numbered rules. Each docstring names the rule it formalises. -/

open Sys2Proof Sys2Proof.Machine Sys2Proof.Config

/-! ## Encodings -/

/-- Words written out from R117's examples, R106 and the tables of R112 to R115 decode to the operation they spell; words R118 calls
illegal are refused by the decoder. A sanity statement. -/
def Obligations.CommandWordsDecode : Prop :=
  decodeCommand 0x1000010B = .op (.encGpio 11 1) ∧
  decodeCommand 0x1100ABCD = .op (.encAdc 13 0xABC) ∧
  decodeCommand 0x4100010B = .op (.cfgPin 11 1) ∧
  decodeCommand 0x51001235 = .op (.adcConv 5 0x123) ∧
  decodeCommand 0x03000000 = .op .rbRead ∧
  decodeCommand 0x25000000 = .op .gpioEnd ∧
  decodeCommand 0x34000000 = .op .gpioCmp ∧
  decodeCommand 0x4200000D = .op (.regAdc 13) ∧
  decodeCommand 0x43000128 = .op (.setOut 40 1) ∧
  decodeCommand 0x00000000 = .illegalCommand ∧
  decodeCommand 0x02000001 = .illegalCommand ∧
  decodeCommand 0x41000200 = .illegalCommand ∧
  decodeCommand 0x42000010 = .illegalCommand ∧
  decodeCommand 0x55000000 = .illegalCommand ∧
  decodeMessage 0x8000ABCD = .adc 13 0xABC ∧
  decodeMessage 0x0000010B = .gpio 11 1

/-- Decoding the word of an instruction gives the instruction back, for every instruction and every operand value.
That a message word is read as a message row is the model's choice (log 14). -/
def Obligations.DecodeOfEncode : Prop :=
  ∀ i : Instr, decodeTableWord 32 (encode i).toNat = some i

/-- A word that decodes to an operation is that operation's word: no bit of a command word is ignored (R118: the zero bits are
checked). -/
def Obligations.CommandWordsUnique : Prop :=
  ∀ (w : Word) (i : Instr), decodeCommand w = .op i → encode i = w

/-- R156: the codec's round trips on the declared ranges, and the two encodings never collide. -/
def Obligations.MessageRoundTrip : Prop :=
  (∀ p l : Nat, p ≤ 255 → l ≤ 1 →
    ∃ w, encGpioWord p l = .ok w ∧ decodeMessage w = .gpio (BitVec.ofNat 8 p) (BitVec.ofNat 1 l)) ∧
  (∀ c v : Nat, c ≤ 15 → v ≤ 4095 →
    ∃ w, encAdcWord c v = .ok w ∧ decodeMessage w = .adc (BitVec.ofNat 4 c) (BitVec.ofNat 12 v)) ∧
  (∀ p l c v : Nat, ∀ w, encGpioWord p l = .ok w → encAdcWord c v ≠ .ok w)

/-- R157: the encoders are injective on their declared ranges, and encoding a decoded word gives the word back exactly when its
reserved bits are zero. -/
def Obligations.ReservedBitsDecideReencoding : Prop :=
  (∀ m n : Message, encodeMessage m = encodeMessage n → m = n) ∧
  ∀ w : Word, encodeMessage (decodeMessage w) = w ↔
    (if w.getLsbD 31 then ∀ k, 16 ≤ k → k ≤ 30 → w.getLsbD k = false else ∀ k, 9 ≤ k → k ≤ 30 → w.getLsbD k = false)

/-- R155: the decoder of messages: bit 31 alone selects the format, the fields are `w[7:0]`, `w[8]` or `w[3:0]`, `w[15:4]`, and the
reserved bits do not matter. -/
def Obligations.MessageDecoderReadsFields : Prop :=
  ∀ w : Word,
    (w.getLsbD 31 = false →
      decodeMessage w = .gpio (BitVec.ofNat 8 (w.toNat % 256)) (BitVec.ofNat 1 (w.toNat / 256 % 2))) ∧
    (w.getLsbD 31 = true →
      decodeMessage w = .adc (BitVec.ofNat 4 (w.toNat % 16)) (BitVec.ofNat 12 (w.toNat / 16 % 4096)))

/-- R151 and R153: the encoders' words on the declared ranges, and `F_ENC_RANGE` with the operands outside them. -/
def Obligations.EncodersFaultOutOfRange : Prop :=
  (∀ pin level : Nat, encGpioWord pin level =
    if pin ≤ 255 ∧ level ≤ 1 then .ok (BitVec.ofNat 32 (level * 256 + pin))
    else .error (.raise (.encRange pin level))) ∧
  (∀ channel value : Nat, encAdcWord channel value =
    if channel ≤ 15 ∧ value ≤ 4095 then .ok (BitVec.ofNat 32 (2147483648 + value * 16 + channel))
    else .error (.raise (.encRange channel value)))

/-! ## Steps of the machine -/

/-- A step runs the decoded instruction: with a command placed whose word spells an operation of the agent that performs it, and which
for the RTU is the one the sequencer selects, the step is the operation's meaning on the state with the command taken off, and a next
state is counted (log 1). -/
def Obligations.StepRunsPlacedCommand : Prop :=
  ∀ (s : State) (c : Command) (rest : List Command) (i : Instr),
    s.pending = c :: rest → decodeCommand c.word = .op i → i.agent = c.agent → (i.agent = .rtu → rtuNext s = some i) →
    step s = counted (exec i { s with pending := rest }) ∧
    (∀ t, exec i { s with pending := rest } = .next t → step s = .next { t with tick := t.tick + 1 })

/-- The checks of a placed command in their order (R118, R269 points 1 to 3): an illegal word and a word of another agent set
`REFUSED` and change nothing else but the model's own list and count; an RTU operation the sequencer does not select is no step
(log 10, log 11). -/
def Obligations.PlacedCommandChecks : Prop :=
  ∀ (s : State) (c : Command) (rest : List Command), s.pending = c :: rest →
    (decodeCommand c.word = .illegalCommand →
      step s = .next { s with pending := rest, refused := true, tick := s.tick + 1 }) ∧
    (∀ i, decodeCommand c.word = .op i → i.agent ≠ c.agent →
      step s = .next { s with pending := rest, refused := true, tick := s.tick + 1 }) ∧
    (∀ i, decodeCommand c.word = .op i → i.agent = c.agent → i.agent = .rtu → rtuNext s ≠ some i →
      step s = .refused (.notEnabled i.mnemonic))

/-- With no command placed (log 2) no agent moves and the step only counts, exactly when the freely chosen word spells no operation,
or an RTU operation the sequencer does not select, or one whose enabling condition fails; otherwise the step is the operation's
meaning, counted. A statement for every value of the free word. -/
def Obligations.UnplacedStepIsFree : Prop :=
  ∀ s : State, s.pending = [] →
    (decodeCommand (freeWord s.tick) = .illegalCommand → step s = .next { s with tick := s.tick + 1 }) ∧
    (∀ i, decodeCommand (freeWord s.tick) = .op i → i.agent = .rtu → rtuNext s ≠ some i →
      step s = .next { s with tick := s.tick + 1 }) ∧
    (∀ i, decodeCommand (freeWord s.tick) = .op i → ¬ Enabled i s → step s = .next { s with tick := s.tick + 1 }) ∧
    (∀ i, decodeCommand (freeWord s.tick) = .op i → (i.agent = .rtu → rtuNext s = some i) → Enabled i s →
      step s = counted (exec i s))

/-- Placing an instruction makes the next step run it (log 1): the step is the meaning on the selected state, and never the refusal
that the operation is not enabled. -/
def Obligations.PlacedInstructionRunsNext : Prop :=
  ∀ (s : State) (i : Instr), s.params.Wf → (∀ p l, i ≠ .msgGpio p l) → (∀ c v, i ≠ .msgAdc c v) →
    step (s.withFetchWord 32 (encode i).toNat) = counted (exec i (selectFor i s)) ∧
    ∀ m, step (s.withFetchWord 32 (encode i).toNat) ≠ .refused (.notEnabled m)

/-- An operation is a step exactly when the enabling condition its rule lists holds (R268): otherwise, and only then, the meaning stops
by `notEnabled`. No rule lists a condition for the two message rows: theirs, `RSTEP = 0`, is the model's choice (log 14). -/
def Obligations.EnabledExactlyWhenListed : Prop :=
  ∀ (i : Instr) (s : State), exec i s = .refused (.notEnabled i.mnemonic) ↔ ¬ Enabled i s

/-- R170: the RTU's next operation, as the rule's table gives it, line by line; and the RTU never has two operations it can perform. -/
def Obligations.SequencerControl : Prop :=
  ∀ s : State,
    (s.seq = .halted → rtuNext s = none) ∧
    (s.seq = .init → rtuNext s = some .seqInit) ∧
    (s.seq = .run → s.wstep ≠ .idle → rtuNext s = some .rbWrite) ∧
    (s.seq = .run → s.wstep = .idle → s.repPend = .adc → rtuNext s = some (.encAdc s.repCh s.repVal)) ∧
    (s.seq = .run → s.wstep = .idle → s.repPend = .gpio → rtuNext s = some (.encGpio s.repPin s.repLvl)) ∧
    (PairAt s .avg → rtuNext s = some .fastAvg) ∧
    (PairAt s .classify → s.adcEn[s.curCh.toNat]? = some false → rtuNext s = some .adcSkip) ∧
    (PairAt s .classify → s.adcEn[s.curCh.toNat]? = some true → s.curCh.toNat ≤ 5 → rtuNext s = some .fastAcc) ∧
    (PairAt s .classify → s.adcEn[s.curCh.toNat]? = some true → 6 ≤ s.curCh.toNat → rtuNext s = some .slowCmp) ∧
    (RtuAt s .mux → rtuNext s = some .muxAdv) ∧
    (RtuAt s .trig → rtuNext s = some .adcTrig) ∧
    (RtuAt s .drain → s.adcFifo ≠ [] → rtuNext s = some .adcPop) ∧
    (RtuAt s .drain → s.adcFifo = [] → s.params.adcMode = .sync → s.adcPend ≠ 0 → rtuNext s = none) ∧
    (RtuAt s .drain → s.adcFifo = [] → (s.params.adcMode = .async ∨ s.adcPend = 0) → rtuNext s = some .adcEnd) ∧
    (RtuAt s .gpio → s.gidx < s.gpioTab.length → rtuNext s = some .gpioCmp) ∧
    (RtuAt s .gpio → s.gpioTab.length ≤ s.gidx → rtuNext s = some .gpioEnd) ∧
    (RtuAt s .disca → rtuNext s = some .discAdc) ∧
    (RtuAt s .discg → rtuNext s = some .discGpio) ∧
    (RtuAt s .wait → s.tmrFlag = true → rtuNext s = some .tmrWait) ∧
    (RtuAt s .wait → s.tmrFlag = false → rtuNext s = none) ∧
    (∀ i j t u, i.agent = .rtu → j.agent = .rtu → attempt .rtu i s = .next t → attempt .rtu j s = .next u → i = j)

/-- The operation the sequencer selects completes, in every state that meets the invariant: the RTU has no error path (R186; a model
fault is a next state, R262). -/
def Obligations.SelectedOperationCompletes : Prop :=
  ∀ (s : State) (i : Instr), BlockInv s → s.params.Wf → rtuNext s = some i → ∃ t, exec i s = .next t

/-- R229: every host operation of the manager, `RB_INIT` and `DECODE` complete with no read in progress, and each part of `RB_READ`
completes at any time. -/
def Obligations.HostNeverBlocks : Prop :=
  ∀ s : State, s.params.Wf →
    (∃ t, exec .rbRead s = .next t) ∧
    (s.rstep = .idle → ∀ i ∈ [Instr.rbInit, .decode, .mapRegs, .sessionEnd], ∃ t, exec i s = .next t) ∧
    (s.rstep = .idle → ∀ pin b, (∃ t, exec (.cfgPin pin b) s = .next t) ∧ ∃ t, exec (.setOut pin b) s = .next t) ∧
    (s.rstep = .idle → ∀ ch, ∃ t, exec (.regAdc ch) s = .next t)

/-! ## Faults and refusals -/

/-- R262.1 and R262.2: an operation that adds a record to `FAULT` has no other effect. R263: one that sets `REFUSED` has no other
effect. R262.3: neither is ever taken back. -/
def Obligations.FaultsArePreciseAndSticky : Prop :=
  ∀ (i : Instr) (s t : State), exec i s = .next t →
    (t.faults = s.faults ∨ ∃ f, f ∉ s.faults ∧ t = { s with faults := s.faults ++ [f] }) ∧
    (t.refused = s.refused ∨ t = { s with refused := true })

/-- R279: no operation reads `FAULT` or `REFUSED`: from states that differ only in them, the outcomes differ only in them. -/
def Obligations.FaultsNotObserved : Prop :=
  ∀ (i : Instr) (s : State) (fs : List ModelFault) (r : Bool),
    withoutRecords (exec i { s with faults := fs, refused := r }) = withoutRecords (exec i s)

/-- R79: reading a word never written raises `F_UNINIT` with its index, whichever side reads and whatever the memory order; a write
gives the word a value. -/
def Obligations.UnwrittenWordsFault : Prop :=
  ∀ (side : Side) (w : Nat) (s : State), w < s.params.shmWords →
    (s.word w = none → memRead side w s = .error (.raise (.uninit (.word w)))) ∧
    (∀ v, ∃ t, memWrite side w v s = .ok t ∧ t.word w = some v)

/-! ## Memory order -/

/-- R82: under `SC` a read returns the value last written, and neither a read nor a write does anything else. -/
def Obligations.ScReadsLastWrite : Prop :=
  ∀ (side : Side) (w : Nat) (s : State), w < s.params.shmWords → s.params.memOrder = .sc →
    (∀ v, s.word w = some v → memRead side w s = .ok (v, s)) ∧
    (∀ v, ∃ t, memWrite side w v s = .ok t ∧ t = { s with shm := t.shm } ∧ t.word w = some v ∧
      ∀ a, a < 4 * w ∨ 4 * w + 4 ≤ a → t.shm.readByte a = s.shm.readByte a)

/-- R83: under `WEAK` a read returns the last write or an older one the side may still see; afterwards it cannot see one older than
the value read, and nothing else changes. A side that has written a word reads its own write, and the other side may still read the
value overwritten; of every other word each side may still read what it could before: a write orders nothing but its own word. How
the older values are held is the model's (log 13). -/
def Obligations.WeakReadsAreCoherent : Prop :=
  ∀ (side : Side) (w : Nat) (s : State), w < s.params.shmWords → s.params.memOrder = .weak →
    (∀ u, s.word w = some u → ∃ v t k, memRead side w s = .ok (v, t) ∧
      (staleValues (s.stale side) w ++ [u])[k]? = some v ∧
      staleValues (t.stale side) w = (staleValues (s.stale side) w).drop k ∧
      (∀ x, x ≠ w → staleValues (t.stale side) x = staleValues (s.stale side) x) ∧
      t = s.setStale side (t.stale side)) ∧
    (∀ v, ∃ t, memWrite side w v s = .ok t ∧ memRead side w t = .ok (v, t) ∧ t.word w = some v ∧
      staleValues (t.stale side.other) w = staleValues (s.stale side.other) w ++ (s.word w).toList ∧
      (∀ x, x ≠ w → staleValues (t.stale side) x = staleValues (s.stale side) x ∧
        staleValues (t.stale side.other) x = staleValues (s.stale side.other) x) ∧
      (∀ a, a < 4 * w ∨ 4 * w + 4 ≤ a → t.shm.readByte a = s.shm.readByte a) ∧
      t = { s with shm := t.shm, staleHost := t.staleHost, staleRtu := t.staleRtu })

/-- R39: each shared cell is changed by its writer's operations only. Every operation but those named leaves the cell as it was. -/
def Obligations.CellsHaveOneWriter : Prop :=
  ∀ (i : Instr) (s t : State), exec i s = .next t →
    (i ≠ .rbWrite → ∀ w, w ≤ 1023 → t.word w = s.word w) ∧
    (i ≠ .rbRead → i ≠ .rbInit → t.word 1024 = s.word 1024) ∧
    (i ≠ .rbWrite → i ≠ .rbInit → t.word 1025 = s.word 1025) ∧
    (i ≠ .rbInit → (∀ pin b, i ≠ .cfgPin pin b) → ∀ w, 1026 ≤ w → w ≤ 1029 → t.word w = s.word w) ∧
    (i ≠ .rbInit → (∀ ch, i ≠ .regAdc ch) → t.word 1030 = s.word 1030) ∧
    (∀ w, 1031 ≤ w → t.word w = s.word w) ∧
    ((∀ pin b, i ≠ .cfgPin pin b) → t.gpioOe = s.gpioOe) ∧
    ((∀ pin b, i ≠ .pinSet pin b) → t.gpioDatain = s.gpioDatain) ∧
    ((∀ pin b, i ≠ .setOut pin b) → t.gpioDataout = s.gpioDataout) ∧
    (i ≠ .muxAdv → i ≠ .seqInit → t.muxPos = s.muxPos)

/-- R92: under `SC` an interest bit that is set stays set under every operation but `RB_INIT`. -/
def Obligations.InterestBitsStaySet : Prop :=
  ∀ (i : Instr) (s t : State), s.params.memOrder = .sc → i ≠ .rbInit → exec i s = .next t →
    ∀ w v, 1026 ≤ w → w ≤ 1030 → s.word w = some v →
      ∃ v', t.word w = some v' ∧ ∀ b, v.getLsbD b = true → v'.getLsbD b = true

/-- R50, R55: no operation but `SEQ_INIT` disables a channel, or changes or removes the pin id of an entry. -/
def Obligations.TrackingOnlyGrows : Prop :=
  ∀ (i : Instr) (s t : State), i ≠ .seqInit → exec i s = .next t →
    (∀ c : Fin 14, s.adcEn[c] = true → t.adcEn[c] = true) ∧
    (s.gpioTab.map GpioEntry.pin) <+: (t.gpioTab.map GpioEntry.pin)

/-! ## Reset and invariants -/

/-- R68, the power-on column: every value the spec gives, for all parameters and all power-on values of what it leaves open (log 5).
That `REFUSED` is set there for a misaligned base is the model's reading of R75 (log 20); the last clause names the model's own values
(log 5, log 6, log 7). -/
def Obligations.PowerOnValues : Prop :=
  ∀ (p : Params) (e : PowerOn),
    (∀ w, (State.powerOn p e).word w = none) ∧
    (∀ m : Fin 4, (State.powerOn p e).gpioOe[m] = p.oeReset ∧ (State.powerOn p e).gpioDataout[m] = p.dataoutReset) ∧
    (State.powerOn p e).seq = .halted ∧ rtuNext (State.powerOn p e) = none ∧
    (∀ q : Fin 128, (State.powerOn p e).hregPin[q] = .none) ∧
    (∀ c : Fin 14, (State.powerOn p e).hregAdc[c] = false) ∧
    (State.powerOn p e).hmapped = false ∧ (State.powerOn p e).hstatus = .ok ∧
    (State.powerOn p e).rvalid = false ∧ (State.powerOn p e).rstep = .idle ∧ (State.powerOn p e).rdataW = false ∧
    (State.powerOn p e).faults = [] ∧ ((State.powerOn p e).refused = true ↔ ¬ p.BasesAligned) ∧
    State.reset = State.powerOn Params.default PowerOn.quiet

/-- The invariant holds at every power-on state, the reset state among them. It rests on the values the model gives at power-on to
cells R68 calls unwritten: no pair, no report, phase `MUX`, an empty table, every `ADC_LAST` `UNKNOWN` (log 4). -/
def Obligations.InvAtPowerOn : Prop :=
  ∀ (p : Params) (e : PowerOn), BlockInv (State.powerOn p e)

/-- Every step keeps the invariant, and no parameter ever changes. -/
def Obligations.StepKeepsInv : Prop :=
  ∀ s t : State, BlockInv s → step s = .next t → BlockInv t ∧ t.params = s.params

/-- No state that meets the invariant stops in a fault: the corners for which the spec has no cell are not reached. -/
def Obligations.NoFaultUnderInv : Prop :=
  ∀ (s : State) (f : Fault), BlockInv s → s.params.Wf → step s ≠ .fault f

/-! ## Ring buffer -/

/-- R133: for legal cursors, `EMPTY` is occupancy 0, `FULL` is occupancy 1024, the slots of at most 1024 messages are distinct, and
with 1024 every slot is used. -/
def Obligations.OccupancyDecidesEmptyFull : Prop :=
  ∀ h t : Word, h.toNat ≤ 2047 → t.toNat ≤ 2047 →
    (RingEmpty h t ↔ occupancy h t = 0) ∧
    (RingFull h t ↔ occupancy h t = 1024) ∧
    (occupancy h t ≤ 1024 → (liveSlots h t).Nodup) ∧
    (occupancy h t = 1024 → ∀ k, k < 1024 → k ∈ liveSlots h t) ∧
    (∀ k, (hk : k < occupancy h t) → (liveSlots h t)[k]? = some (slot (BitVec.ofNat 32 (h.toNat + k))))

/-- R134: the ring invariant holds after `RB_INIT` with the RTU not running, and every operation keeps it, but for an `RB_INIT` while
the RTU runs (the hazard of R304). -/
def Obligations.OperationsKeepRingInv : Prop :=
  (∀ s t : State, s.params.memOrder = .sc → s.params.Wf → s.seq ≠ .run → exec .rbInit s = .next t → RingInv t 0 0) ∧
  (∀ (i : Instr) (s u : State) (h t : Word), RingInv s h t → (i = .rbInit → s.seq ≠ .run) → exec i s = .next u →
    ∃ h' t', RingInv u h' t')

/-- R137: from a state that meets the ring invariant, the last part of a write appends its message to the unread messages, the last
part of a read returns and removes the oldest, `RB_INIT` empties them, and no other operation changes them: none is lost,
duplicated or reordered. -/
def Obligations.RingIsFifo : Prop :=
  ∀ (i : Instr) (s u : State) (h t : Word), RingInv s h t → (i = .rbInit → s.seq ≠ .run) → exec i s = .next u →
    ∃ h' t', RingInv u h' t' ∧
      if i = .rbInit then unread u h' t' = []
      else if i = .rbWrite ∧ s.wstep = .part3 then unread u h' t' = unread s h t ++ [some s.msg]
      else if i = .rbRead ∧ s.rstep = .part3 then unread s h t = some s.rdata :: unread u h' t' ∧ u.rdata = s.rdata
      else unread u h' t' = unread s h t

/-- R130: `RB_INIT` writes 0 to words 1024 to 1030 in one step, every other byte and every register keeping its value. -/
def Obligations.RbInitClearsCells : Prop :=
  RowSays .rbInit 0x01000000 .host ∧
  (∀ s : State, 1031 ≤ s.params.shmWords → s.rstep = .idle →
    ∃ t, exec .rbInit s = .next t ∧
      (∀ w, 1024 ≤ w → w ≤ 1030 → t.word w = some 0) ∧
      (∀ a, a < 4096 ∨ 4124 ≤ a → t.shm.readByte a = s.shm.readByte a) ∧
      t = { s with shm := t.shm, staleHost := t.staleHost, staleRtu := t.staleRtu } ∧
      (s.params.memOrder = .sc → t = { s with shm := t.shm }))

/-- R132 part 1: with both cursors read, a full ring drops the message and any other goes on to part 2; no shared byte is written. The
values read are those of `memRead`, in either memory order. -/
def Obligations.RbWriteChecksForRoom : Prop :=
  RowSays .rbWrite 0x02000000 .rtu ∧
  ∀ (s s1 s2 : State) (t h : Word), s.seq = .run → s.wstep = .part1 →
    memRead .rtu 1025 s = .ok (t, s1) → memRead .rtu 1024 s1 = .ok (h, s2) → t.toNat ≤ 2047 → h.toNat ≤ 2047 →
    (t = h ^^^ 0x400#32 → exec .rbWrite s = .next { s2 with whead := h, wtail := t, wstep := .idle }) ∧
    (t ≠ h ^^^ 0x400#32 → exec .rbWrite s = .next { s2 with whead := h, wtail := t, wstep := .part2 }) ∧
    s2.shm = s.shm

/-- R132 parts 2 and 3: the message is stored at `slot(WTAIL)`, then `TAIL` becomes `next(WTAIL)`; every other byte and register keeps
its value. -/
def Obligations.RbWriteStoresThenPublishes : Prop :=
  ∀ s : State, 1031 ≤ s.params.shmWords → s.seq = .run →
    (s.wstep = .part2 → ∃ t, exec .rbWrite s = .next t ∧ t.word (slot s.wtail) = some s.msg ∧
      (∀ a, a < 4 * slot s.wtail ∨ 4 * slot s.wtail + 4 ≤ a → t.shm.readByte a = s.shm.readByte a) ∧
      t = { s with shm := t.shm, staleHost := t.staleHost, staleRtu := t.staleRtu, wstep := .part3 }) ∧
    (s.wstep = .part3 → ∃ t, exec .rbWrite s = .next t ∧
      t.word 1025 = some (BitVec.ofNat 32 ((s.wtail.toNat + 1) % 2048)) ∧
      (∀ a, a < 4100 ∨ 4104 ≤ a → t.shm.readByte a = s.shm.readByte a) ∧
      t = { s with shm := t.shm, staleHost := t.staleHost, staleRtu := t.staleRtu, wstep := .idle })

/-- R135: the three parts of `RB_READ`, over the values `memRead` gives in either memory order; part 2 of a slot never written raises
`F_UNINIT` of the slot. -/
def Obligations.RbReadParts : Prop :=
  RowSays .rbRead 0x03000000 .host ∧
  (∀ (s s1 s2 : State) (t h : Word), s.rstep = .idle →
    memRead .host 1025 s = .ok (t, s1) → memRead .host 1024 s1 = .ok (h, s2) → t.toNat ≤ 2047 → h.toNat ≤ 2047 →
    (t = h → exec .rbRead s = .next { s2 with rvalid := false }) ∧
    (t ≠ h → exec .rbRead s = .next { s2 with rhead := h, rstep := .part2 }) ∧ s2.shm = s.shm) ∧
  (∀ (s s1 : State) (v : Word), s.rstep = .part2 → memRead .host (s.rhead.toNat % 1024) s = .ok (v, s1) →
    exec .rbRead s = .next { s1 with rdata := v, rdataW := true, rstep := .part3 } ∧ s1.shm = s.shm) ∧
  (∀ s : State, 1031 ≤ s.params.shmWords → s.rstep = .part2 → s.word (s.rhead.toNat % 1024) = none →
    exec .rbRead s = .next (takeFault (.uninit (.word (s.rhead.toNat % 1024))) s)) ∧
  (∀ s : State, 1031 ≤ s.params.shmWords → s.rstep = .part3 → ∃ t, exec .rbRead s = .next t ∧
    t.word 1024 = some (BitVec.ofNat 32 ((s.rhead.toNat + 1) % 2048)) ∧
    (∀ a, a < 4096 ∨ 4100 ≤ a → t.shm.readByte a = s.shm.readByte a) ∧
    t = { s with shm := t.shm, staleHost := t.staleHost, staleRtu := t.staleRtu, rstep := .idle, rvalid := true })

/-- The faults of reading the cursors, in the order of R269: `F_UNINIT` of `TAIL`, then of `HEAD`, then `F_CURSOR_RANGE` of `TAIL`, then
of `HEAD` (R131); the same for the write and the read. -/
def Obligations.CursorFaultsInOrder : Prop :=
  ∀ (i : Instr) (side : Side) (s : State), 1031 ≤ s.params.shmWords →
    ((i = .rbWrite ∧ side = .rtu ∧ s.seq = .run ∧ s.wstep = .part1) ∨ (i = .rbRead ∧ side = .host ∧ s.rstep = .idle)) →
    (s.word 1025 = none → exec i s = .next (takeFault (.uninit (.word 1025)) s)) ∧
    (s.word 1025 ≠ none → s.word 1024 = none → exec i s = .next (takeFault (.uninit (.word 1024)) s)) ∧
    (∀ t s1 h s2, memRead side 1025 s = .ok (t, s1) → memRead side 1024 s1 = .ok (h, s2) →
      (2047 < t.toNat → exec i s = .next (takeFault (.cursorRange 1025 t) s)) ∧
      (t.toNat ≤ 2047 → 2047 < h.toNat → exec i s = .next (takeFault (.cursorRange 1024 h) s)))

/-! ## Codec -/

/-- R150 and R152: the encoders store the message in `MSG`, clear the report and start the ring write. -/
def Obligations.EncodersStartTheWrite : Prop :=
  (∀ (pin : BitVec 8) (b : BitVec 1),
    RowSays (.encGpio pin b) (BitVec.ofNat 32 (0x10000000 + b.toNat * 256 + pin.toNat)) .rtu ∧
    ∀ s : State, s.seq = .run → s.wstep = .idle → s.repPend = .gpio →
      exec (.encGpio pin b) s =
        .next { s with msg := BitVec.ofNat 32 (b.toNat * 256 + pin.toNat), repPend := .none, wstep := .part1 }) ∧
  (∀ (ch : BitVec 4) (val : BitVec 12),
    RowSays (.encAdc ch val) (BitVec.ofNat 32 (0x11000000 + val.toNat * 16 + ch.toNat)) .rtu ∧
    ∀ s : State, s.seq = .run → s.wstep = .idle → s.repPend = .adc →
      exec (.encAdc ch val) s =
        .next { s with msg := BitVec.ofNat 32 (0x80000000 + val.toNat * 16 + ch.toNat), repPend := .none, wstep := .part1 })

/-- R154: `DECODE` stores the fields of the message in `RDATA` in the cells of its kind and writes no other cell; with `RDATA` never
written it raises `F_UNINIT(RDATA)`. That 'written' goes by the pseudocode, and not by the session, is the model's reading (log 16). -/
def Obligations.DecodeStoresFields : Prop :=
  RowSays .decode 0x12000000 .host ∧
  ∀ s : State, s.rstep = .idle →
    (s.rdataW = false → exec .decode s = .next (takeFault (.uninit .rdata) s)) ∧
    (∀ p l, s.rdataW = true → decodeMessage s.rdata = .gpio p l →
      exec .decode s = .next { s with decKind := .gpio, decPin := p, decLvl := l }) ∧
    (∀ c v, s.rdataW = true → decodeMessage s.rdata = .adc c v →
      exec .decode s = .next { s with decKind := .adc, decCh := c, decVal := v })

/-- A message word read by `DECODE` is the message row's own meaning (R154, R155; log 14). -/
def Obligations.MessageRowsAreDecoded : Prop :=
  ∀ s : State, s.rstep = .idle →
    (∀ p l, exec (.msgGpio p l) s = .next { s with decKind := .gpio, decPin := p, decLvl := l }) ∧
    (∀ c v, exec (.msgAdc c v) s = .next { s with decKind := .adc, decCh := c, decVal := v }) ∧
    (s.rdataW = true → exec .decode s = exec (decodeMessage s.rdata).instr s)

/-! ## Sequencer -/

/-- R171: what `SEQ_INIT` writes, every other cell keeping its value. That the cells R68 calls unwritten after it keep theirs is the
model's choice (log 23). -/
def Obligations.SeqInitWrites : Prop :=
  RowSays .seqInit 0x20000000 .rtu ∧
  ∀ s : State, s.seq = .init →
    ∃ t, exec .seqInit s = .next t ∧ (∀ c : Fin 14, t.adcEn[c] = false) ∧
      t = { s with
        adcEn := t.adcEn, gpioTab := [], muxPos := s.params.muxInit, tmrFlag := false, adcFifo := [], adcPend := 0,
        adcNext := 0, curValid := false, curStage := .classify, repPend := .none, wstep := .idle, gidx := 0, phase := .mux,
        seq := .run }

/-- R172, R179, R184: the operations that step the iteration on, with their whole effect. -/
def Obligations.PhaseStepsOn : Prop :=
  RowSays .muxAdv 0x21000000 .rtu ∧ RowSays .gpioEnd 0x25000000 .rtu ∧ RowSays .tmrWait 0x28000000 .rtu ∧
  ∀ s : State,
    (RtuAt s .mux → exec .muxAdv s =
      .next { s with muxPos := BitVec.ofNat 3 ((s.muxPos.toNat + 1) % 8), phase := .trig }) ∧
    (RtuAt s .gpio → s.gpioTab.length ≤ s.gidx → exec .gpioEnd s = .next { s with phase := .disca, gidx := 0 }) ∧
    (RtuAt s .wait → s.tmrFlag = true → exec .tmrWait s = .next { s with tmrFlag := false, phase := .mux })

/-- R174: the trigger starts a sweep of 7 steps from step 0, or raises `F_ADC_BUSY` with `ADC_PEND`. -/
def Obligations.TriggerStartsSweep : Prop :=
  RowSays .adcTrig 0x22000000 .rtu ∧
  ∀ s : State, RtuAt s .trig →
    (s.adcPend = 0 → exec .adcTrig s = .next { s with adcPend := 7, adcNext := 0, phase := .drain }) ∧
    (s.adcPend ≠ 0 → exec .adcTrig s = .next (takeFault (.adcBusy s.adcPend) s))

/-- R177: the table of `chmap`, row by row. -/
def Obligations.ChannelMapTable : Prop :=
  ∀ (st : BitVec 4) (p : BitVec 3),
    (st.toNat ≤ 4 → chmap st p = some (BitVec.ofNat 4 st.toNat)) ∧
    (st.toNat = 5 → p.toNat = 0 → chmap st p = some 13) ∧
    (st.toNat = 5 → 1 ≤ p.toNat → chmap st p = some (BitVec.ofNat 4 (6 + p.toNat - 1))) ∧
    (st.toNat = 6 → chmap st p = some 5) ∧
    (7 ≤ st.toNat → chmap st p = none)

/-- R176, R178: the oldest result is popped and mapped with the current position, a foreign step id raises `F_ADC_STEP`, and an empty
queue ends the drain. -/
def Obligations.DrainPopsAndEnds : Prop :=
  RowSays .adcPop 0x23000000 .rtu ∧ RowSays .adcEnd 0x24000000 .rtu ∧
  ∀ s : State, RtuAt s .drain →
    (∀ r rest c, s.adcFifo = r :: rest → chmap r.step s.muxPos = some c →
      exec .adcPop s = .next { s with
        adcFifo := rest, curCh := c, curRaw := r.data, curValid := true, curStage := .classify }) ∧
    (∀ r rest, s.adcFifo = r :: rest → 6 < r.step.toNat → exec .adcPop s = .next (takeFault (.adcStep r.step) s)) ∧
    (s.adcFifo = [] → (s.params.adcMode = .async ∨ s.adcPend = 0) →
      exec .adcEnd s = .next { s with phase := .gpio, gidx := 0 })

/-- R180: `DISC_ADC` enables every channel whose interest bit is set and that is not enabled, starts its last-reported value and, for a
fast channel, its buffer; the others keep theirs, and bits 31:14 do not matter. -/
def Obligations.DiscAdcEnablesRequested : Prop :=
  RowSays .discAdc 0x26000000 .rtu ∧
  (∀ (s s1 : State) (x : Word), RtuAt s .disca → memRead .rtu 1030 s = .ok (x, s1) →
    ∃ t, exec .discAdc s = .next t ∧
      (∀ c : Fin 14, t.adcEn[c] = (s.adcEn[c] || x.getLsbD c) ∧
        t.adcLast[c] = if x.getLsbD c = true ∧ s.adcEn[c] = false then
          (if s.params.adcLastInit = .unknown then none else some 0) else s.adcLast[c]) ∧
      (∀ (c : Fin 6) (j : Fin 8), (t.adcBuf[c])[j] =
        if x.getLsbD c = true ∧ s.adcEn[c.val]? = some false then 0 else (s.adcBuf[c])[j]) ∧
      t = { s1 with adcEn := t.adcEn, adcLast := t.adcLast, adcBuf := t.adcBuf, phase := .discg, gidx := 0 } ∧
      s1.shm = s.shm) ∧
  (∀ s : State, 1031 ≤ s.params.shmWords → RtuAt s .disca → s.word 1030 = none →
    exec .discAdc s = .next (takeFault (.uninit (.word 1030)) s))

/-- R182, R183: `DISC_GPIO` appends, in ascending order, an entry with an `UNKNOWN` level for every requested pin of module `GIDX` that
is not tracked, as far as the table has room, and steps to the next module or to `WAIT`. -/
def Obligations.DiscGpioTracksRequested : Prop :=
  RowSays .discGpio 0x27000000 .rtu ∧
  (∀ (s s1 : State) (x : Word), RtuAt s .discg → s.gidx ≤ 3 → memRead .rtu (1026 + s.gidx) s = .ok (x, s1) →
    exec .discGpio s = .next { s1 with
      gpioTab := s.gpioTab ++
        ((((List.range 32).filter (fun b => x.getLsbD b && !tracked s.gpioTab (BitVec.ofNat 8 (32 * s.gidx + b)))).take
          (s.params.maxGpio - s.gpioTab.length)).map (fun b => ⟨BitVec.ofNat 8 (32 * s.gidx + b), none⟩))
      phase := if s.gidx = 3 then .wait else .discg
      gidx := if s.gidx = 3 then 0 else s.gidx + 1 } ∧ s1.shm = s.shm) ∧
  (∀ s : State, 1031 ≤ s.params.shmWords → RtuAt s .discg → s.gidx ≤ 3 → s.word (1026 + s.gidx) = none →
    exec .discGpio s = .next (takeFault (.uninit (.word (1026 + s.gidx))) s))

/-! ## Comparator -/

/-- R200, R201: the sample `CUR_RAW >> 5` goes into the slot of the current position of the channel's buffer and no other slot; at
position 7 the average is owed, else the pair is done. -/
def Obligations.FastAccStoresSample : Prop :=
  RowSays .fastAcc 0x30000000 .rtu ∧
  ∀ s : State, PairAt s .classify → s.adcEn[s.curCh.toNat]? = some true → s.curCh.toNat ≤ 5 →
    ∃ t, exec .fastAcc s = .next t ∧
      (∀ (c : Fin 6) (j : Fin 8), (t.adcBuf[c])[j] =
        if c.val = s.curCh.toNat ∧ j.val = s.muxPos.toNat then BitVec.ofNat 7 (s.curRaw.toNat / 32) else (s.adcBuf[c])[j]) ∧
      (s.muxPos = 7 → t = { s with adcBuf := t.adcBuf, curStage := .avg }) ∧
      (s.muxPos ≠ 7 → t = { s with adcBuf := t.adcBuf, curValid := false })

/-- R202, R207: the average is reported and kept exactly when it differs from the last reported (`UNKNOWN` differs from every value);
the pair is done either way. -/
def Obligations.FastAvgReportsChange : Prop :=
  RowSays .fastAvg 0x31000000 .rtu ∧
  ∀ (s : State) (c : Fin 6), PairAt s .avg → s.curCh.toNat = c.val →
    (s.adcLast[c.val]? = some (some (average s.adcBuf[c])) →
      exec .fastAvg s = .next { s with curValid := false, curStage := .classify }) ∧
    (s.adcLast[c.val]? ≠ some (some (average s.adcBuf[c])) →
      exec .fastAvg s = .next { s with
        repPend := .adc, repCh := s.curCh, repVal := average s.adcBuf[c]
        adcLast := s.adcLast.set c.val (some (average s.adcBuf[c])), curValid := false, curStage := .classify })

/-- R203: the sum of a buffer is at most 1016 and the average is its floor over 8, at most 127, so that bits 15:11 of its message are
zero. -/
def Obligations.AverageIsFloorOfMean : Prop :=
  ∀ buf : Vector (BitVec 7) 8,
    bufferSum buf = buf[0].toNat + buf[1].toNat + buf[2].toNat + buf[3].toNat + buf[4].toNat + buf[5].toNat + buf[6].toNat +
      buf[7].toNat ∧
    bufferSum buf ≤ 1016 ∧ (average buf).toNat = bufferSum buf / 8 ∧ (average buf).toNat ≤ 127 ∧
    ∀ (c : BitVec 4) (k : Nat), 11 ≤ k → k ≤ 15 → (encodeMessage (.adc c (average buf))).getLsbD k = false

/-- R204, R205, R207: a slow channel's raw value is reported and kept exactly when it differs from the last reported; a result of a
channel that is not monitored changes no state but `CUR_VALID`. -/
def Obligations.SlowCmpAndSkip : Prop :=
  RowSays .slowCmp 0x32000000 .rtu ∧ RowSays .adcSkip 0x33000000 .rtu ∧
  ∀ (s : State) (c : Fin 14), PairAt s .classify → s.curCh.toNat = c.val →
    (s.adcEn[c] = true → 6 ≤ c.val → s.adcLast[c] = some s.curRaw → exec .slowCmp s = .next { s with curValid := false }) ∧
    (s.adcEn[c] = true → 6 ≤ c.val → s.adcLast[c] ≠ some s.curRaw → exec .slowCmp s = .next { s with
      repPend := .adc, repCh := s.curCh, repVal := s.curRaw, adcLast := s.adcLast.set c.val (some s.curRaw), curValid := false }) ∧
    (s.adcEn[c] = false → exec .adcSkip s = .next { s with curValid := false })

/-- R206, R207: the sampled entry's level is reported and kept exactly when it differs from the last reported; `GIDX` steps on. -/
def Obligations.GpioCmpReportsChange : Prop :=
  RowSays .gpioCmp 0x34000000 .rtu ∧
  ∀ (s : State) (k : Nat) (e : GpioEntry) (m : Fin 4) (b : Nat), RtuAt s .gpio → s.gidx < s.gpioTab.length →
    (samplingOrder s.params.gpioOrder s.gpioTab)[s.gidx]? = some (k, e) → e.pin.toNat = 32 * m.val + b → b < 32 →
    (e.last = some (BitVec.ofBool (bankBit s.gpioDatain m b)) → exec .gpioCmp s = .next { s with gidx := s.gidx + 1 }) ∧
    (e.last ≠ some (BitVec.ofBool (bankBit s.gpioDatain m b)) → exec .gpioCmp s = .next { s with
      repPend := .gpio, repPin := e.pin, repLvl := BitVec.ofBool (bankBit s.gpioDatain m b)
      gpioTab := s.gpioTab.set k ⟨e.pin, some (BitVec.ofBool (bankBit s.gpioDatain m b))⟩, gidx := s.gidx + 1 })

/-- The sampling order `σ` of R206: creation order under `DISCOVERY`; under `PIN_ID` the same entries by ascending pin id. -/
def Obligations.SamplingOrderBySetting : Prop :=
  ∀ tab : List GpioEntry,
    (∀ k : Nat, (samplingOrder .discovery tab)[k]? = (tab[k]?).map (fun e => (k, e))) ∧
    (samplingOrder .pinId tab).Perm (samplingOrder .discovery tab) ∧
    (samplingOrder .pinId tab).Pairwise (fun x y => x.2.pin.toNat ≤ y.2.pin.toNat)

/-! ## Host manager -/

/-- R220: the mapping outcome is a draw, in both of its values; no register value changes (log 12). -/
def Obligations.MapRegsDraws : Prop :=
  RowSays .mapRegs 0x40000000 .host ∧
  ∀ s : State, s.rstep = .idle →
    exec .mapRegs s = .next (if freeMapOutcome s.tick then { s with hmapped := true, hstatus := .ok }
      else { s with hstatus := .registerMapError })

/-- R222 and R223: the results of `CFG_PIN` that do not depend on the configuration path, in the order of the checks: a pin that does
not exist and windows not mapped set the mark only; the same direction again and a conflicting one set the status only. -/
def Obligations.CfgPinWithoutEffect : Prop :=
  (∀ (pin : BitVec 8) (b : BitVec 1), RowSays (.cfgPin pin b) (BitVec.ofNat 32 (0x41000000 + b.toNat * 256 + pin.toNat)) .host) ∧
  (∀ (s : State) (pin : BitVec 8) (b : BitVec 1), s.rstep = .idle → 127 < pin.toNat ∨ s.hmapped = false →
    exec (.cfgPin pin b) s = .next { s with refused := true }) ∧
  ∀ (s : State) (pin : BitVec 8) (b : BitVec 1) (q : Fin 128), pin.toNat = q.val → s.rstep = .idle → s.hmapped = true →
    (s.hregPin[q] = (if b = 1 then .input else .output) → exec (.cfgPin pin b) s = .next { s with hstatus := .ok }) ∧
    (s.hregPin[q] = (if b = 1 then .output else .input) →
      exec (.cfgPin pin b) s = .next { s with hstatus := .pinConflictError })

/-- R222: configuring a free pin, in both outcomes of its path. Where the path is written, the pin's `OE` bit becomes the direction, no
other bit changes, and the registry records it; an input also sets the pin's interest bit, storing only that word, and an unwritten
interest word faults. Where it is not, the status alone changes (log 12). -/
def Obligations.CfgPinConfigures : Prop :=
  ∀ (s : State) (pin : BitVec 8) (m : Fin 4) (b : Nat) (q : Fin 128), 1031 ≤ s.params.shmWords →
    pin.toNat = 32 * m.val + b → b < 32 → q.val = pin.toNat → s.rstep = .idle → s.hmapped = true → s.hregPin[q] = .none →
    (∃ t, exec (.cfgPin pin 0) s = .next t ∧
      if freePathOutcome s.tick then
        (∀ (m' : Fin 4) (b' : Nat), b' < 32 →
          bankBit t.gpioOe m' b' = if m' = m ∧ b' = b then false else bankBit s.gpioOe m' b') ∧
        t = { s with gpioOe := t.gpioOe, hregPin := s.hregPin.set q.val .output, hstatus := .ok }
      else t = { s with hstatus := .pinConfigError }) ∧
    (∀ g s1, memRead .host (1026 + m.val) s = .ok (g, s1) → ∃ t, exec (.cfgPin pin 1) s = .next t ∧
      if freePathOutcome s.tick then
        (∀ (m' : Fin 4) (b' : Nat), b' < 32 →
          bankBit t.gpioOe m' b' = if m' = m ∧ b' = b then true else bankBit s.gpioOe m' b') ∧
        t.word (1026 + m.val) = some (g ||| (1#32 <<< b)) ∧
        (∀ a, a < 4 * (1026 + m.val) ∨ 4 * (1026 + m.val) + 4 ≤ a → t.shm.readByte a = s.shm.readByte a) ∧
        t = { s with
          shm := t.shm, staleHost := t.staleHost, staleRtu := t.staleRtu, gpioOe := t.gpioOe
          hregPin := s.hregPin.set q.val .input, hstatus := .ok }
      else t = { s with hstatus := .pinConfigError }) ∧
    (s.word (1026 + m.val) = none → exec (.cfgPin pin 1) s =
      .next (if freePathOutcome s.tick then takeFault (.uninit (.word (1026 + m.val))) s else { s with hstatus := .pinConfigError }))

/-- R224: registering a channel sets its interest bit, storing only that word, and records it; again it only sets the status; an
unwritten interest word faults; a channel above 13 is refused. No mapping is needed. -/
def Obligations.RegAdcRequests : Prop :=
  (∀ ch : BitVec 4, RowSays (.regAdc ch) (BitVec.ofNat 32 (0x42000000 + ch.toNat)) .host) ∧
  (∀ (s : State) (ch : BitVec 4), s.rstep = .idle → 13 < ch.toNat → exec (.regAdc ch) s = .next { s with refused := true }) ∧
  ∀ (s : State) (ch : BitVec 4) (c : Fin 14), 1031 ≤ s.params.shmWords → ch.toNat = c.val → s.rstep = .idle →
    (s.hregAdc[c] = true → exec (.regAdc ch) s = .next { s with hstatus := .ok }) ∧
    (∀ g s1, s.hregAdc[c] = false → memRead .host 1030 s = .ok (g, s1) → ∃ t, exec (.regAdc ch) s = .next t ∧
      t.word 1030 = some (g ||| (1#32 <<< c.val)) ∧
      (∀ a, a < 4120 ∨ 4124 ≤ a → t.shm.readByte a = s.shm.readByte a) ∧
      t = { s with
        shm := t.shm, staleHost := t.staleHost, staleRtu := t.staleRtu, hregAdc := s.hregAdc.set c.val true, hstatus := .ok }) ∧
    (s.hregAdc[c] = false → s.word 1030 = none → exec (.regAdc ch) s = .next (takeFault (.uninit (.word 1030)) s))

/-- R226 and R244: `SET_OUT` writes one bit of `DATAOUT`, `PIN_SET` one bit of `DATAIN`; every other bit and cell keeps its value, the
status among them. A pin that does not exist, and a `SET_OUT` before mapping, are refused. -/
def Obligations.OnePinBitIsWritten : Prop :=
  (∀ (pin : BitVec 8) (l : BitVec 1),
    RowSays (.setOut pin l) (BitVec.ofNat 32 (0x43000000 + l.toNat * 256 + pin.toNat)) .host ∧
    RowSays (.pinSet pin l) (BitVec.ofNat 32 (0x52000000 + l.toNat * 256 + pin.toNat)) .env) ∧
  (∀ (s : State) (pin : BitVec 8) (l : BitVec 1),
    (s.rstep = .idle → 127 < pin.toNat ∨ s.hmapped = false → exec (.setOut pin l) s = .next { s with refused := true }) ∧
    (127 < pin.toNat → exec (.pinSet pin l) s = .next { s with refused := true })) ∧
  ∀ (s : State) (pin : BitVec 8) (l : BitVec 1) (m : Fin 4) (b : Nat), pin.toNat = 32 * m.val + b → b < 32 →
    (s.rstep = .idle → s.hmapped = true → ∃ t, exec (.setOut pin l) s = .next t ∧
      (∀ (m' : Fin 4) (b' : Nat), b' < 32 →
        bankBit t.gpioDataout m' b' = if m' = m ∧ b' = b then decide (l = 1) else bankBit s.gpioDataout m' b') ∧
      t = { s with gpioDataout := t.gpioDataout }) ∧
    (∃ t, exec (.pinSet pin l) s = .next t ∧
      (∀ (m' : Fin 4) (b' : Nat), b' < 32 →
        bankBit t.gpioDatain m' b' = if m' = m ∧ b' = b then decide (l = 1) else bankBit s.gpioDatain m' b') ∧
      t = { s with gpioDatain := t.gpioDatain })

/-- R228: the registries are cleared and the windows unmapped; no register or shared word is written. That the mark of `RDATA` as written
is kept as well is the model's reading (log 16). -/
def Obligations.SessionEndClears : Prop :=
  RowSays .sessionEnd 0x44000000 .host ∧
  ∀ s : State, s.rstep = .idle →
    ∃ t, exec .sessionEnd s = .next t ∧ (∀ q : Fin 128, t.hregPin[q] = .none) ∧ (∀ c : Fin 14, t.hregAdc[c] = false) ∧
      t = { s with hregPin := t.hregPin, hregAdc := t.hregAdc, hmapped := false }

/-! ## External agents -/

/-- R240: a compare match sets the flag and nothing else, in every state; matches coalesce. R242: a conversion of the next step of
the sweep appends its result, whatever the RTU does; a word with another step is not enabled. -/
def Obligations.TimerAndConversion : Prop :=
  RowSays .tmrFire 0x50000000 .timer ∧ (∀ s : State, exec .tmrFire s = .next { s with tmrFlag := true }) ∧
  ∀ (st : BitVec 4) (d : BitVec 12),
    RowSays (.adcConv st d) (BitVec.ofNat 32 (0x51000000 + d.toNat * 16 + st.toNat)) .adc ∧
    ∀ s : State, 0 < s.adcPend → st.toNat = s.adcNext → s.adcFifo.length < s.params.fifoDepth →
      exec (.adcConv st d) s =
        .next { s with adcFifo := s.adcFifo ++ [⟨st, d⟩], adcNext := s.adcNext + 1, adcPend := s.adcPend - 1 }

/-- R246 and R248: the loader starts a halted RTU, or fails, by a draw, and halts a running one with all other state kept (log 12). -/
def Obligations.LoaderStartsAndHalts : Prop :=
  RowSays .rtuStart 0x53000000 .host ∧ RowSays .rtuHalt 0x54000000 .host ∧
  ∀ s : State, s.rstep = .idle →
    (s.seq = .halted → exec .rtuStart s = .next (if freeLoadOutcome s.tick then { s with seq := .init, hstatus := .ok }
      else { s with hstatus := .firmwareStartError })) ∧
    (s.seq ≠ .halted → exec .rtuHalt s = .next { s with seq := .halted })

/-! ## Fair runs -/

/-- R241 and R243: in a fair run (R312; log 17) no hold of the RTU lasts. One that waits for the timer is released by `TMR_WAIT`, and one
that under `SYNC` waits for the rest of a sweep sees an `ADC_CONV`, unless the host halts the RTU. -/
def Obligations.FairRunsReleaseHolds : Prop :=
  ∀ (states : Nat → State) (events : Nat → Command), FairRun states events → ∀ n,
    (RtuAt (states n) .wait →
      ∃ k, n ≤ k ∧ (events k = Instr.tmrWait.command ∨ events k = Instr.rtuHalt.command)) ∧
    (BlockInv (states n) → (states n).params.Wf → RtuAt (states n) .drain → (states n).params.adcMode = .sync →
      (states n).adcFifo = [] → (states n).adcPend ≠ 0 →
      ∃ k, n ≤ k ∧ ((∃ st d, events k = (Instr.adcConv st d).command) ∨ events k = Instr.rtuHalt.command))
end

