-- ==== Sys2Proof/Laws/Decode.lean ====
section
/-! SUPPORT. What the fields of an encoded word are: the encoders against the field extractors, format by format. -/

namespace Sys2Proof

/-! ## One field placed in a word, and one range of bits read from it -/

/-- The range read is the field's own. -/
@[simp] theorem extract_fieldAt_same {n low : Nat} (x : BitVec n) (h : low + n ≤ 32) :
    (fieldAt x low).extractLsb' low n = x := by
  apply BitVec.eq_of_getLsbD_eq
  intro i hi
  simp [fieldAt, hi, show low + i < 32 by omega]

/-- The range read lies above the field. -/
@[simp] theorem extract_fieldAt_above {n low s k : Nat} (x : BitVec n) (h : low + n ≤ s) :
    (fieldAt x low).extractLsb' s k = 0 := by
  apply BitVec.eq_of_getLsbD_eq
  intro i hi
  simp [fieldAt, BitVec.getLsbD_of_ge x (s + i - low) (by omega)]

/-- The range read lies below the field. -/
@[simp] theorem extract_fieldAt_below {n low s k : Nat} (x : BitVec n) (h : s + k ≤ low) :
    (fieldAt x low).extractLsb' s k = 0 := by
  apply BitVec.eq_of_getLsbD_eq
  intro i hi
  simp [fieldAt, show s + i < low by omega]

theorem bit_fieldAt {n low : Nat} (x : BitVec n) (i : Nat) :
    (fieldAt x low).getLsbD i = (decide (i < 32) && decide (low ≤ i) && x.getLsbD (i - low)) := by
  by_cases h : i < 32 <;> by_cases h' : low ≤ i <;> simp [fieldAt, h, h', Nat.not_lt.2, Nat.lt_of_not_le]

/-! ## Format N -/

@[simp] theorem opc_formN (o : BitVec 8) : fieldOpc (formN o) = o := by
  simp [fieldOpc, formN]

@[simp] theorem zero_formN (o : BitVec 8) : zeroN (formN o) = true := by
  simp [zeroN, formN]

/-! ## Format P -/

@[simp] theorem opc_formP (o pin : BitVec 8) (b : BitVec 1) : fieldOpc (formP o pin b) = o := by
  simp [fieldOpc, formP, BitVec.extractLsb'_or]

@[simp] theorem zero_formP (o pin : BitVec 8) (b : BitVec 1) : zeroP (formP o pin b) = true := by
  simp [zeroP, formP, BitVec.extractLsb'_or]

@[simp] theorem pin_formP (o pin : BitVec 8) (b : BitVec 1) : fieldPin (formP o pin b) = pin := by
  simp [fieldPin, formP, BitVec.extractLsb'_or]

@[simp] theorem b_formP (o pin : BitVec 8) (b : BitVec 1) : fieldB (formP o pin b) = b := by
  simp [fieldB, formP, BitVec.extractLsb'_or]

/-! ## Format A -/

@[simp] theorem opc_formA (o : BitVec 8) (ch : BitVec 4) (val : BitVec 12) : fieldOpc (formA o ch val) = o := by
  simp [fieldOpc, formA, BitVec.extractLsb'_or]

@[simp] theorem zero_formA (o : BitVec 8) (ch : BitVec 4) (val : BitVec 12) : zeroA (formA o ch val) = true := by
  simp [zeroA, formA, BitVec.extractLsb'_or]

@[simp] theorem ch_formA (o : BitVec 8) (ch : BitVec 4) (val : BitVec 12) : fieldCh (formA o ch val) = ch := by
  simp [fieldCh, formA, BitVec.extractLsb'_or]

@[simp] theorem val_formA (o : BitVec 8) (ch : BitVec 4) (val : BitVec 12) : fieldVal (formA o ch val) = val := by
  simp [fieldVal, formA, BitVec.extractLsb'_or]

/-! ## Format K -/

@[simp] theorem opc_formK (o : BitVec 8) (ch : BitVec 4) : fieldOpc (formK o ch) = o := by
  simp [fieldOpc, formK, BitVec.extractLsb'_or]

@[simp] theorem zero_formK (o : BitVec 8) (ch : BitVec 4) : zeroK (formK o ch) = true := by
  simp [zeroK, formK, BitVec.extractLsb'_or]

@[simp] theorem ch_formK (o : BitVec 8) (ch : BitVec 4) : fieldCh (formK o ch) = ch := by
  simp [fieldCh, formK, BitVec.extractLsb'_or]

/-! ## Message words -/

@[simp] theorem pin_gpio (pin : BitVec 8) (l : BitVec 1) : fieldPin (encodeMessage (.gpio pin l)) = pin := by
  simp [fieldPin, encodeMessage, BitVec.extractLsb'_or]

@[simp] theorem b_gpio (pin : BitVec 8) (l : BitVec 1) : fieldB (encodeMessage (.gpio pin l)) = l := by
  simp [fieldB, encodeMessage, BitVec.extractLsb'_or]

@[simp] theorem opc_gpio (pin : BitVec 8) (l : BitVec 1) : fieldOpc (encodeMessage (.gpio pin l)) = 0 := by
  simp [fieldOpc, encodeMessage, BitVec.extractLsb'_or]
  decide

@[simp] theorem tag_gpio (pin : BitVec 8) (l : BitVec 1) : (encodeMessage (.gpio pin l)).getLsbD 31 = false := by
  simp only [encodeMessage, BitVec.getLsbD_or, bit_fieldAt]
  simp

@[simp] theorem ch_adc (c : BitVec 4) (v : BitVec 12) : fieldCh (encodeMessage (.adc c v)) = c := by
  simp [fieldCh, encodeMessage, BitVec.extractLsb'_or]

@[simp] theorem val_adc (c : BitVec 4) (v : BitVec 12) : fieldVal (encodeMessage (.adc c v)) = v := by
  simp [fieldVal, encodeMessage, BitVec.extractLsb'_or]

@[simp] theorem opc_adc (c : BitVec 4) (v : BitVec 12) : fieldOpc (encodeMessage (.adc c v)) = 0x80 := by
  simp [fieldOpc, encodeMessage, BitVec.extractLsb'_or]
  decide

@[simp] theorem tag_adc (c : BitVec 4) (v : BitVec 12) : (encodeMessage (.adc c v)).getLsbD 31 = true := by
  simp only [encodeMessage, BitVec.getLsbD_or, bit_fieldAt]
  simp

end Sys2Proof
end

