-- ==== Sys2Proof/Laws/Memory.lean ====
section
/-! SUPPORT. Memory: what a write does to a read, and that every operation keeps the canonical form. -/

namespace Sys2Proof.Machine

theorem readByte_writeByte (m : Memory) (a b : Nat) (v : BitVec 8) :
    (m.writeByte a v).readByte b = if b = a then some v else m.readByte b := by
  induction m with
  | nil => simp [Memory.writeByte, Memory.readByte]
  | cons c rest ih =>
    obtain ⟨d, u⟩ := c
    simp only [Memory.writeByte]
    split
    · simp [Memory.readByte]
    · split
      · subst d; simp only [Memory.readByte]; split <;> simp_all
      · simp only [Memory.readByte, ih]; split <;> split <;> simp_all

@[simp] theorem readByte_writeByte_same (m : Memory) (a : Nat) (v : BitVec 8) :
    (m.writeByte a v).readByte a = some v := by simp [readByte_writeByte]

theorem readByte_writeByte_of_ne (m : Memory) {a b : Nat} (h : b ≠ a) (v : BitVec 8) :
    (m.writeByte a v).readByte b = m.readByte b := by simp [readByte_writeByte, h]

/-- A word write leaves every byte outside its four alone. -/
theorem readByte_writeWord_of_outside (m : Memory) (w : Nat) (v : Word) {a : Nat} (h : a < 4 * w ∨ 4 * w + 4 ≤ a) :
    (m.writeWord w v).readByte a = m.readByte a := by
  unfold Memory.writeWord
  rw [readByte_writeByte_of_ne _ (by omega), readByte_writeByte_of_ne _ (by omega),
    readByte_writeByte_of_ne _ (by omega), readByte_writeByte_of_ne _ (by omega)]

/-- The four bytes of a word, put together again, are the word. -/
theorem bytes_of_word (v : Word) : byteOf v 3 ++ (byteOf v 2 ++ (byteOf v 1 ++ byteOf v 0)) = v := by
  apply BitVec.eq_of_getLsbD_eq
  intro i hi
  simp only [byteOf, BitVec.getLsbD_append, BitVec.getLsbD_extractLsb']
  rcases Nat.lt_or_ge i 8 with h | h
  · simp [h, show i < 8 + 8 by omega, show i < 8 + (8 + 8) by omega]
  · rcases Nat.lt_or_ge i 16 with h' | h'
    · simp [show ¬ i < 8 by omega, show i < 8 + 8 by omega, show i < 8 + (8 + 8) by omega, show i - 8 < 8 by omega,
        show 8 + (i - 8) = i by omega]
    · rcases Nat.lt_or_ge i 24 with h'' | h''
      · simp [show ¬ i < 8 + 8 by omega, show i < 8 + (8 + 8) by omega, show i - 16 < 8 by omega,
          show 16 + (i - 16) = i by omega]
      · simp [show ¬ i < 8 + (8 + 8) by omega, show i - 24 < 8 by omega, show 24 + (i - 24) = i by omega]

/-- A read after a write to the same word gives the value written. -/
@[simp] theorem readWord_writeWord_same (m : Memory) (w : Nat) (v : Word) : (m.writeWord w v).readWord w = some v := by
  have h := bytes_of_word v
  simp [Memory.readWord, Memory.writeWord, readByte_writeByte, h]

/-- A word write leaves every other word alone. -/
theorem readWord_writeWord_of_ne (m : Memory) {w x : Nat} (h : x ≠ w) (v : Word) :
    (m.writeWord w v).readWord x = m.readWord x := by
  unfold Memory.readWord
  rw [readByte_writeWord_of_outside _ _ _ (by omega), readByte_writeWord_of_outside _ _ _ (by omega),
    readByte_writeWord_of_outside _ _ _ (by omega), readByte_writeWord_of_outside _ _ _ (by omega)]

theorem readWord_writeWord (m : Memory) (w x : Nat) (v : Word) :
    (m.writeWord w v).readWord x = if x = w then some v else m.readWord x := by
  split
  · subst x; simp
  · exact readWord_writeWord_of_ne m ‹_› v

/-! ## The canonical form -/

theorem mem_keys_writeByte (m : Memory) (a x : Nat) (v : BitVec 8) :
    x ∈ (m.writeByte a v).map Prod.fst ↔ x = a ∨ x ∈ m.map Prod.fst := by
  induction m with
  | nil => simp [Memory.writeByte]
  | cons c rest ih =>
    obtain ⟨d, u⟩ := c
    simp only [Memory.writeByte]
    split
    · simp
    · split
      · subst d; simp
      · simp only [List.map_cons, List.mem_cons, ih]; tauto

/-- A byte with a value is listed. -/
theorem mem_keys_of_readByte {m : Memory} {a : Nat} (h : m.readByte a ≠ none) : a ∈ m.map Prod.fst := by
  induction m with
  | nil => exact absurd rfl h
  | cons e rest ih =>
    simp only [Memory.readByte] at h
    split at h
    · simp [*]
    · exact List.mem_cons_of_mem _ (ih h)

theorem wf_writeByte {m : Memory} (h : m.wf) (a : Nat) (v : BitVec 8) : (m.writeByte a v).wf := by
  induction m with
  | nil => simp [Memory.wf, Memory.writeByte]
  | cons c rest ih =>
    obtain ⟨d, u⟩ := c
    simp only [Memory.wf, List.map_cons, List.pairwise_cons] at h
    simp only [Memory.writeByte]
    split
    · rename_i hlt
      simp only [Memory.wf, List.map_cons, List.pairwise_cons, List.mem_cons]
      exact ⟨fun x hx => hx.elim (fun e => e ▸ hlt) (fun hm => lt_trans hlt (h.1 x hm)), h⟩
    · split
      · subst d; exact List.pairwise_cons.2 h
      · rename_i h1 h2
        simp only [Memory.wf, List.map_cons, List.pairwise_cons]
        refine ⟨fun x hx => ?_, ih h.2⟩
        rcases (mem_keys_writeByte rest a x v).1 hx with rfl | hm
        · omega
        · exact h.1 x hm

theorem wf_writeWord {m : Memory} (h : m.wf) (w : Nat) (v : Word) : (m.writeWord w v).wf :=
  wf_writeByte (wf_writeByte (wf_writeByte (wf_writeByte h _ _) _ _) _ _) _ _

theorem wf_reset : State.reset.shm.wf := by decide

end Sys2Proof.Machine
end

