-- ==== Sys2Proof/Laws/State.lean ====
section
/-! SUPPORT. What each named update of the state does to each field: one lemma per field per update, so that no later proof
unfolds a record update. -/

namespace Sys2Proof.Machine

/-! ## `setTmrFlag` -/

@[simp] theorem setTmrFlag_params (s : State) (v : Bool) : (s.setTmrFlag v).params = s.params := rfl
@[simp] theorem setTmrFlag_pending (s : State) (v : Bool) : (s.setTmrFlag v).pending = s.pending := rfl
@[simp] theorem setTmrFlag_tick (s : State) (v : Bool) : (s.setTmrFlag v).tick = s.tick := rfl
@[simp] theorem setTmrFlag_shm (s : State) (v : Bool) : (s.setTmrFlag v).shm = s.shm := rfl
@[simp] theorem setTmrFlag_staleHost (s : State) (v : Bool) : (s.setTmrFlag v).staleHost = s.staleHost := rfl
@[simp] theorem setTmrFlag_staleRtu (s : State) (v : Bool) : (s.setTmrFlag v).staleRtu = s.staleRtu := rfl
@[simp] theorem setTmrFlag_gpioOe (s : State) (v : Bool) : (s.setTmrFlag v).gpioOe = s.gpioOe := rfl
@[simp] theorem setTmrFlag_gpioDatain (s : State) (v : Bool) : (s.setTmrFlag v).gpioDatain = s.gpioDatain := rfl
@[simp] theorem setTmrFlag_gpioDataout (s : State) (v : Bool) : (s.setTmrFlag v).gpioDataout = s.gpioDataout := rfl
@[simp] theorem setTmrFlag_seq (s : State) (v : Bool) : (s.setTmrFlag v).seq = s.seq := rfl
@[simp] theorem setTmrFlag_muxPos (s : State) (v : Bool) : (s.setTmrFlag v).muxPos = s.muxPos := rfl
@[simp] theorem setTmrFlag_msg (s : State) (v : Bool) : (s.setTmrFlag v).msg = s.msg := rfl
@[simp] theorem setTmrFlag_repPend (s : State) (v : Bool) : (s.setTmrFlag v).repPend = s.repPend := rfl
@[simp] theorem setTmrFlag_repCh (s : State) (v : Bool) : (s.setTmrFlag v).repCh = s.repCh := rfl
@[simp] theorem setTmrFlag_repVal (s : State) (v : Bool) : (s.setTmrFlag v).repVal = s.repVal := rfl
@[simp] theorem setTmrFlag_repPin (s : State) (v : Bool) : (s.setTmrFlag v).repPin = s.repPin := rfl
@[simp] theorem setTmrFlag_repLvl (s : State) (v : Bool) : (s.setTmrFlag v).repLvl = s.repLvl := rfl
@[simp] theorem setTmrFlag_curCh (s : State) (v : Bool) : (s.setTmrFlag v).curCh = s.curCh := rfl
@[simp] theorem setTmrFlag_curRaw (s : State) (v : Bool) : (s.setTmrFlag v).curRaw = s.curRaw := rfl
@[simp] theorem setTmrFlag_curValid (s : State) (v : Bool) : (s.setTmrFlag v).curValid = s.curValid := rfl
@[simp] theorem setTmrFlag_curStage (s : State) (v : Bool) : (s.setTmrFlag v).curStage = s.curStage := rfl
@[simp] theorem setTmrFlag_wstep (s : State) (v : Bool) : (s.setTmrFlag v).wstep = s.wstep := rfl
@[simp] theorem setTmrFlag_whead (s : State) (v : Bool) : (s.setTmrFlag v).whead = s.whead := rfl
@[simp] theorem setTmrFlag_wtail (s : State) (v : Bool) : (s.setTmrFlag v).wtail = s.wtail := rfl
@[simp] theorem setTmrFlag_phase (s : State) (v : Bool) : (s.setTmrFlag v).phase = s.phase := rfl
@[simp] theorem setTmrFlag_gidx (s : State) (v : Bool) : (s.setTmrFlag v).gidx = s.gidx := rfl
@[simp] theorem setTmrFlag_adcEn (s : State) (v : Bool) : (s.setTmrFlag v).adcEn = s.adcEn := rfl
@[simp] theorem setTmrFlag_adcBuf (s : State) (v : Bool) : (s.setTmrFlag v).adcBuf = s.adcBuf := rfl
@[simp] theorem setTmrFlag_adcLast (s : State) (v : Bool) : (s.setTmrFlag v).adcLast = s.adcLast := rfl
@[simp] theorem setTmrFlag_gpioTab (s : State) (v : Bool) : (s.setTmrFlag v).gpioTab = s.gpioTab := rfl
@[simp] theorem setTmrFlag_adcFifo (s : State) (v : Bool) : (s.setTmrFlag v).adcFifo = s.adcFifo := rfl
@[simp] theorem setTmrFlag_adcPend (s : State) (v : Bool) : (s.setTmrFlag v).adcPend = s.adcPend := rfl
@[simp] theorem setTmrFlag_adcNext (s : State) (v : Bool) : (s.setTmrFlag v).adcNext = s.adcNext := rfl
@[simp] theorem setTmrFlag_tmrFlag (s : State) (v : Bool) : (s.setTmrFlag v).tmrFlag = v := rfl
@[simp] theorem setTmrFlag_hregPin (s : State) (v : Bool) : (s.setTmrFlag v).hregPin = s.hregPin := rfl
@[simp] theorem setTmrFlag_hregAdc (s : State) (v : Bool) : (s.setTmrFlag v).hregAdc = s.hregAdc := rfl
@[simp] theorem setTmrFlag_hmapped (s : State) (v : Bool) : (s.setTmrFlag v).hmapped = s.hmapped := rfl
@[simp] theorem setTmrFlag_hstatus (s : State) (v : Bool) : (s.setTmrFlag v).hstatus = s.hstatus := rfl
@[simp] theorem setTmrFlag_rdata (s : State) (v : Bool) : (s.setTmrFlag v).rdata = s.rdata := rfl
@[simp] theorem setTmrFlag_rdataW (s : State) (v : Bool) : (s.setTmrFlag v).rdataW = s.rdataW := rfl
@[simp] theorem setTmrFlag_rvalid (s : State) (v : Bool) : (s.setTmrFlag v).rvalid = s.rvalid := rfl
@[simp] theorem setTmrFlag_rstep (s : State) (v : Bool) : (s.setTmrFlag v).rstep = s.rstep := rfl
@[simp] theorem setTmrFlag_rhead (s : State) (v : Bool) : (s.setTmrFlag v).rhead = s.rhead := rfl
@[simp] theorem setTmrFlag_decKind (s : State) (v : Bool) : (s.setTmrFlag v).decKind = s.decKind := rfl
@[simp] theorem setTmrFlag_decPin (s : State) (v : Bool) : (s.setTmrFlag v).decPin = s.decPin := rfl
@[simp] theorem setTmrFlag_decLvl (s : State) (v : Bool) : (s.setTmrFlag v).decLvl = s.decLvl := rfl
@[simp] theorem setTmrFlag_decCh (s : State) (v : Bool) : (s.setTmrFlag v).decCh = s.decCh := rfl
@[simp] theorem setTmrFlag_decVal (s : State) (v : Bool) : (s.setTmrFlag v).decVal = s.decVal := rfl
@[simp] theorem setTmrFlag_faults (s : State) (v : Bool) : (s.setTmrFlag v).faults = s.faults := rfl
@[simp] theorem setTmrFlag_refused (s : State) (v : Bool) : (s.setTmrFlag v).refused = s.refused := rfl

/-! ## `setCurValid` -/

@[simp] theorem setCurValid_params (s : State) (v : Bool) : (s.setCurValid v).params = s.params := rfl
@[simp] theorem setCurValid_pending (s : State) (v : Bool) : (s.setCurValid v).pending = s.pending := rfl
@[simp] theorem setCurValid_tick (s : State) (v : Bool) : (s.setCurValid v).tick = s.tick := rfl
@[simp] theorem setCurValid_shm (s : State) (v : Bool) : (s.setCurValid v).shm = s.shm := rfl
@[simp] theorem setCurValid_staleHost (s : State) (v : Bool) : (s.setCurValid v).staleHost = s.staleHost := rfl
@[simp] theorem setCurValid_staleRtu (s : State) (v : Bool) : (s.setCurValid v).staleRtu = s.staleRtu := rfl
@[simp] theorem setCurValid_gpioOe (s : State) (v : Bool) : (s.setCurValid v).gpioOe = s.gpioOe := rfl
@[simp] theorem setCurValid_gpioDatain (s : State) (v : Bool) : (s.setCurValid v).gpioDatain = s.gpioDatain := rfl
@[simp] theorem setCurValid_gpioDataout (s : State) (v : Bool) : (s.setCurValid v).gpioDataout = s.gpioDataout := rfl
@[simp] theorem setCurValid_seq (s : State) (v : Bool) : (s.setCurValid v).seq = s.seq := rfl
@[simp] theorem setCurValid_muxPos (s : State) (v : Bool) : (s.setCurValid v).muxPos = s.muxPos := rfl
@[simp] theorem setCurValid_msg (s : State) (v : Bool) : (s.setCurValid v).msg = s.msg := rfl
@[simp] theorem setCurValid_repPend (s : State) (v : Bool) : (s.setCurValid v).repPend = s.repPend := rfl
@[simp] theorem setCurValid_repCh (s : State) (v : Bool) : (s.setCurValid v).repCh = s.repCh := rfl
@[simp] theorem setCurValid_repVal (s : State) (v : Bool) : (s.setCurValid v).repVal = s.repVal := rfl
@[simp] theorem setCurValid_repPin (s : State) (v : Bool) : (s.setCurValid v).repPin = s.repPin := rfl
@[simp] theorem setCurValid_repLvl (s : State) (v : Bool) : (s.setCurValid v).repLvl = s.repLvl := rfl
@[simp] theorem setCurValid_curCh (s : State) (v : Bool) : (s.setCurValid v).curCh = s.curCh := rfl
@[simp] theorem setCurValid_curRaw (s : State) (v : Bool) : (s.setCurValid v).curRaw = s.curRaw := rfl
@[simp] theorem setCurValid_curValid (s : State) (v : Bool) : (s.setCurValid v).curValid = v := rfl
@[simp] theorem setCurValid_curStage (s : State) (v : Bool) : (s.setCurValid v).curStage = s.curStage := rfl
@[simp] theorem setCurValid_wstep (s : State) (v : Bool) : (s.setCurValid v).wstep = s.wstep := rfl
@[simp] theorem setCurValid_whead (s : State) (v : Bool) : (s.setCurValid v).whead = s.whead := rfl
@[simp] theorem setCurValid_wtail (s : State) (v : Bool) : (s.setCurValid v).wtail = s.wtail := rfl
@[simp] theorem setCurValid_phase (s : State) (v : Bool) : (s.setCurValid v).phase = s.phase := rfl
@[simp] theorem setCurValid_gidx (s : State) (v : Bool) : (s.setCurValid v).gidx = s.gidx := rfl
@[simp] theorem setCurValid_adcEn (s : State) (v : Bool) : (s.setCurValid v).adcEn = s.adcEn := rfl
@[simp] theorem setCurValid_adcBuf (s : State) (v : Bool) : (s.setCurValid v).adcBuf = s.adcBuf := rfl
@[simp] theorem setCurValid_adcLast (s : State) (v : Bool) : (s.setCurValid v).adcLast = s.adcLast := rfl
@[simp] theorem setCurValid_gpioTab (s : State) (v : Bool) : (s.setCurValid v).gpioTab = s.gpioTab := rfl
@[simp] theorem setCurValid_adcFifo (s : State) (v : Bool) : (s.setCurValid v).adcFifo = s.adcFifo := rfl
@[simp] theorem setCurValid_adcPend (s : State) (v : Bool) : (s.setCurValid v).adcPend = s.adcPend := rfl
@[simp] theorem setCurValid_adcNext (s : State) (v : Bool) : (s.setCurValid v).adcNext = s.adcNext := rfl
@[simp] theorem setCurValid_tmrFlag (s : State) (v : Bool) : (s.setCurValid v).tmrFlag = s.tmrFlag := rfl
@[simp] theorem setCurValid_hregPin (s : State) (v : Bool) : (s.setCurValid v).hregPin = s.hregPin := rfl
@[simp] theorem setCurValid_hregAdc (s : State) (v : Bool) : (s.setCurValid v).hregAdc = s.hregAdc := rfl
@[simp] theorem setCurValid_hmapped (s : State) (v : Bool) : (s.setCurValid v).hmapped = s.hmapped := rfl
@[simp] theorem setCurValid_hstatus (s : State) (v : Bool) : (s.setCurValid v).hstatus = s.hstatus := rfl
@[simp] theorem setCurValid_rdata (s : State) (v : Bool) : (s.setCurValid v).rdata = s.rdata := rfl
@[simp] theorem setCurValid_rdataW (s : State) (v : Bool) : (s.setCurValid v).rdataW = s.rdataW := rfl
@[simp] theorem setCurValid_rvalid (s : State) (v : Bool) : (s.setCurValid v).rvalid = s.rvalid := rfl
@[simp] theorem setCurValid_rstep (s : State) (v : Bool) : (s.setCurValid v).rstep = s.rstep := rfl
@[simp] theorem setCurValid_rhead (s : State) (v : Bool) : (s.setCurValid v).rhead = s.rhead := rfl
@[simp] theorem setCurValid_decKind (s : State) (v : Bool) : (s.setCurValid v).decKind = s.decKind := rfl
@[simp] theorem setCurValid_decPin (s : State) (v : Bool) : (s.setCurValid v).decPin = s.decPin := rfl
@[simp] theorem setCurValid_decLvl (s : State) (v : Bool) : (s.setCurValid v).decLvl = s.decLvl := rfl
@[simp] theorem setCurValid_decCh (s : State) (v : Bool) : (s.setCurValid v).decCh = s.decCh := rfl
@[simp] theorem setCurValid_decVal (s : State) (v : Bool) : (s.setCurValid v).decVal = s.decVal := rfl
@[simp] theorem setCurValid_faults (s : State) (v : Bool) : (s.setCurValid v).faults = s.faults := rfl
@[simp] theorem setCurValid_refused (s : State) (v : Bool) : (s.setCurValid v).refused = s.refused := rfl

/-! ## `setRvalid` -/

@[simp] theorem setRvalid_params (s : State) (v : Bool) : (s.setRvalid v).params = s.params := rfl
@[simp] theorem setRvalid_pending (s : State) (v : Bool) : (s.setRvalid v).pending = s.pending := rfl
@[simp] theorem setRvalid_tick (s : State) (v : Bool) : (s.setRvalid v).tick = s.tick := rfl
@[simp] theorem setRvalid_shm (s : State) (v : Bool) : (s.setRvalid v).shm = s.shm := rfl
@[simp] theorem setRvalid_staleHost (s : State) (v : Bool) : (s.setRvalid v).staleHost = s.staleHost := rfl
@[simp] theorem setRvalid_staleRtu (s : State) (v : Bool) : (s.setRvalid v).staleRtu = s.staleRtu := rfl
@[simp] theorem setRvalid_gpioOe (s : State) (v : Bool) : (s.setRvalid v).gpioOe = s.gpioOe := rfl
@[simp] theorem setRvalid_gpioDatain (s : State) (v : Bool) : (s.setRvalid v).gpioDatain = s.gpioDatain := rfl
@[simp] theorem setRvalid_gpioDataout (s : State) (v : Bool) : (s.setRvalid v).gpioDataout = s.gpioDataout := rfl
@[simp] theorem setRvalid_seq (s : State) (v : Bool) : (s.setRvalid v).seq = s.seq := rfl
@[simp] theorem setRvalid_muxPos (s : State) (v : Bool) : (s.setRvalid v).muxPos = s.muxPos := rfl
@[simp] theorem setRvalid_msg (s : State) (v : Bool) : (s.setRvalid v).msg = s.msg := rfl
@[simp] theorem setRvalid_repPend (s : State) (v : Bool) : (s.setRvalid v).repPend = s.repPend := rfl
@[simp] theorem setRvalid_repCh (s : State) (v : Bool) : (s.setRvalid v).repCh = s.repCh := rfl
@[simp] theorem setRvalid_repVal (s : State) (v : Bool) : (s.setRvalid v).repVal = s.repVal := rfl
@[simp] theorem setRvalid_repPin (s : State) (v : Bool) : (s.setRvalid v).repPin = s.repPin := rfl
@[simp] theorem setRvalid_repLvl (s : State) (v : Bool) : (s.setRvalid v).repLvl = s.repLvl := rfl
@[simp] theorem setRvalid_curCh (s : State) (v : Bool) : (s.setRvalid v).curCh = s.curCh := rfl
@[simp] theorem setRvalid_curRaw (s : State) (v : Bool) : (s.setRvalid v).curRaw = s.curRaw := rfl
@[simp] theorem setRvalid_curValid (s : State) (v : Bool) : (s.setRvalid v).curValid = s.curValid := rfl
@[simp] theorem setRvalid_curStage (s : State) (v : Bool) : (s.setRvalid v).curStage = s.curStage := rfl
@[simp] theorem setRvalid_wstep (s : State) (v : Bool) : (s.setRvalid v).wstep = s.wstep := rfl
@[simp] theorem setRvalid_whead (s : State) (v : Bool) : (s.setRvalid v).whead = s.whead := rfl
@[simp] theorem setRvalid_wtail (s : State) (v : Bool) : (s.setRvalid v).wtail = s.wtail := rfl
@[simp] theorem setRvalid_phase (s : State) (v : Bool) : (s.setRvalid v).phase = s.phase := rfl
@[simp] theorem setRvalid_gidx (s : State) (v : Bool) : (s.setRvalid v).gidx = s.gidx := rfl
@[simp] theorem setRvalid_adcEn (s : State) (v : Bool) : (s.setRvalid v).adcEn = s.adcEn := rfl
@[simp] theorem setRvalid_adcBuf (s : State) (v : Bool) : (s.setRvalid v).adcBuf = s.adcBuf := rfl
@[simp] theorem setRvalid_adcLast (s : State) (v : Bool) : (s.setRvalid v).adcLast = s.adcLast := rfl
@[simp] theorem setRvalid_gpioTab (s : State) (v : Bool) : (s.setRvalid v).gpioTab = s.gpioTab := rfl
@[simp] theorem setRvalid_adcFifo (s : State) (v : Bool) : (s.setRvalid v).adcFifo = s.adcFifo := rfl
@[simp] theorem setRvalid_adcPend (s : State) (v : Bool) : (s.setRvalid v).adcPend = s.adcPend := rfl
@[simp] theorem setRvalid_adcNext (s : State) (v : Bool) : (s.setRvalid v).adcNext = s.adcNext := rfl
@[simp] theorem setRvalid_tmrFlag (s : State) (v : Bool) : (s.setRvalid v).tmrFlag = s.tmrFlag := rfl
@[simp] theorem setRvalid_hregPin (s : State) (v : Bool) : (s.setRvalid v).hregPin = s.hregPin := rfl
@[simp] theorem setRvalid_hregAdc (s : State) (v : Bool) : (s.setRvalid v).hregAdc = s.hregAdc := rfl
@[simp] theorem setRvalid_hmapped (s : State) (v : Bool) : (s.setRvalid v).hmapped = s.hmapped := rfl
@[simp] theorem setRvalid_hstatus (s : State) (v : Bool) : (s.setRvalid v).hstatus = s.hstatus := rfl
@[simp] theorem setRvalid_rdata (s : State) (v : Bool) : (s.setRvalid v).rdata = s.rdata := rfl
@[simp] theorem setRvalid_rdataW (s : State) (v : Bool) : (s.setRvalid v).rdataW = s.rdataW := rfl
@[simp] theorem setRvalid_rvalid (s : State) (v : Bool) : (s.setRvalid v).rvalid = v := rfl
@[simp] theorem setRvalid_rstep (s : State) (v : Bool) : (s.setRvalid v).rstep = s.rstep := rfl
@[simp] theorem setRvalid_rhead (s : State) (v : Bool) : (s.setRvalid v).rhead = s.rhead := rfl
@[simp] theorem setRvalid_decKind (s : State) (v : Bool) : (s.setRvalid v).decKind = s.decKind := rfl
@[simp] theorem setRvalid_decPin (s : State) (v : Bool) : (s.setRvalid v).decPin = s.decPin := rfl
@[simp] theorem setRvalid_decLvl (s : State) (v : Bool) : (s.setRvalid v).decLvl = s.decLvl := rfl
@[simp] theorem setRvalid_decCh (s : State) (v : Bool) : (s.setRvalid v).decCh = s.decCh := rfl
@[simp] theorem setRvalid_decVal (s : State) (v : Bool) : (s.setRvalid v).decVal = s.decVal := rfl
@[simp] theorem setRvalid_faults (s : State) (v : Bool) : (s.setRvalid v).faults = s.faults := rfl
@[simp] theorem setRvalid_refused (s : State) (v : Bool) : (s.setRvalid v).refused = s.refused := rfl

/-! ## `setStatus` -/

@[simp] theorem setStatus_params (s : State) (v : HStatus) : (s.setStatus v).params = s.params := rfl
@[simp] theorem setStatus_pending (s : State) (v : HStatus) : (s.setStatus v).pending = s.pending := rfl
@[simp] theorem setStatus_tick (s : State) (v : HStatus) : (s.setStatus v).tick = s.tick := rfl
@[simp] theorem setStatus_shm (s : State) (v : HStatus) : (s.setStatus v).shm = s.shm := rfl
@[simp] theorem setStatus_staleHost (s : State) (v : HStatus) : (s.setStatus v).staleHost = s.staleHost := rfl
@[simp] theorem setStatus_staleRtu (s : State) (v : HStatus) : (s.setStatus v).staleRtu = s.staleRtu := rfl
@[simp] theorem setStatus_gpioOe (s : State) (v : HStatus) : (s.setStatus v).gpioOe = s.gpioOe := rfl
@[simp] theorem setStatus_gpioDatain (s : State) (v : HStatus) : (s.setStatus v).gpioDatain = s.gpioDatain := rfl
@[simp] theorem setStatus_gpioDataout (s : State) (v : HStatus) : (s.setStatus v).gpioDataout = s.gpioDataout := rfl
@[simp] theorem setStatus_seq (s : State) (v : HStatus) : (s.setStatus v).seq = s.seq := rfl
@[simp] theorem setStatus_muxPos (s : State) (v : HStatus) : (s.setStatus v).muxPos = s.muxPos := rfl
@[simp] theorem setStatus_msg (s : State) (v : HStatus) : (s.setStatus v).msg = s.msg := rfl
@[simp] theorem setStatus_repPend (s : State) (v : HStatus) : (s.setStatus v).repPend = s.repPend := rfl
@[simp] theorem setStatus_repCh (s : State) (v : HStatus) : (s.setStatus v).repCh = s.repCh := rfl
@[simp] theorem setStatus_repVal (s : State) (v : HStatus) : (s.setStatus v).repVal = s.repVal := rfl
@[simp] theorem setStatus_repPin (s : State) (v : HStatus) : (s.setStatus v).repPin = s.repPin := rfl
@[simp] theorem setStatus_repLvl (s : State) (v : HStatus) : (s.setStatus v).repLvl = s.repLvl := rfl
@[simp] theorem setStatus_curCh (s : State) (v : HStatus) : (s.setStatus v).curCh = s.curCh := rfl
@[simp] theorem setStatus_curRaw (s : State) (v : HStatus) : (s.setStatus v).curRaw = s.curRaw := rfl
@[simp] theorem setStatus_curValid (s : State) (v : HStatus) : (s.setStatus v).curValid = s.curValid := rfl
@[simp] theorem setStatus_curStage (s : State) (v : HStatus) : (s.setStatus v).curStage = s.curStage := rfl
@[simp] theorem setStatus_wstep (s : State) (v : HStatus) : (s.setStatus v).wstep = s.wstep := rfl
@[simp] theorem setStatus_whead (s : State) (v : HStatus) : (s.setStatus v).whead = s.whead := rfl
@[simp] theorem setStatus_wtail (s : State) (v : HStatus) : (s.setStatus v).wtail = s.wtail := rfl
@[simp] theorem setStatus_phase (s : State) (v : HStatus) : (s.setStatus v).phase = s.phase := rfl
@[simp] theorem setStatus_gidx (s : State) (v : HStatus) : (s.setStatus v).gidx = s.gidx := rfl
@[simp] theorem setStatus_adcEn (s : State) (v : HStatus) : (s.setStatus v).adcEn = s.adcEn := rfl
@[simp] theorem setStatus_adcBuf (s : State) (v : HStatus) : (s.setStatus v).adcBuf = s.adcBuf := rfl
@[simp] theorem setStatus_adcLast (s : State) (v : HStatus) : (s.setStatus v).adcLast = s.adcLast := rfl
@[simp] theorem setStatus_gpioTab (s : State) (v : HStatus) : (s.setStatus v).gpioTab = s.gpioTab := rfl
@[simp] theorem setStatus_adcFifo (s : State) (v : HStatus) : (s.setStatus v).adcFifo = s.adcFifo := rfl
@[simp] theorem setStatus_adcPend (s : State) (v : HStatus) : (s.setStatus v).adcPend = s.adcPend := rfl
@[simp] theorem setStatus_adcNext (s : State) (v : HStatus) : (s.setStatus v).adcNext = s.adcNext := rfl
@[simp] theorem setStatus_tmrFlag (s : State) (v : HStatus) : (s.setStatus v).tmrFlag = s.tmrFlag := rfl
@[simp] theorem setStatus_hregPin (s : State) (v : HStatus) : (s.setStatus v).hregPin = s.hregPin := rfl
@[simp] theorem setStatus_hregAdc (s : State) (v : HStatus) : (s.setStatus v).hregAdc = s.hregAdc := rfl
@[simp] theorem setStatus_hmapped (s : State) (v : HStatus) : (s.setStatus v).hmapped = s.hmapped := rfl
@[simp] theorem setStatus_hstatus (s : State) (v : HStatus) : (s.setStatus v).hstatus = v := rfl
@[simp] theorem setStatus_rdata (s : State) (v : HStatus) : (s.setStatus v).rdata = s.rdata := rfl
@[simp] theorem setStatus_rdataW (s : State) (v : HStatus) : (s.setStatus v).rdataW = s.rdataW := rfl
@[simp] theorem setStatus_rvalid (s : State) (v : HStatus) : (s.setStatus v).rvalid = s.rvalid := rfl
@[simp] theorem setStatus_rstep (s : State) (v : HStatus) : (s.setStatus v).rstep = s.rstep := rfl
@[simp] theorem setStatus_rhead (s : State) (v : HStatus) : (s.setStatus v).rhead = s.rhead := rfl
@[simp] theorem setStatus_decKind (s : State) (v : HStatus) : (s.setStatus v).decKind = s.decKind := rfl
@[simp] theorem setStatus_decPin (s : State) (v : HStatus) : (s.setStatus v).decPin = s.decPin := rfl
@[simp] theorem setStatus_decLvl (s : State) (v : HStatus) : (s.setStatus v).decLvl = s.decLvl := rfl
@[simp] theorem setStatus_decCh (s : State) (v : HStatus) : (s.setStatus v).decCh = s.decCh := rfl
@[simp] theorem setStatus_decVal (s : State) (v : HStatus) : (s.setStatus v).decVal = s.decVal := rfl
@[simp] theorem setStatus_faults (s : State) (v : HStatus) : (s.setStatus v).faults = s.faults := rfl
@[simp] theorem setStatus_refused (s : State) (v : HStatus) : (s.setStatus v).refused = s.refused := rfl

/-! ## `reportAdc` -/

@[simp] theorem reportAdc_params (s : State) (c : BitVec 4) (v : BitVec 12) : (s.reportAdc c v).params = s.params := rfl
@[simp] theorem reportAdc_pending (s : State) (c : BitVec 4) (v : BitVec 12) : (s.reportAdc c v).pending = s.pending := rfl
@[simp] theorem reportAdc_tick (s : State) (c : BitVec 4) (v : BitVec 12) : (s.reportAdc c v).tick = s.tick := rfl
@[simp] theorem reportAdc_shm (s : State) (c : BitVec 4) (v : BitVec 12) : (s.reportAdc c v).shm = s.shm := rfl
@[simp] theorem reportAdc_staleHost (s : State) (c : BitVec 4) (v : BitVec 12) : (s.reportAdc c v).staleHost = s.staleHost := rfl
@[simp] theorem reportAdc_staleRtu (s : State) (c : BitVec 4) (v : BitVec 12) : (s.reportAdc c v).staleRtu = s.staleRtu := rfl
@[simp] theorem reportAdc_gpioOe (s : State) (c : BitVec 4) (v : BitVec 12) : (s.reportAdc c v).gpioOe = s.gpioOe := rfl
@[simp] theorem reportAdc_gpioDatain (s : State) (c : BitVec 4) (v : BitVec 12) : (s.reportAdc c v).gpioDatain = s.gpioDatain := rfl
@[simp] theorem reportAdc_gpioDataout (s : State) (c : BitVec 4) (v : BitVec 12) : (s.reportAdc c v).gpioDataout = s.gpioDataout := rfl
@[simp] theorem reportAdc_seq (s : State) (c : BitVec 4) (v : BitVec 12) : (s.reportAdc c v).seq = s.seq := rfl
@[simp] theorem reportAdc_muxPos (s : State) (c : BitVec 4) (v : BitVec 12) : (s.reportAdc c v).muxPos = s.muxPos := rfl
@[simp] theorem reportAdc_msg (s : State) (c : BitVec 4) (v : BitVec 12) : (s.reportAdc c v).msg = s.msg := rfl
@[simp] theorem reportAdc_repPend (s : State) (c : BitVec 4) (v : BitVec 12) : (s.reportAdc c v).repPend = .adc := rfl
@[simp] theorem reportAdc_repCh (s : State) (c : BitVec 4) (v : BitVec 12) : (s.reportAdc c v).repCh = c := rfl
@[simp] theorem reportAdc_repVal (s : State) (c : BitVec 4) (v : BitVec 12) : (s.reportAdc c v).repVal = v := rfl
@[simp] theorem reportAdc_repPin (s : State) (c : BitVec 4) (v : BitVec 12) : (s.reportAdc c v).repPin = s.repPin := rfl
@[simp] theorem reportAdc_repLvl (s : State) (c : BitVec 4) (v : BitVec 12) : (s.reportAdc c v).repLvl = s.repLvl := rfl
@[simp] theorem reportAdc_curCh (s : State) (c : BitVec 4) (v : BitVec 12) : (s.reportAdc c v).curCh = s.curCh := rfl
@[simp] theorem reportAdc_curRaw (s : State) (c : BitVec 4) (v : BitVec 12) : (s.reportAdc c v).curRaw = s.curRaw := rfl
@[simp] theorem reportAdc_curValid (s : State) (c : BitVec 4) (v : BitVec 12) : (s.reportAdc c v).curValid = s.curValid := rfl
@[simp] theorem reportAdc_curStage (s : State) (c : BitVec 4) (v : BitVec 12) : (s.reportAdc c v).curStage = s.curStage := rfl
@[simp] theorem reportAdc_wstep (s : State) (c : BitVec 4) (v : BitVec 12) : (s.reportAdc c v).wstep = s.wstep := rfl
@[simp] theorem reportAdc_whead (s : State) (c : BitVec 4) (v : BitVec 12) : (s.reportAdc c v).whead = s.whead := rfl
@[simp] theorem reportAdc_wtail (s : State) (c : BitVec 4) (v : BitVec 12) : (s.reportAdc c v).wtail = s.wtail := rfl
@[simp] theorem reportAdc_phase (s : State) (c : BitVec 4) (v : BitVec 12) : (s.reportAdc c v).phase = s.phase := rfl
@[simp] theorem reportAdc_gidx (s : State) (c : BitVec 4) (v : BitVec 12) : (s.reportAdc c v).gidx = s.gidx := rfl
@[simp] theorem reportAdc_adcEn (s : State) (c : BitVec 4) (v : BitVec 12) : (s.reportAdc c v).adcEn = s.adcEn := rfl
@[simp] theorem reportAdc_adcBuf (s : State) (c : BitVec 4) (v : BitVec 12) : (s.reportAdc c v).adcBuf = s.adcBuf := rfl
@[simp] theorem reportAdc_adcLast (s : State) (c : BitVec 4) (v : BitVec 12) : (s.reportAdc c v).adcLast = s.adcLast := rfl
@[simp] theorem reportAdc_gpioTab (s : State) (c : BitVec 4) (v : BitVec 12) : (s.reportAdc c v).gpioTab = s.gpioTab := rfl
@[simp] theorem reportAdc_adcFifo (s : State) (c : BitVec 4) (v : BitVec 12) : (s.reportAdc c v).adcFifo = s.adcFifo := rfl
@[simp] theorem reportAdc_adcPend (s : State) (c : BitVec 4) (v : BitVec 12) : (s.reportAdc c v).adcPend = s.adcPend := rfl
@[simp] theorem reportAdc_adcNext (s : State) (c : BitVec 4) (v : BitVec 12) : (s.reportAdc c v).adcNext = s.adcNext := rfl
@[simp] theorem reportAdc_tmrFlag (s : State) (c : BitVec 4) (v : BitVec 12) : (s.reportAdc c v).tmrFlag = s.tmrFlag := rfl
@[simp] theorem reportAdc_hregPin (s : State) (c : BitVec 4) (v : BitVec 12) : (s.reportAdc c v).hregPin = s.hregPin := rfl
@[simp] theorem reportAdc_hregAdc (s : State) (c : BitVec 4) (v : BitVec 12) : (s.reportAdc c v).hregAdc = s.hregAdc := rfl
@[simp] theorem reportAdc_hmapped (s : State) (c : BitVec 4) (v : BitVec 12) : (s.reportAdc c v).hmapped = s.hmapped := rfl
@[simp] theorem reportAdc_hstatus (s : State) (c : BitVec 4) (v : BitVec 12) : (s.reportAdc c v).hstatus = s.hstatus := rfl
@[simp] theorem reportAdc_rdata (s : State) (c : BitVec 4) (v : BitVec 12) : (s.reportAdc c v).rdata = s.rdata := rfl
@[simp] theorem reportAdc_rdataW (s : State) (c : BitVec 4) (v : BitVec 12) : (s.reportAdc c v).rdataW = s.rdataW := rfl
@[simp] theorem reportAdc_rvalid (s : State) (c : BitVec 4) (v : BitVec 12) : (s.reportAdc c v).rvalid = s.rvalid := rfl
@[simp] theorem reportAdc_rstep (s : State) (c : BitVec 4) (v : BitVec 12) : (s.reportAdc c v).rstep = s.rstep := rfl
@[simp] theorem reportAdc_rhead (s : State) (c : BitVec 4) (v : BitVec 12) : (s.reportAdc c v).rhead = s.rhead := rfl
@[simp] theorem reportAdc_decKind (s : State) (c : BitVec 4) (v : BitVec 12) : (s.reportAdc c v).decKind = s.decKind := rfl
@[simp] theorem reportAdc_decPin (s : State) (c : BitVec 4) (v : BitVec 12) : (s.reportAdc c v).decPin = s.decPin := rfl
@[simp] theorem reportAdc_decLvl (s : State) (c : BitVec 4) (v : BitVec 12) : (s.reportAdc c v).decLvl = s.decLvl := rfl
@[simp] theorem reportAdc_decCh (s : State) (c : BitVec 4) (v : BitVec 12) : (s.reportAdc c v).decCh = s.decCh := rfl
@[simp] theorem reportAdc_decVal (s : State) (c : BitVec 4) (v : BitVec 12) : (s.reportAdc c v).decVal = s.decVal := rfl
@[simp] theorem reportAdc_faults (s : State) (c : BitVec 4) (v : BitVec 12) : (s.reportAdc c v).faults = s.faults := rfl
@[simp] theorem reportAdc_refused (s : State) (c : BitVec 4) (v : BitVec 12) : (s.reportAdc c v).refused = s.refused := rfl

/-! ## `reportGpio` -/

@[simp] theorem reportGpio_params (s : State) (p : BitVec 8) (l : BitVec 1) : (s.reportGpio p l).params = s.params := rfl
@[simp] theorem reportGpio_pending (s : State) (p : BitVec 8) (l : BitVec 1) : (s.reportGpio p l).pending = s.pending := rfl
@[simp] theorem reportGpio_tick (s : State) (p : BitVec 8) (l : BitVec 1) : (s.reportGpio p l).tick = s.tick := rfl
@[simp] theorem reportGpio_shm (s : State) (p : BitVec 8) (l : BitVec 1) : (s.reportGpio p l).shm = s.shm := rfl
@[simp] theorem reportGpio_staleHost (s : State) (p : BitVec 8) (l : BitVec 1) : (s.reportGpio p l).staleHost = s.staleHost := rfl
@[simp] theorem reportGpio_staleRtu (s : State) (p : BitVec 8) (l : BitVec 1) : (s.reportGpio p l).staleRtu = s.staleRtu := rfl
@[simp] theorem reportGpio_gpioOe (s : State) (p : BitVec 8) (l : BitVec 1) : (s.reportGpio p l).gpioOe = s.gpioOe := rfl
@[simp] theorem reportGpio_gpioDatain (s : State) (p : BitVec 8) (l : BitVec 1) : (s.reportGpio p l).gpioDatain = s.gpioDatain := rfl
@[simp] theorem reportGpio_gpioDataout (s : State) (p : BitVec 8) (l : BitVec 1) : (s.reportGpio p l).gpioDataout = s.gpioDataout := rfl
@[simp] theorem reportGpio_seq (s : State) (p : BitVec 8) (l : BitVec 1) : (s.reportGpio p l).seq = s.seq := rfl
@[simp] theorem reportGpio_muxPos (s : State) (p : BitVec 8) (l : BitVec 1) : (s.reportGpio p l).muxPos = s.muxPos := rfl
@[simp] theorem reportGpio_msg (s : State) (p : BitVec 8) (l : BitVec 1) : (s.reportGpio p l).msg = s.msg := rfl
@[simp] theorem reportGpio_repPend (s : State) (p : BitVec 8) (l : BitVec 1) : (s.reportGpio p l).repPend = .gpio := rfl
@[simp] theorem reportGpio_repCh (s : State) (p : BitVec 8) (l : BitVec 1) : (s.reportGpio p l).repCh = s.repCh := rfl
@[simp] theorem reportGpio_repVal (s : State) (p : BitVec 8) (l : BitVec 1) : (s.reportGpio p l).repVal = s.repVal := rfl
@[simp] theorem reportGpio_repPin (s : State) (p : BitVec 8) (l : BitVec 1) : (s.reportGpio p l).repPin = p := rfl
@[simp] theorem reportGpio_repLvl (s : State) (p : BitVec 8) (l : BitVec 1) : (s.reportGpio p l).repLvl = l := rfl
@[simp] theorem reportGpio_curCh (s : State) (p : BitVec 8) (l : BitVec 1) : (s.reportGpio p l).curCh = s.curCh := rfl
@[simp] theorem reportGpio_curRaw (s : State) (p : BitVec 8) (l : BitVec 1) : (s.reportGpio p l).curRaw = s.curRaw := rfl
@[simp] theorem reportGpio_curValid (s : State) (p : BitVec 8) (l : BitVec 1) : (s.reportGpio p l).curValid = s.curValid := rfl
@[simp] theorem reportGpio_curStage (s : State) (p : BitVec 8) (l : BitVec 1) : (s.reportGpio p l).curStage = s.curStage := rfl
@[simp] theorem reportGpio_wstep (s : State) (p : BitVec 8) (l : BitVec 1) : (s.reportGpio p l).wstep = s.wstep := rfl
@[simp] theorem reportGpio_whead (s : State) (p : BitVec 8) (l : BitVec 1) : (s.reportGpio p l).whead = s.whead := rfl
@[simp] theorem reportGpio_wtail (s : State) (p : BitVec 8) (l : BitVec 1) : (s.reportGpio p l).wtail = s.wtail := rfl
@[simp] theorem reportGpio_phase (s : State) (p : BitVec 8) (l : BitVec 1) : (s.reportGpio p l).phase = s.phase := rfl
@[simp] theorem reportGpio_gidx (s : State) (p : BitVec 8) (l : BitVec 1) : (s.reportGpio p l).gidx = s.gidx := rfl
@[simp] theorem reportGpio_adcEn (s : State) (p : BitVec 8) (l : BitVec 1) : (s.reportGpio p l).adcEn = s.adcEn := rfl
@[simp] theorem reportGpio_adcBuf (s : State) (p : BitVec 8) (l : BitVec 1) : (s.reportGpio p l).adcBuf = s.adcBuf := rfl
@[simp] theorem reportGpio_adcLast (s : State) (p : BitVec 8) (l : BitVec 1) : (s.reportGpio p l).adcLast = s.adcLast := rfl
@[simp] theorem reportGpio_gpioTab (s : State) (p : BitVec 8) (l : BitVec 1) : (s.reportGpio p l).gpioTab = s.gpioTab := rfl
@[simp] theorem reportGpio_adcFifo (s : State) (p : BitVec 8) (l : BitVec 1) : (s.reportGpio p l).adcFifo = s.adcFifo := rfl
@[simp] theorem reportGpio_adcPend (s : State) (p : BitVec 8) (l : BitVec 1) : (s.reportGpio p l).adcPend = s.adcPend := rfl
@[simp] theorem reportGpio_adcNext (s : State) (p : BitVec 8) (l : BitVec 1) : (s.reportGpio p l).adcNext = s.adcNext := rfl
@[simp] theorem reportGpio_tmrFlag (s : State) (p : BitVec 8) (l : BitVec 1) : (s.reportGpio p l).tmrFlag = s.tmrFlag := rfl
@[simp] theorem reportGpio_hregPin (s : State) (p : BitVec 8) (l : BitVec 1) : (s.reportGpio p l).hregPin = s.hregPin := rfl
@[simp] theorem reportGpio_hregAdc (s : State) (p : BitVec 8) (l : BitVec 1) : (s.reportGpio p l).hregAdc = s.hregAdc := rfl
@[simp] theorem reportGpio_hmapped (s : State) (p : BitVec 8) (l : BitVec 1) : (s.reportGpio p l).hmapped = s.hmapped := rfl
@[simp] theorem reportGpio_hstatus (s : State) (p : BitVec 8) (l : BitVec 1) : (s.reportGpio p l).hstatus = s.hstatus := rfl
@[simp] theorem reportGpio_rdata (s : State) (p : BitVec 8) (l : BitVec 1) : (s.reportGpio p l).rdata = s.rdata := rfl
@[simp] theorem reportGpio_rdataW (s : State) (p : BitVec 8) (l : BitVec 1) : (s.reportGpio p l).rdataW = s.rdataW := rfl
@[simp] theorem reportGpio_rvalid (s : State) (p : BitVec 8) (l : BitVec 1) : (s.reportGpio p l).rvalid = s.rvalid := rfl
@[simp] theorem reportGpio_rstep (s : State) (p : BitVec 8) (l : BitVec 1) : (s.reportGpio p l).rstep = s.rstep := rfl
@[simp] theorem reportGpio_rhead (s : State) (p : BitVec 8) (l : BitVec 1) : (s.reportGpio p l).rhead = s.rhead := rfl
@[simp] theorem reportGpio_decKind (s : State) (p : BitVec 8) (l : BitVec 1) : (s.reportGpio p l).decKind = s.decKind := rfl
@[simp] theorem reportGpio_decPin (s : State) (p : BitVec 8) (l : BitVec 1) : (s.reportGpio p l).decPin = s.decPin := rfl
@[simp] theorem reportGpio_decLvl (s : State) (p : BitVec 8) (l : BitVec 1) : (s.reportGpio p l).decLvl = s.decLvl := rfl
@[simp] theorem reportGpio_decCh (s : State) (p : BitVec 8) (l : BitVec 1) : (s.reportGpio p l).decCh = s.decCh := rfl
@[simp] theorem reportGpio_decVal (s : State) (p : BitVec 8) (l : BitVec 1) : (s.reportGpio p l).decVal = s.decVal := rfl
@[simp] theorem reportGpio_faults (s : State) (p : BitVec 8) (l : BitVec 1) : (s.reportGpio p l).faults = s.faults := rfl
@[simp] theorem reportGpio_refused (s : State) (p : BitVec 8) (l : BitVec 1) : (s.reportGpio p l).refused = s.refused := rfl

/-! ## `takeFault` -/

@[simp] theorem takeFault_params (s : State) (f : ModelFault) : (takeFault f s).params = s.params := rfl
@[simp] theorem takeFault_pending (s : State) (f : ModelFault) : (takeFault f s).pending = s.pending := rfl
@[simp] theorem takeFault_tick (s : State) (f : ModelFault) : (takeFault f s).tick = s.tick := rfl
@[simp] theorem takeFault_shm (s : State) (f : ModelFault) : (takeFault f s).shm = s.shm := rfl
@[simp] theorem takeFault_staleHost (s : State) (f : ModelFault) : (takeFault f s).staleHost = s.staleHost := rfl
@[simp] theorem takeFault_staleRtu (s : State) (f : ModelFault) : (takeFault f s).staleRtu = s.staleRtu := rfl
@[simp] theorem takeFault_gpioOe (s : State) (f : ModelFault) : (takeFault f s).gpioOe = s.gpioOe := rfl
@[simp] theorem takeFault_gpioDatain (s : State) (f : ModelFault) : (takeFault f s).gpioDatain = s.gpioDatain := rfl
@[simp] theorem takeFault_gpioDataout (s : State) (f : ModelFault) : (takeFault f s).gpioDataout = s.gpioDataout := rfl
@[simp] theorem takeFault_seq (s : State) (f : ModelFault) : (takeFault f s).seq = s.seq := rfl
@[simp] theorem takeFault_muxPos (s : State) (f : ModelFault) : (takeFault f s).muxPos = s.muxPos := rfl
@[simp] theorem takeFault_msg (s : State) (f : ModelFault) : (takeFault f s).msg = s.msg := rfl
@[simp] theorem takeFault_repPend (s : State) (f : ModelFault) : (takeFault f s).repPend = s.repPend := rfl
@[simp] theorem takeFault_repCh (s : State) (f : ModelFault) : (takeFault f s).repCh = s.repCh := rfl
@[simp] theorem takeFault_repVal (s : State) (f : ModelFault) : (takeFault f s).repVal = s.repVal := rfl
@[simp] theorem takeFault_repPin (s : State) (f : ModelFault) : (takeFault f s).repPin = s.repPin := rfl
@[simp] theorem takeFault_repLvl (s : State) (f : ModelFault) : (takeFault f s).repLvl = s.repLvl := rfl
@[simp] theorem takeFault_curCh (s : State) (f : ModelFault) : (takeFault f s).curCh = s.curCh := rfl
@[simp] theorem takeFault_curRaw (s : State) (f : ModelFault) : (takeFault f s).curRaw = s.curRaw := rfl
@[simp] theorem takeFault_curValid (s : State) (f : ModelFault) : (takeFault f s).curValid = s.curValid := rfl
@[simp] theorem takeFault_curStage (s : State) (f : ModelFault) : (takeFault f s).curStage = s.curStage := rfl
@[simp] theorem takeFault_wstep (s : State) (f : ModelFault) : (takeFault f s).wstep = s.wstep := rfl
@[simp] theorem takeFault_whead (s : State) (f : ModelFault) : (takeFault f s).whead = s.whead := rfl
@[simp] theorem takeFault_wtail (s : State) (f : ModelFault) : (takeFault f s).wtail = s.wtail := rfl
@[simp] theorem takeFault_phase (s : State) (f : ModelFault) : (takeFault f s).phase = s.phase := rfl
@[simp] theorem takeFault_gidx (s : State) (f : ModelFault) : (takeFault f s).gidx = s.gidx := rfl
@[simp] theorem takeFault_adcEn (s : State) (f : ModelFault) : (takeFault f s).adcEn = s.adcEn := rfl
@[simp] theorem takeFault_adcBuf (s : State) (f : ModelFault) : (takeFault f s).adcBuf = s.adcBuf := rfl
@[simp] theorem takeFault_adcLast (s : State) (f : ModelFault) : (takeFault f s).adcLast = s.adcLast := rfl
@[simp] theorem takeFault_gpioTab (s : State) (f : ModelFault) : (takeFault f s).gpioTab = s.gpioTab := rfl
@[simp] theorem takeFault_adcFifo (s : State) (f : ModelFault) : (takeFault f s).adcFifo = s.adcFifo := rfl
@[simp] theorem takeFault_adcPend (s : State) (f : ModelFault) : (takeFault f s).adcPend = s.adcPend := rfl
@[simp] theorem takeFault_adcNext (s : State) (f : ModelFault) : (takeFault f s).adcNext = s.adcNext := rfl
@[simp] theorem takeFault_tmrFlag (s : State) (f : ModelFault) : (takeFault f s).tmrFlag = s.tmrFlag := rfl
@[simp] theorem takeFault_hregPin (s : State) (f : ModelFault) : (takeFault f s).hregPin = s.hregPin := rfl
@[simp] theorem takeFault_hregAdc (s : State) (f : ModelFault) : (takeFault f s).hregAdc = s.hregAdc := rfl
@[simp] theorem takeFault_hmapped (s : State) (f : ModelFault) : (takeFault f s).hmapped = s.hmapped := rfl
@[simp] theorem takeFault_hstatus (s : State) (f : ModelFault) : (takeFault f s).hstatus = s.hstatus := rfl
@[simp] theorem takeFault_rdata (s : State) (f : ModelFault) : (takeFault f s).rdata = s.rdata := rfl
@[simp] theorem takeFault_rdataW (s : State) (f : ModelFault) : (takeFault f s).rdataW = s.rdataW := rfl
@[simp] theorem takeFault_rvalid (s : State) (f : ModelFault) : (takeFault f s).rvalid = s.rvalid := rfl
@[simp] theorem takeFault_rstep (s : State) (f : ModelFault) : (takeFault f s).rstep = s.rstep := rfl
@[simp] theorem takeFault_rhead (s : State) (f : ModelFault) : (takeFault f s).rhead = s.rhead := rfl
@[simp] theorem takeFault_decKind (s : State) (f : ModelFault) : (takeFault f s).decKind = s.decKind := rfl
@[simp] theorem takeFault_decPin (s : State) (f : ModelFault) : (takeFault f s).decPin = s.decPin := rfl
@[simp] theorem takeFault_decLvl (s : State) (f : ModelFault) : (takeFault f s).decLvl = s.decLvl := rfl
@[simp] theorem takeFault_decCh (s : State) (f : ModelFault) : (takeFault f s).decCh = s.decCh := rfl
@[simp] theorem takeFault_decVal (s : State) (f : ModelFault) : (takeFault f s).decVal = s.decVal := rfl
@[simp] theorem takeFault_faults (s : State) (f : ModelFault) : (takeFault f s).faults = if f ∈ s.faults then s.faults else s.faults ++ [f] := rfl
@[simp] theorem takeFault_refused (s : State) (f : ModelFault) : (takeFault f s).refused = s.refused := rfl

/-! ## `takeRefusal` -/

@[simp] theorem takeRefusal_params (s : State) : (takeRefusal s).params = s.params := rfl
@[simp] theorem takeRefusal_pending (s : State) : (takeRefusal s).pending = s.pending := rfl
@[simp] theorem takeRefusal_tick (s : State) : (takeRefusal s).tick = s.tick := rfl
@[simp] theorem takeRefusal_shm (s : State) : (takeRefusal s).shm = s.shm := rfl
@[simp] theorem takeRefusal_staleHost (s : State) : (takeRefusal s).staleHost = s.staleHost := rfl
@[simp] theorem takeRefusal_staleRtu (s : State) : (takeRefusal s).staleRtu = s.staleRtu := rfl
@[simp] theorem takeRefusal_gpioOe (s : State) : (takeRefusal s).gpioOe = s.gpioOe := rfl
@[simp] theorem takeRefusal_gpioDatain (s : State) : (takeRefusal s).gpioDatain = s.gpioDatain := rfl
@[simp] theorem takeRefusal_gpioDataout (s : State) : (takeRefusal s).gpioDataout = s.gpioDataout := rfl
@[simp] theorem takeRefusal_seq (s : State) : (takeRefusal s).seq = s.seq := rfl
@[simp] theorem takeRefusal_muxPos (s : State) : (takeRefusal s).muxPos = s.muxPos := rfl
@[simp] theorem takeRefusal_msg (s : State) : (takeRefusal s).msg = s.msg := rfl
@[simp] theorem takeRefusal_repPend (s : State) : (takeRefusal s).repPend = s.repPend := rfl
@[simp] theorem takeRefusal_repCh (s : State) : (takeRefusal s).repCh = s.repCh := rfl
@[simp] theorem takeRefusal_repVal (s : State) : (takeRefusal s).repVal = s.repVal := rfl
@[simp] theorem takeRefusal_repPin (s : State) : (takeRefusal s).repPin = s.repPin := rfl
@[simp] theorem takeRefusal_repLvl (s : State) : (takeRefusal s).repLvl = s.repLvl := rfl
@[simp] theorem takeRefusal_curCh (s : State) : (takeRefusal s).curCh = s.curCh := rfl
@[simp] theorem takeRefusal_curRaw (s : State) : (takeRefusal s).curRaw = s.curRaw := rfl
@[simp] theorem takeRefusal_curValid (s : State) : (takeRefusal s).curValid = s.curValid := rfl
@[simp] theorem takeRefusal_curStage (s : State) : (takeRefusal s).curStage = s.curStage := rfl
@[simp] theorem takeRefusal_wstep (s : State) : (takeRefusal s).wstep = s.wstep := rfl
@[simp] theorem takeRefusal_whead (s : State) : (takeRefusal s).whead = s.whead := rfl
@[simp] theorem takeRefusal_wtail (s : State) : (takeRefusal s).wtail = s.wtail := rfl
@[simp] theorem takeRefusal_phase (s : State) : (takeRefusal s).phase = s.phase := rfl
@[simp] theorem takeRefusal_gidx (s : State) : (takeRefusal s).gidx = s.gidx := rfl
@[simp] theorem takeRefusal_adcEn (s : State) : (takeRefusal s).adcEn = s.adcEn := rfl
@[simp] theorem takeRefusal_adcBuf (s : State) : (takeRefusal s).adcBuf = s.adcBuf := rfl
@[simp] theorem takeRefusal_adcLast (s : State) : (takeRefusal s).adcLast = s.adcLast := rfl
@[simp] theorem takeRefusal_gpioTab (s : State) : (takeRefusal s).gpioTab = s.gpioTab := rfl
@[simp] theorem takeRefusal_adcFifo (s : State) : (takeRefusal s).adcFifo = s.adcFifo := rfl
@[simp] theorem takeRefusal_adcPend (s : State) : (takeRefusal s).adcPend = s.adcPend := rfl
@[simp] theorem takeRefusal_adcNext (s : State) : (takeRefusal s).adcNext = s.adcNext := rfl
@[simp] theorem takeRefusal_tmrFlag (s : State) : (takeRefusal s).tmrFlag = s.tmrFlag := rfl
@[simp] theorem takeRefusal_hregPin (s : State) : (takeRefusal s).hregPin = s.hregPin := rfl
@[simp] theorem takeRefusal_hregAdc (s : State) : (takeRefusal s).hregAdc = s.hregAdc := rfl
@[simp] theorem takeRefusal_hmapped (s : State) : (takeRefusal s).hmapped = s.hmapped := rfl
@[simp] theorem takeRefusal_hstatus (s : State) : (takeRefusal s).hstatus = s.hstatus := rfl
@[simp] theorem takeRefusal_rdata (s : State) : (takeRefusal s).rdata = s.rdata := rfl
@[simp] theorem takeRefusal_rdataW (s : State) : (takeRefusal s).rdataW = s.rdataW := rfl
@[simp] theorem takeRefusal_rvalid (s : State) : (takeRefusal s).rvalid = s.rvalid := rfl
@[simp] theorem takeRefusal_rstep (s : State) : (takeRefusal s).rstep = s.rstep := rfl
@[simp] theorem takeRefusal_rhead (s : State) : (takeRefusal s).rhead = s.rhead := rfl
@[simp] theorem takeRefusal_decKind (s : State) : (takeRefusal s).decKind = s.decKind := rfl
@[simp] theorem takeRefusal_decPin (s : State) : (takeRefusal s).decPin = s.decPin := rfl
@[simp] theorem takeRefusal_decLvl (s : State) : (takeRefusal s).decLvl = s.decLvl := rfl
@[simp] theorem takeRefusal_decCh (s : State) : (takeRefusal s).decCh = s.decCh := rfl
@[simp] theorem takeRefusal_decVal (s : State) : (takeRefusal s).decVal = s.decVal := rfl
@[simp] theorem takeRefusal_faults (s : State) : (takeRefusal s).faults = s.faults := rfl
@[simp] theorem takeRefusal_refused (s : State) : (takeRefusal s).refused = true := rfl

/-! ## `ticked` -/

@[simp] theorem ticked_params (s : State) : (s.ticked).params = s.params := rfl
@[simp] theorem ticked_pending (s : State) : (s.ticked).pending = s.pending := rfl
@[simp] theorem ticked_tick (s : State) : (s.ticked).tick = s.tick + 1 := rfl
@[simp] theorem ticked_shm (s : State) : (s.ticked).shm = s.shm := rfl
@[simp] theorem ticked_staleHost (s : State) : (s.ticked).staleHost = s.staleHost := rfl
@[simp] theorem ticked_staleRtu (s : State) : (s.ticked).staleRtu = s.staleRtu := rfl
@[simp] theorem ticked_gpioOe (s : State) : (s.ticked).gpioOe = s.gpioOe := rfl
@[simp] theorem ticked_gpioDatain (s : State) : (s.ticked).gpioDatain = s.gpioDatain := rfl
@[simp] theorem ticked_gpioDataout (s : State) : (s.ticked).gpioDataout = s.gpioDataout := rfl
@[simp] theorem ticked_seq (s : State) : (s.ticked).seq = s.seq := rfl
@[simp] theorem ticked_muxPos (s : State) : (s.ticked).muxPos = s.muxPos := rfl
@[simp] theorem ticked_msg (s : State) : (s.ticked).msg = s.msg := rfl
@[simp] theorem ticked_repPend (s : State) : (s.ticked).repPend = s.repPend := rfl
@[simp] theorem ticked_repCh (s : State) : (s.ticked).repCh = s.repCh := rfl
@[simp] theorem ticked_repVal (s : State) : (s.ticked).repVal = s.repVal := rfl
@[simp] theorem ticked_repPin (s : State) : (s.ticked).repPin = s.repPin := rfl
@[simp] theorem ticked_repLvl (s : State) : (s.ticked).repLvl = s.repLvl := rfl
@[simp] theorem ticked_curCh (s : State) : (s.ticked).curCh = s.curCh := rfl
@[simp] theorem ticked_curRaw (s : State) : (s.ticked).curRaw = s.curRaw := rfl
@[simp] theorem ticked_curValid (s : State) : (s.ticked).curValid = s.curValid := rfl
@[simp] theorem ticked_curStage (s : State) : (s.ticked).curStage = s.curStage := rfl
@[simp] theorem ticked_wstep (s : State) : (s.ticked).wstep = s.wstep := rfl
@[simp] theorem ticked_whead (s : State) : (s.ticked).whead = s.whead := rfl
@[simp] theorem ticked_wtail (s : State) : (s.ticked).wtail = s.wtail := rfl
@[simp] theorem ticked_phase (s : State) : (s.ticked).phase = s.phase := rfl
@[simp] theorem ticked_gidx (s : State) : (s.ticked).gidx = s.gidx := rfl
@[simp] theorem ticked_adcEn (s : State) : (s.ticked).adcEn = s.adcEn := rfl
@[simp] theorem ticked_adcBuf (s : State) : (s.ticked).adcBuf = s.adcBuf := rfl
@[simp] theorem ticked_adcLast (s : State) : (s.ticked).adcLast = s.adcLast := rfl
@[simp] theorem ticked_gpioTab (s : State) : (s.ticked).gpioTab = s.gpioTab := rfl
@[simp] theorem ticked_adcFifo (s : State) : (s.ticked).adcFifo = s.adcFifo := rfl
@[simp] theorem ticked_adcPend (s : State) : (s.ticked).adcPend = s.adcPend := rfl
@[simp] theorem ticked_adcNext (s : State) : (s.ticked).adcNext = s.adcNext := rfl
@[simp] theorem ticked_tmrFlag (s : State) : (s.ticked).tmrFlag = s.tmrFlag := rfl
@[simp] theorem ticked_hregPin (s : State) : (s.ticked).hregPin = s.hregPin := rfl
@[simp] theorem ticked_hregAdc (s : State) : (s.ticked).hregAdc = s.hregAdc := rfl
@[simp] theorem ticked_hmapped (s : State) : (s.ticked).hmapped = s.hmapped := rfl
@[simp] theorem ticked_hstatus (s : State) : (s.ticked).hstatus = s.hstatus := rfl
@[simp] theorem ticked_rdata (s : State) : (s.ticked).rdata = s.rdata := rfl
@[simp] theorem ticked_rdataW (s : State) : (s.ticked).rdataW = s.rdataW := rfl
@[simp] theorem ticked_rvalid (s : State) : (s.ticked).rvalid = s.rvalid := rfl
@[simp] theorem ticked_rstep (s : State) : (s.ticked).rstep = s.rstep := rfl
@[simp] theorem ticked_rhead (s : State) : (s.ticked).rhead = s.rhead := rfl
@[simp] theorem ticked_decKind (s : State) : (s.ticked).decKind = s.decKind := rfl
@[simp] theorem ticked_decPin (s : State) : (s.ticked).decPin = s.decPin := rfl
@[simp] theorem ticked_decLvl (s : State) : (s.ticked).decLvl = s.decLvl := rfl
@[simp] theorem ticked_decCh (s : State) : (s.ticked).decCh = s.decCh := rfl
@[simp] theorem ticked_decVal (s : State) : (s.ticked).decVal = s.decVal := rfl
@[simp] theorem ticked_faults (s : State) : (s.ticked).faults = s.faults := rfl
@[simp] theorem ticked_refused (s : State) : (s.ticked).refused = s.refused := rfl

/-! ## `place` -/

@[simp] theorem place_params (s : State) (c : Command) : (s.place c).params = s.params := rfl
@[simp] theorem place_pending (s : State) (c : Command) : (s.place c).pending = c :: s.pending := rfl
@[simp] theorem place_tick (s : State) (c : Command) : (s.place c).tick = s.tick := rfl
@[simp] theorem place_shm (s : State) (c : Command) : (s.place c).shm = s.shm := rfl
@[simp] theorem place_staleHost (s : State) (c : Command) : (s.place c).staleHost = s.staleHost := rfl
@[simp] theorem place_staleRtu (s : State) (c : Command) : (s.place c).staleRtu = s.staleRtu := rfl
@[simp] theorem place_gpioOe (s : State) (c : Command) : (s.place c).gpioOe = s.gpioOe := rfl
@[simp] theorem place_gpioDatain (s : State) (c : Command) : (s.place c).gpioDatain = s.gpioDatain := rfl
@[simp] theorem place_gpioDataout (s : State) (c : Command) : (s.place c).gpioDataout = s.gpioDataout := rfl
@[simp] theorem place_seq (s : State) (c : Command) : (s.place c).seq = s.seq := rfl
@[simp] theorem place_muxPos (s : State) (c : Command) : (s.place c).muxPos = s.muxPos := rfl
@[simp] theorem place_msg (s : State) (c : Command) : (s.place c).msg = s.msg := rfl
@[simp] theorem place_repPend (s : State) (c : Command) : (s.place c).repPend = s.repPend := rfl
@[simp] theorem place_repCh (s : State) (c : Command) : (s.place c).repCh = s.repCh := rfl
@[simp] theorem place_repVal (s : State) (c : Command) : (s.place c).repVal = s.repVal := rfl
@[simp] theorem place_repPin (s : State) (c : Command) : (s.place c).repPin = s.repPin := rfl
@[simp] theorem place_repLvl (s : State) (c : Command) : (s.place c).repLvl = s.repLvl := rfl
@[simp] theorem place_curCh (s : State) (c : Command) : (s.place c).curCh = s.curCh := rfl
@[simp] theorem place_curRaw (s : State) (c : Command) : (s.place c).curRaw = s.curRaw := rfl
@[simp] theorem place_curValid (s : State) (c : Command) : (s.place c).curValid = s.curValid := rfl
@[simp] theorem place_curStage (s : State) (c : Command) : (s.place c).curStage = s.curStage := rfl
@[simp] theorem place_wstep (s : State) (c : Command) : (s.place c).wstep = s.wstep := rfl
@[simp] theorem place_whead (s : State) (c : Command) : (s.place c).whead = s.whead := rfl
@[simp] theorem place_wtail (s : State) (c : Command) : (s.place c).wtail = s.wtail := rfl
@[simp] theorem place_phase (s : State) (c : Command) : (s.place c).phase = s.phase := rfl
@[simp] theorem place_gidx (s : State) (c : Command) : (s.place c).gidx = s.gidx := rfl
@[simp] theorem place_adcEn (s : State) (c : Command) : (s.place c).adcEn = s.adcEn := rfl
@[simp] theorem place_adcBuf (s : State) (c : Command) : (s.place c).adcBuf = s.adcBuf := rfl
@[simp] theorem place_adcLast (s : State) (c : Command) : (s.place c).adcLast = s.adcLast := rfl
@[simp] theorem place_gpioTab (s : State) (c : Command) : (s.place c).gpioTab = s.gpioTab := rfl
@[simp] theorem place_adcFifo (s : State) (c : Command) : (s.place c).adcFifo = s.adcFifo := rfl
@[simp] theorem place_adcPend (s : State) (c : Command) : (s.place c).adcPend = s.adcPend := rfl
@[simp] theorem place_adcNext (s : State) (c : Command) : (s.place c).adcNext = s.adcNext := rfl
@[simp] theorem place_tmrFlag (s : State) (c : Command) : (s.place c).tmrFlag = s.tmrFlag := rfl
@[simp] theorem place_hregPin (s : State) (c : Command) : (s.place c).hregPin = s.hregPin := rfl
@[simp] theorem place_hregAdc (s : State) (c : Command) : (s.place c).hregAdc = s.hregAdc := rfl
@[simp] theorem place_hmapped (s : State) (c : Command) : (s.place c).hmapped = s.hmapped := rfl
@[simp] theorem place_hstatus (s : State) (c : Command) : (s.place c).hstatus = s.hstatus := rfl
@[simp] theorem place_rdata (s : State) (c : Command) : (s.place c).rdata = s.rdata := rfl
@[simp] theorem place_rdataW (s : State) (c : Command) : (s.place c).rdataW = s.rdataW := rfl
@[simp] theorem place_rvalid (s : State) (c : Command) : (s.place c).rvalid = s.rvalid := rfl
@[simp] theorem place_rstep (s : State) (c : Command) : (s.place c).rstep = s.rstep := rfl
@[simp] theorem place_rhead (s : State) (c : Command) : (s.place c).rhead = s.rhead := rfl
@[simp] theorem place_decKind (s : State) (c : Command) : (s.place c).decKind = s.decKind := rfl
@[simp] theorem place_decPin (s : State) (c : Command) : (s.place c).decPin = s.decPin := rfl
@[simp] theorem place_decLvl (s : State) (c : Command) : (s.place c).decLvl = s.decLvl := rfl
@[simp] theorem place_decCh (s : State) (c : Command) : (s.place c).decCh = s.decCh := rfl
@[simp] theorem place_decVal (s : State) (c : Command) : (s.place c).decVal = s.decVal := rfl
@[simp] theorem place_faults (s : State) (c : Command) : (s.place c).faults = s.faults := rfl
@[simp] theorem place_refused (s : State) (c : Command) : (s.place c).refused = s.refused := rfl

/-! ## `setStale` -/

@[simp] theorem setStale_params (s : State) (d : Side) (l : List (Nat × Word)) : (s.setStale d l).params = s.params := by cases d <;> rfl
@[simp] theorem setStale_pending (s : State) (d : Side) (l : List (Nat × Word)) : (s.setStale d l).pending = s.pending := by cases d <;> rfl
@[simp] theorem setStale_tick (s : State) (d : Side) (l : List (Nat × Word)) : (s.setStale d l).tick = s.tick := by cases d <;> rfl
@[simp] theorem setStale_shm (s : State) (d : Side) (l : List (Nat × Word)) : (s.setStale d l).shm = s.shm := by cases d <;> rfl
@[simp] theorem setStale_gpioOe (s : State) (d : Side) (l : List (Nat × Word)) : (s.setStale d l).gpioOe = s.gpioOe := by cases d <;> rfl
@[simp] theorem setStale_gpioDatain (s : State) (d : Side) (l : List (Nat × Word)) : (s.setStale d l).gpioDatain = s.gpioDatain := by cases d <;> rfl
@[simp] theorem setStale_gpioDataout (s : State) (d : Side) (l : List (Nat × Word)) : (s.setStale d l).gpioDataout = s.gpioDataout := by cases d <;> rfl
@[simp] theorem setStale_seq (s : State) (d : Side) (l : List (Nat × Word)) : (s.setStale d l).seq = s.seq := by cases d <;> rfl
@[simp] theorem setStale_muxPos (s : State) (d : Side) (l : List (Nat × Word)) : (s.setStale d l).muxPos = s.muxPos := by cases d <;> rfl
@[simp] theorem setStale_msg (s : State) (d : Side) (l : List (Nat × Word)) : (s.setStale d l).msg = s.msg := by cases d <;> rfl
@[simp] theorem setStale_repPend (s : State) (d : Side) (l : List (Nat × Word)) : (s.setStale d l).repPend = s.repPend := by cases d <;> rfl
@[simp] theorem setStale_repCh (s : State) (d : Side) (l : List (Nat × Word)) : (s.setStale d l).repCh = s.repCh := by cases d <;> rfl
@[simp] theorem setStale_repVal (s : State) (d : Side) (l : List (Nat × Word)) : (s.setStale d l).repVal = s.repVal := by cases d <;> rfl
@[simp] theorem setStale_repPin (s : State) (d : Side) (l : List (Nat × Word)) : (s.setStale d l).repPin = s.repPin := by cases d <;> rfl
@[simp] theorem setStale_repLvl (s : State) (d : Side) (l : List (Nat × Word)) : (s.setStale d l).repLvl = s.repLvl := by cases d <;> rfl
@[simp] theorem setStale_curCh (s : State) (d : Side) (l : List (Nat × Word)) : (s.setStale d l).curCh = s.curCh := by cases d <;> rfl
@[simp] theorem setStale_curRaw (s : State) (d : Side) (l : List (Nat × Word)) : (s.setStale d l).curRaw = s.curRaw := by cases d <;> rfl
@[simp] theorem setStale_curValid (s : State) (d : Side) (l : List (Nat × Word)) : (s.setStale d l).curValid = s.curValid := by cases d <;> rfl
@[simp] theorem setStale_curStage (s : State) (d : Side) (l : List (Nat × Word)) : (s.setStale d l).curStage = s.curStage := by cases d <;> rfl
@[simp] theorem setStale_wstep (s : State) (d : Side) (l : List (Nat × Word)) : (s.setStale d l).wstep = s.wstep := by cases d <;> rfl
@[simp] theorem setStale_whead (s : State) (d : Side) (l : List (Nat × Word)) : (s.setStale d l).whead = s.whead := by cases d <;> rfl
@[simp] theorem setStale_wtail (s : State) (d : Side) (l : List (Nat × Word)) : (s.setStale d l).wtail = s.wtail := by cases d <;> rfl
@[simp] theorem setStale_phase (s : State) (d : Side) (l : List (Nat × Word)) : (s.setStale d l).phase = s.phase := by cases d <;> rfl
@[simp] theorem setStale_gidx (s : State) (d : Side) (l : List (Nat × Word)) : (s.setStale d l).gidx = s.gidx := by cases d <;> rfl
@[simp] theorem setStale_adcEn (s : State) (d : Side) (l : List (Nat × Word)) : (s.setStale d l).adcEn = s.adcEn := by cases d <;> rfl
@[simp] theorem setStale_adcBuf (s : State) (d : Side) (l : List (Nat × Word)) : (s.setStale d l).adcBuf = s.adcBuf := by cases d <;> rfl
@[simp] theorem setStale_adcLast (s : State) (d : Side) (l : List (Nat × Word)) : (s.setStale d l).adcLast = s.adcLast := by cases d <;> rfl
@[simp] theorem setStale_gpioTab (s : State) (d : Side) (l : List (Nat × Word)) : (s.setStale d l).gpioTab = s.gpioTab := by cases d <;> rfl
@[simp] theorem setStale_adcFifo (s : State) (d : Side) (l : List (Nat × Word)) : (s.setStale d l).adcFifo = s.adcFifo := by cases d <;> rfl
@[simp] theorem setStale_adcPend (s : State) (d : Side) (l : List (Nat × Word)) : (s.setStale d l).adcPend = s.adcPend := by cases d <;> rfl
@[simp] theorem setStale_adcNext (s : State) (d : Side) (l : List (Nat × Word)) : (s.setStale d l).adcNext = s.adcNext := by cases d <;> rfl
@[simp] theorem setStale_tmrFlag (s : State) (d : Side) (l : List (Nat × Word)) : (s.setStale d l).tmrFlag = s.tmrFlag := by cases d <;> rfl
@[simp] theorem setStale_hregPin (s : State) (d : Side) (l : List (Nat × Word)) : (s.setStale d l).hregPin = s.hregPin := by cases d <;> rfl
@[simp] theorem setStale_hregAdc (s : State) (d : Side) (l : List (Nat × Word)) : (s.setStale d l).hregAdc = s.hregAdc := by cases d <;> rfl
@[simp] theorem setStale_hmapped (s : State) (d : Side) (l : List (Nat × Word)) : (s.setStale d l).hmapped = s.hmapped := by cases d <;> rfl
@[simp] theorem setStale_hstatus (s : State) (d : Side) (l : List (Nat × Word)) : (s.setStale d l).hstatus = s.hstatus := by cases d <;> rfl
@[simp] theorem setStale_rdata (s : State) (d : Side) (l : List (Nat × Word)) : (s.setStale d l).rdata = s.rdata := by cases d <;> rfl
@[simp] theorem setStale_rdataW (s : State) (d : Side) (l : List (Nat × Word)) : (s.setStale d l).rdataW = s.rdataW := by cases d <;> rfl
@[simp] theorem setStale_rvalid (s : State) (d : Side) (l : List (Nat × Word)) : (s.setStale d l).rvalid = s.rvalid := by cases d <;> rfl
@[simp] theorem setStale_rstep (s : State) (d : Side) (l : List (Nat × Word)) : (s.setStale d l).rstep = s.rstep := by cases d <;> rfl
@[simp] theorem setStale_rhead (s : State) (d : Side) (l : List (Nat × Word)) : (s.setStale d l).rhead = s.rhead := by cases d <;> rfl
@[simp] theorem setStale_decKind (s : State) (d : Side) (l : List (Nat × Word)) : (s.setStale d l).decKind = s.decKind := by cases d <;> rfl
@[simp] theorem setStale_decPin (s : State) (d : Side) (l : List (Nat × Word)) : (s.setStale d l).decPin = s.decPin := by cases d <;> rfl
@[simp] theorem setStale_decLvl (s : State) (d : Side) (l : List (Nat × Word)) : (s.setStale d l).decLvl = s.decLvl := by cases d <;> rfl
@[simp] theorem setStale_decCh (s : State) (d : Side) (l : List (Nat × Word)) : (s.setStale d l).decCh = s.decCh := by cases d <;> rfl
@[simp] theorem setStale_decVal (s : State) (d : Side) (l : List (Nat × Word)) : (s.setStale d l).decVal = s.decVal := by cases d <;> rfl
@[simp] theorem setStale_faults (s : State) (d : Side) (l : List (Nat × Word)) : (s.setStale d l).faults = s.faults := by cases d <;> rfl
@[simp] theorem setStale_refused (s : State) (d : Side) (l : List (Nat × Word)) : (s.setStale d l).refused = s.refused := by cases d <;> rfl

/-! ## `setGpioBank` -/

@[simp] theorem setGpioBank_params (s : State) (r : GpioReg) (b : Vector Word 4) : (s.setGpioBank r b).params = s.params := by cases r <;> rfl
@[simp] theorem setGpioBank_pending (s : State) (r : GpioReg) (b : Vector Word 4) : (s.setGpioBank r b).pending = s.pending := by cases r <;> rfl
@[simp] theorem setGpioBank_tick (s : State) (r : GpioReg) (b : Vector Word 4) : (s.setGpioBank r b).tick = s.tick := by cases r <;> rfl
@[simp] theorem setGpioBank_shm (s : State) (r : GpioReg) (b : Vector Word 4) : (s.setGpioBank r b).shm = s.shm := by cases r <;> rfl
@[simp] theorem setGpioBank_staleHost (s : State) (r : GpioReg) (b : Vector Word 4) : (s.setGpioBank r b).staleHost = s.staleHost := by cases r <;> rfl
@[simp] theorem setGpioBank_staleRtu (s : State) (r : GpioReg) (b : Vector Word 4) : (s.setGpioBank r b).staleRtu = s.staleRtu := by cases r <;> rfl
@[simp] theorem setGpioBank_seq (s : State) (r : GpioReg) (b : Vector Word 4) : (s.setGpioBank r b).seq = s.seq := by cases r <;> rfl
@[simp] theorem setGpioBank_muxPos (s : State) (r : GpioReg) (b : Vector Word 4) : (s.setGpioBank r b).muxPos = s.muxPos := by cases r <;> rfl
@[simp] theorem setGpioBank_msg (s : State) (r : GpioReg) (b : Vector Word 4) : (s.setGpioBank r b).msg = s.msg := by cases r <;> rfl
@[simp] theorem setGpioBank_repPend (s : State) (r : GpioReg) (b : Vector Word 4) : (s.setGpioBank r b).repPend = s.repPend := by cases r <;> rfl
@[simp] theorem setGpioBank_repCh (s : State) (r : GpioReg) (b : Vector Word 4) : (s.setGpioBank r b).repCh = s.repCh := by cases r <;> rfl
@[simp] theorem setGpioBank_repVal (s : State) (r : GpioReg) (b : Vector Word 4) : (s.setGpioBank r b).repVal = s.repVal := by cases r <;> rfl
@[simp] theorem setGpioBank_repPin (s : State) (r : GpioReg) (b : Vector Word 4) : (s.setGpioBank r b).repPin = s.repPin := by cases r <;> rfl
@[simp] theorem setGpioBank_repLvl (s : State) (r : GpioReg) (b : Vector Word 4) : (s.setGpioBank r b).repLvl = s.repLvl := by cases r <;> rfl
@[simp] theorem setGpioBank_curCh (s : State) (r : GpioReg) (b : Vector Word 4) : (s.setGpioBank r b).curCh = s.curCh := by cases r <;> rfl
@[simp] theorem setGpioBank_curRaw (s : State) (r : GpioReg) (b : Vector Word 4) : (s.setGpioBank r b).curRaw = s.curRaw := by cases r <;> rfl
@[simp] theorem setGpioBank_curValid (s : State) (r : GpioReg) (b : Vector Word 4) : (s.setGpioBank r b).curValid = s.curValid := by cases r <;> rfl
@[simp] theorem setGpioBank_curStage (s : State) (r : GpioReg) (b : Vector Word 4) : (s.setGpioBank r b).curStage = s.curStage := by cases r <;> rfl
@[simp] theorem setGpioBank_wstep (s : State) (r : GpioReg) (b : Vector Word 4) : (s.setGpioBank r b).wstep = s.wstep := by cases r <;> rfl
@[simp] theorem setGpioBank_whead (s : State) (r : GpioReg) (b : Vector Word 4) : (s.setGpioBank r b).whead = s.whead := by cases r <;> rfl
@[simp] theorem setGpioBank_wtail (s : State) (r : GpioReg) (b : Vector Word 4) : (s.setGpioBank r b).wtail = s.wtail := by cases r <;> rfl
@[simp] theorem setGpioBank_phase (s : State) (r : GpioReg) (b : Vector Word 4) : (s.setGpioBank r b).phase = s.phase := by cases r <;> rfl
@[simp] theorem setGpioBank_gidx (s : State) (r : GpioReg) (b : Vector Word 4) : (s.setGpioBank r b).gidx = s.gidx := by cases r <;> rfl
@[simp] theorem setGpioBank_adcEn (s : State) (r : GpioReg) (b : Vector Word 4) : (s.setGpioBank r b).adcEn = s.adcEn := by cases r <;> rfl
@[simp] theorem setGpioBank_adcBuf (s : State) (r : GpioReg) (b : Vector Word 4) : (s.setGpioBank r b).adcBuf = s.adcBuf := by cases r <;> rfl
@[simp] theorem setGpioBank_adcLast (s : State) (r : GpioReg) (b : Vector Word 4) : (s.setGpioBank r b).adcLast = s.adcLast := by cases r <;> rfl
@[simp] theorem setGpioBank_gpioTab (s : State) (r : GpioReg) (b : Vector Word 4) : (s.setGpioBank r b).gpioTab = s.gpioTab := by cases r <;> rfl
@[simp] theorem setGpioBank_adcFifo (s : State) (r : GpioReg) (b : Vector Word 4) : (s.setGpioBank r b).adcFifo = s.adcFifo := by cases r <;> rfl
@[simp] theorem setGpioBank_adcPend (s : State) (r : GpioReg) (b : Vector Word 4) : (s.setGpioBank r b).adcPend = s.adcPend := by cases r <;> rfl
@[simp] theorem setGpioBank_adcNext (s : State) (r : GpioReg) (b : Vector Word 4) : (s.setGpioBank r b).adcNext = s.adcNext := by cases r <;> rfl
@[simp] theorem setGpioBank_tmrFlag (s : State) (r : GpioReg) (b : Vector Word 4) : (s.setGpioBank r b).tmrFlag = s.tmrFlag := by cases r <;> rfl
@[simp] theorem setGpioBank_hregPin (s : State) (r : GpioReg) (b : Vector Word 4) : (s.setGpioBank r b).hregPin = s.hregPin := by cases r <;> rfl
@[simp] theorem setGpioBank_hregAdc (s : State) (r : GpioReg) (b : Vector Word 4) : (s.setGpioBank r b).hregAdc = s.hregAdc := by cases r <;> rfl
@[simp] theorem setGpioBank_hmapped (s : State) (r : GpioReg) (b : Vector Word 4) : (s.setGpioBank r b).hmapped = s.hmapped := by cases r <;> rfl
@[simp] theorem setGpioBank_hstatus (s : State) (r : GpioReg) (b : Vector Word 4) : (s.setGpioBank r b).hstatus = s.hstatus := by cases r <;> rfl
@[simp] theorem setGpioBank_rdata (s : State) (r : GpioReg) (b : Vector Word 4) : (s.setGpioBank r b).rdata = s.rdata := by cases r <;> rfl
@[simp] theorem setGpioBank_rdataW (s : State) (r : GpioReg) (b : Vector Word 4) : (s.setGpioBank r b).rdataW = s.rdataW := by cases r <;> rfl
@[simp] theorem setGpioBank_rvalid (s : State) (r : GpioReg) (b : Vector Word 4) : (s.setGpioBank r b).rvalid = s.rvalid := by cases r <;> rfl
@[simp] theorem setGpioBank_rstep (s : State) (r : GpioReg) (b : Vector Word 4) : (s.setGpioBank r b).rstep = s.rstep := by cases r <;> rfl
@[simp] theorem setGpioBank_rhead (s : State) (r : GpioReg) (b : Vector Word 4) : (s.setGpioBank r b).rhead = s.rhead := by cases r <;> rfl
@[simp] theorem setGpioBank_decKind (s : State) (r : GpioReg) (b : Vector Word 4) : (s.setGpioBank r b).decKind = s.decKind := by cases r <;> rfl
@[simp] theorem setGpioBank_decPin (s : State) (r : GpioReg) (b : Vector Word 4) : (s.setGpioBank r b).decPin = s.decPin := by cases r <;> rfl
@[simp] theorem setGpioBank_decLvl (s : State) (r : GpioReg) (b : Vector Word 4) : (s.setGpioBank r b).decLvl = s.decLvl := by cases r <;> rfl
@[simp] theorem setGpioBank_decCh (s : State) (r : GpioReg) (b : Vector Word 4) : (s.setGpioBank r b).decCh = s.decCh := by cases r <;> rfl
@[simp] theorem setGpioBank_decVal (s : State) (r : GpioReg) (b : Vector Word 4) : (s.setGpioBank r b).decVal = s.decVal := by cases r <;> rfl
@[simp] theorem setGpioBank_faults (s : State) (r : GpioReg) (b : Vector Word 4) : (s.setGpioBank r b).faults = s.faults := by cases r <;> rfl
@[simp] theorem setGpioBank_refused (s : State) (r : GpioReg) (b : Vector Word 4) : (s.setGpioBank r b).refused = s.refused := by cases r <;> rfl

/-! ## The banks and the older values after their updates -/

@[simp] theorem setStale_stale (s : State) (d : Side) (l : List (Nat × Word)) : (s.setStale d l).stale d = l := by
  cases d <;> rfl

@[simp] theorem setStale_stale_other (s : State) (d : Side) (l : List (Nat × Word)) :
    (s.setStale d l).stale d.other = s.stale d.other := by cases d <;> rfl

@[simp] theorem setGpioBank_gpioBank (s : State) (r : GpioReg) (b : Vector Word 4) : (s.setGpioBank r b).gpioBank r = b := by
  cases r <;> rfl

theorem setGpioBank_gpioBank_of_ne (s : State) {r q : GpioReg} (h : q ≠ r) (b : Vector Word 4) :
    (s.setGpioBank r b).gpioBank q = s.gpioBank q := by
  cases r <;> cases q <;> first | rfl | exact absurd rfl h

end Sys2Proof.Machine
end

