-- ==== Sys2Proof/Laws/Ops.lean ====
section
/-! SUPPORT. One lemma per shared operation that says everything it can do; later proofs cite it and do not unfold the operation. -/

namespace Sys2Proof.Machine

open Sys2Proof.Config

/-! ## Shared words -/

/-- All a completed `MemRead` can do: the word was written; the older values of the reading side may shrink, and nothing else
changes; under `SC` the value is the last written and nothing changes at all. -/
theorem memRead_ok {side : Side} {w : Nat} {s t : State} {v : Word} (h : memRead side w s = .ok (v, t)) :
    w < s.params.shmWords ∧ (∃ u, s.shm.readWord w = some u ∧ (s.params.memOrder = .sc → v = u ∧ t = s)) ∧
      ∃ l, t = s.setStale side l := by
  unfold memRead at h
  split at h
  · cases h
  · rename_i hw
    refine ⟨by omega, ?_⟩
    split at h
    · cases h
    · rename_i u hu
      split at h
      · rename_i hm
        cases h
        refine ⟨⟨_, hu, fun _ => ⟨rfl, rfl⟩⟩, s.stale side, ?_⟩
        cases side <;> rfl
      · rename_i hm
        cases h
        exact ⟨⟨_, hu, fun hsc => by simp [hsc] at hm⟩, _, rfl⟩

/-- How a `MemRead` can fail: the word does not exist, or was never written. -/
theorem memRead_error {side : Side} {w : Nat} {s : State} {e : Stop} (h : memRead side w s = .error e) :
    (s.params.shmWords ≤ w ∧ e = .halt (.noSuchWord w)) ∨
      (w < s.params.shmWords ∧ s.shm.readWord w = none ∧ e = .raise (.uninit (.word w))) := by
  unfold memRead at h
  split at h
  · rename_i hw; cases h; exact .inl ⟨hw, rfl⟩
  · rename_i hw
    split at h
    · rename_i hu; cases h; exact .inr ⟨by omega, hu, rfl⟩
    · split at h <;> cases h

/-- Under `SC` a `MemRead` of a written word of the region returns it and changes nothing (R82). -/
theorem memRead_sc {side : Side} {w : Nat} {s : State} {v : Word} (hw : w < s.params.shmWords)
    (hm : s.params.memOrder = .sc) (hv : s.shm.readWord w = some v) : memRead side w s = .ok (v, s) := by
  simp [memRead, Nat.not_le.2 hw, hm, hv]

/-- A `MemRead` of a word never written raises `F_UNINIT` (R79). -/
theorem memRead_unwritten {side : Side} {w : Nat} {s : State} (hw : w < s.params.shmWords)
    (hv : s.shm.readWord w = none) : memRead side w s = .error (.raise (.uninit (.word w))) := by
  simp [memRead, Nat.not_le.2 hw, hv]

/-- A `MemRead` of a written word of the region completes, in either memory order. -/
theorem memRead_completes {side : Side} {w : Nat} {s : State} {v : Word} (hw : w < s.params.shmWords)
    (hv : s.shm.readWord w = some v) : ∃ u t, memRead side w s = .ok (u, t) := by
  unfold memRead
  rw [if_neg (by omega), hv]
  cases s.params.memOrder <;> exact ⟨_, _, rfl⟩

/-- All a completed `MemWrite` can do: the word is stored; the older values may change only under `WEAK`; nothing else changes. -/
theorem memWrite_ok {side : Side} {w : Nat} {v : Word} {s t : State} (h : memWrite side w v s = .ok t) :
    w < s.params.shmWords ∧
      ∃ lh lr, t = { s with shm := s.shm.writeWord w v, staleHost := lh, staleRtu := lr } ∧
        (s.params.memOrder = .sc → lh = s.staleHost ∧ lr = s.staleRtu) := by
  unfold memWrite at h
  split at h
  · cases h
  · rename_i hw
    refine ⟨by omega, ?_⟩
    split at h
    · cases h; exact ⟨_, _, rfl, fun _ => ⟨rfl, rfl⟩⟩
    · rename_i hm
      cases h
      cases side
      · exact ⟨_, _, rfl, fun hsc => by simp [hsc] at hm⟩
      · exact ⟨_, _, rfl, fun hsc => by simp [hsc] at hm⟩

/-- A `MemWrite` fails only outside the region. -/
theorem memWrite_error {side : Side} {w : Nat} {v : Word} {s : State} {e : Stop} (h : memWrite side w v s = .error e) :
    s.params.shmWords ≤ w ∧ e = .halt (.noSuchWord w) := by
  unfold memWrite at h
  split at h
  · rename_i hw; cases h; exact ⟨hw, rfl⟩
  · split at h <;> cases h

/-- Under `SC` a `MemWrite` inside the region stores the word and changes nothing else (R82). -/
theorem memWrite_sc {side : Side} {w : Nat} {v : Word} {s : State} (hw : w < s.params.shmWords)
    (hm : s.params.memOrder = .sc) : memWrite side w v s = .ok { s with shm := s.shm.writeWord w v } := by
  simp [memWrite, Nat.not_le.2 hw, hm]

/-- A `MemWrite` inside the region completes. -/
theorem memWrite_completes {side : Side} {w : Nat} {v : Word} {s : State} (hw : w < s.params.shmWords) :
    ∃ t, memWrite side w v s = .ok t := by
  unfold memWrite
  rw [if_neg (by omega)]
  cases s.params.memOrder <;> exact ⟨_, rfl⟩

/-! ## Cursors -/

/-- All a completed read of the cursors can do: both words were written, both values are legal, and only the reading side's older
values may change; under `SC` the values are the words and nothing changes. -/
theorem readCursors_ok {side : Side} {s t : State} {h' t' : Word} (h : readCursors side s = .ok (h', t', t)) :
    CursorLegal h' ∧ CursorLegal t' ∧ (∃ l, t = s.setStale side l) ∧
      ∃ ht tt, s.shm.readWord headWord = some ht ∧ s.shm.readWord tailWord = some tt ∧
        (s.params.memOrder = .sc → h' = ht ∧ t' = tt ∧ t = s) := by
  unfold readCursors at h
  split at h
  · cases h
  · rename_i t1 s1 h1
    split at h
    · cases h
    · rename_i h2v s2 h2
      obtain ⟨_, ⟨u1, hu1, hs1⟩, l1, rfl⟩ := memRead_ok h1
      obtain ⟨_, ⟨u2, hu2, hs2⟩, l2, rfl⟩ := memRead_ok h2
      split at h
      · cases h
      · rename_i hl1
        split at h
        · cases h
        · rename_i hl2
          cases h
          refine ⟨not_not.1 hl2, not_not.1 hl1, ⟨l2, ?_⟩, u2, u1, ?_, hu1, ?_⟩
          · cases side <;> rfl
          · simpa using hu2
          · intro hsc
            obtain ⟨rfl, e1⟩ := hs1 hsc
            obtain ⟨rfl, e2⟩ := hs2 (by simpa using hsc)
            exact ⟨rfl, rfl, by rw [e2, e1]⟩

/-- Under `SC` the cursors read are the two words, when both are written and legal. -/
theorem readCursors_sc {side : Side} {s : State} {h t : Word} (hw : 1031 ≤ s.params.shmWords)
    (hm : s.params.memOrder = .sc) (hh : s.shm.readWord headWord = some h) (ht : s.shm.readWord tailWord = some t)
    (lh : CursorLegal h) (lt : CursorLegal t) : readCursors side s = .ok (h, t, s) := by
  simp only [readCursors, memRead_sc (show tailWord < s.params.shmWords by simp only [tailWord]; omega) hm ht,
    memRead_sc (show headWord < s.params.shmWords by simp only [headWord]; omega) hm hh]
  simp [lh, lt]

/-! ## GPIO registers -/

theorem regRead_of_lt {m : Nat} (h : m < 4) (r : GpioReg) (s : State) : regRead m r s = .ok (s.gpioBank r)[m] := by
  simp [regRead, h]

theorem regRead_ok {m : Nat} {r : GpioReg} {s : State} {v : Word} (h : regRead m r s = .ok v) :
    ∃ hm : m < 4, v = (s.gpioBank r)[m] := by
  unfold regRead at h
  by_cases hm : m < 4
  · rw [Vector.getElem?_eq_getElem hm] at h; cases h; exact ⟨hm, rfl⟩
  · rw [Vector.getElem?_eq_none (by omega)] at h; cases h

theorem regWrite_of_lt {m : Nat} (h : m < 4) (r : GpioReg) (v : Word) (s : State) :
    regWrite m r v s = .ok (s.setGpioBank r ((s.gpioBank r).set m v)) := by simp [regWrite, h]

theorem regWrite_ok {m : Nat} {r : GpioReg} {v : Word} {s t : State} (h : regWrite m r v s = .ok t) :
    ∃ hm : m < 4, t = s.setGpioBank r ((s.gpioBank r).set m v) := by
  unfold regWrite at h
  split at h
  · rename_i hm; cases h; exact ⟨hm, rfl⟩
  · cases h

/-! ## Ending a step -/

/-- A step ends in a next state with its effect, or by taking a fault, or by taking a refusal. -/
theorem finish_next {s t : State} {b : Except Stop State} (h : finish s b = .next t) :
    b = .ok t ∨ (∃ f, b = .error (.raise f) ∧ t = takeFault f s) ∨ (∃ r, b = .error (.refuse r) ∧ t = takeRefusal s) := by
  unfold finish at h
  split at h
  · cases h; exact .inl rfl
  · cases h; exact .inr (.inl ⟨_, rfl, rfl⟩)
  · cases h; exact .inr (.inr ⟨_, rfl, rfl⟩)
  · cases h

@[simp] theorem finish_ok (s t : State) : finish s (.ok t) = .next t := rfl
@[simp] theorem finish_raise (s : State) (f : ModelFault) : finish s (.error (.raise f)) = .next (takeFault f s) := rfl
@[simp] theorem finish_refuse (s : State) (r : RefuseReason) : finish s (.error (.refuse r)) = .next (takeRefusal s) := rfl
@[simp] theorem finish_halt (s : State) (f : Fault) : finish s (.error (.halt f)) = .fault f := rfl

theorem guarded_of {m : String} {en : Prop} [Decidable en] {s : State} {b : Except Stop State} (h : en) :
    guarded m en s b = finish s b := if_pos h

theorem guarded_of_not {m : String} {en : Prop} [Decidable en] {s : State} {b : Except Stop State} (h : ¬ en) :
    guarded m en s b = .refused (.notEnabled m) := if_neg h

/-- A guarded operation answers a next state only when enabled. -/
theorem guarded_next {m : String} {en : Prop} [Decidable en] {s t : State} {b : Except Stop State}
    (h : guarded m en s b = .next t) : en ∧ finish s b = .next t := by
  unfold guarded at h
  split at h
  · exact ⟨‹_›, h⟩
  · cases h

/-! ## What a step performs -/

/-- An agent's attempt answers a next state by a refusal, or by the operation's own meaning. -/
theorem attempt_next {a : Agent} {i : Instr} {s t : State} (h : attempt a i s = .next t) :
    t = takeRefusal s ∨ (i.agent = a ∧ (i.agent = .rtu → rtuNext s = some i) ∧ exec i s = .next t) := by
  unfold attempt at h
  split at h
  · cases h; exact .inl rfl
  · rename_i ha
    split at h
    · cases h
    · rename_i hs
      refine .inr ⟨not_not.1 ha, fun hr => ?_, h⟩
      by_contra hn
      exact hs ⟨hr, hn⟩

/-- All a performed command can do: a refusal, or one operation's meaning by its own agent; the step is counted. -/
theorem perform_next {c : Command} {s t : State} (h : perform c s = .next t) :
    ∃ u, t = u.ticked ∧
      (u = takeRefusal s ∨
        ∃ i, decodeCommand c.word = .op i ∧ i.agent = c.agent ∧ (i.agent = .rtu → rtuNext s = some i) ∧ exec i s = .next u) := by
  unfold perform performWord at h
  split at h
  · cases h; exact ⟨_, rfl, .inl rfl⟩
  · rename_i i hd
    cases ha : attempt c.agent i s with
    | next u =>
      rw [ha] at h
      cases h
      rcases attempt_next ha with rfl | ⟨hc, hr, he⟩
      · exact ⟨_, rfl, .inl rfl⟩
      · exact ⟨u, rfl, .inr ⟨i, hd, hc, hr, he⟩⟩
    | fault f => rw [ha] at h; cases h
    | refused r => rw [ha] at h; cases h

/-- All an operation performed by its own agent can do: its meaning, counted. -/
theorem act_next {i : Instr} {s t : State} (h : act i s = .next t) :
    ∃ u, t = u.ticked ∧ (i.agent = .rtu → rtuNext s = some i) ∧ exec i s = .next u := by
  unfold act attempt at h
  rw [if_neg (not_not.2 rfl)] at h
  split at h
  · cases h
  · rename_i hs
    cases he : exec i s with
    | next u =>
      rw [he] at h
      cases h
      exact ⟨u, rfl, fun hr => by by_contra hn; exact hs ⟨hr, hn⟩, rfl⟩
    | fault f => rw [he] at h; cases h
    | refused r => rw [he] at h; cases h

/-- All a step can do: a refusal, no move, or one operation's meaning, after taking off the placed command; the step is counted. -/
theorem nextStep_next {s t : State} (h : nextStep s = .next t) :
    ∃ p u, t = u.ticked ∧
      (u = takeRefusal { s with pending := p } ∨ u = { s with pending := p } ∨
        ∃ i, (i.agent = .rtu → rtuNext { s with pending := p } = some i) ∧ exec i { s with pending := p } = .next u) := by
  unfold nextStep at h
  split at h
  · rename_i c rest hp
    obtain ⟨u, rfl, rfl | ⟨i, _, _, hr, he⟩⟩ := perform_next h
    · exact ⟨rest, _, rfl, .inl rfl⟩
    · exact ⟨rest, u, rfl, .inr (.inr ⟨i, hr, he⟩)⟩
  · rename_i hp
    have hs : ({ s with pending := [] } : State) = s := by cases s; simp_all
    refine ⟨[], ?_⟩
    rw [hs]
    unfold freeMove at h
    split at h
    · cases h; exact ⟨s, rfl, .inr (.inl rfl)⟩
    · rename_i i hd
      cases ha : attempt i.agent i s with
      | next u =>
        rw [ha] at h
        cases h
        rcases attempt_next ha with rfl | ⟨_, hr, he⟩
        · exact ⟨_, rfl, .inl rfl⟩
        · exact ⟨u, rfl, .inr (.inr ⟨i, hr, he⟩)⟩
      | fault f => rw [ha] at h; cases h
      | refused r => rw [ha] at h; cases h; exact ⟨s, rfl, .inr (.inl rfl)⟩

end Sys2Proof.Machine
end

