-- ==== Sys2Proof/Laws/Operands.lean ====
section
/-! SUPPORT. One lemma per shared operand function that says everything a later proof needs of it: channels, tracked pins, the sampling
order, the older values of a word, and the host's read-modify-writes. -/

namespace Sys2Proof.Machine

open Sys2Proof.Config

/-! ## Channels -/

/-- Every channel of the sweep is a logical channel (R177, R50). -/
theorem chmap_channel {step : BitVec 4} {pos : BitVec 3} {c : BitVec 4} (h : chmap step pos = some c) : c.toNat ≤ 13 := by
  revert h
  revert step pos c
  decide

/-! ## Tracked pins -/

/-- Discovery of a pin leaves the table, or appends one entry for a pin that is not tracked while there is room (R182, R183). -/
theorem trackPin_spec (maxGpio : Nat) (tab : List GpioEntry) (pin : BitVec 8) :
    trackPin maxGpio tab pin = tab ∨
      (trackPin maxGpio tab pin = tab ++ [⟨pin, none⟩] ∧ tracked tab pin = false ∧ tab.length < maxGpio) := by
  unfold trackPin
  split
  · exact .inl rfl
  · split
    · exact .inr ⟨rfl, by simpa using ‹¬ tracked tab pin = true›, ‹_›⟩
    · exact .inl rfl

/-- A pin is tracked exactly when it is some entry's (R57). -/
theorem tracked_iff (tab : List GpioEntry) (pin : BitVec 8) : tracked tab pin = true ↔ pin ∈ tab.map GpioEntry.pin := by
  simp [tracked]

/-- The pin ids of one module's bits are distinct and all below 128 (R44). -/
theorem pinId_toNat {m b : Nat} (hm : m < 4) (hb : b < 32) : (pinId m b).toNat = 32 * m + b := by
  simp only [pinId, BitVec.toNat_ofNat]
  omega

/-! ## The sampling order -/

theorem mem_numberedFrom {tab : List GpioEntry} {n k : Nat} {e : GpioEntry} (h : (k, e) ∈ numberedFrom n tab) :
    n ≤ k ∧ tab[k - n]? = some e := by
  induction tab generalizing n with
  | nil => simp [numberedFrom] at h
  | cons x rest ih =>
    simp only [numberedFrom, List.mem_cons, Prod.mk.injEq] at h
    rcases h with ⟨rfl, rfl⟩ | h
    · simp
    · obtain ⟨h1, h2⟩ := ih h
      refine ⟨by omega, ?_⟩
      rw [show k - n = (k - (n + 1)) + 1 by omega]
      simpa using h2

theorem length_numberedFrom (tab : List GpioEntry) (n : Nat) : (numberedFrom n tab).length = tab.length := by
  induction tab generalizing n with
  | nil => rfl
  | cons x rest ih => simp [numberedFrom, ih]

theorem mem_insertByPin {x y : Nat × GpioEntry} {l : List (Nat × GpioEntry)} : y ∈ insertByPin x l ↔ y = x ∨ y ∈ l := by
  induction l with
  | nil => simp [insertByPin]
  | cons z rest ih =>
    unfold insertByPin
    split
    · simp
    · simp only [List.mem_cons, ih]
      tauto

theorem length_insertByPin (x : Nat × GpioEntry) (l : List (Nat × GpioEntry)) : (insertByPin x l).length = l.length + 1 := by
  induction l with
  | nil => rfl
  | cons z rest ih =>
    unfold insertByPin
    split
    · rfl
    · simp [ih]

theorem mem_orderByPin {y : Nat × GpioEntry} {l : List (Nat × GpioEntry)} : y ∈ orderByPin l ↔ y ∈ l := by
  induction l with
  | nil => simp [orderByPin]
  | cons z rest ih => simp [orderByPin, mem_insertByPin, ih]

theorem length_orderByPin (l : List (Nat × GpioEntry)) : (orderByPin l).length = l.length := by
  induction l with
  | nil => rfl
  | cons z rest ih => simp [orderByPin, length_insertByPin, ih]

theorem length_samplingOrder (order : GpioOrder) (tab : List GpioEntry) : (samplingOrder order tab).length = tab.length := by
  cases order <;> simp [samplingOrder, length_orderByPin, length_numberedFrom]

/-- The entry sampled is the table's entry of that number, in either order (R206). -/
theorem sampledEntry_some {s : State} {k : Nat} {e : GpioEntry} (h : s.sampledEntry = some (k, e)) : s.gpioTab[k]? = some e := by
  have hm := List.mem_of_getElem? h
  have : (k, e) ∈ numberedFrom 0 s.gpioTab := by
    unfold samplingOrder at hm
    split at hm
    · exact hm
    · exact mem_orderByPin.1 hm
  simpa using (mem_numberedFrom this).2

/-- There is an entry to sample exactly while `GIDX < GPIO_N` (R206). -/
theorem sampledEntry_isSome (s : State) : s.sampledEntry.isSome = decide (s.gidx < s.gpioTab.length) := by
  unfold State.sampledEntry
  rw [← length_samplingOrder s.params.gpioOrder]
  by_cases h : s.gidx < (samplingOrder s.params.gpioOrder s.gpioTab).length
  · simp [h]
  · simp [h]

/-! ## Older values under `WEAK` -/

/-- Forgetting the `k` oldest values of a word drops them. -/
theorem staleValues_dropStale (w k : Nat) (l : List (Nat × Word)) :
    staleValues (dropStale w k l) w = (staleValues l w).drop k := by
  induction l generalizing k with
  | nil => cases k <;> simp [dropStale, staleValues]
  | cons e l ih =>
    cases k with
    | zero => simp [dropStale]
    | succ k =>
      by_cases h : e.1 = w
      · simpa [dropStale, h, staleValues] using ih k
      · simpa [dropStale, h, staleValues] using ih (k + 1)

/-- It leaves the older values of every other word. -/
theorem staleValues_dropStale_of_ne {w x : Nat} (hx : x ≠ w) (k : Nat) (l : List (Nat × Word)) :
    staleValues (dropStale w k l) x = staleValues l x := by
  induction l generalizing k with
  | nil => cases k <;> simp [dropStale]
  | cons e l ih =>
    cases k with
    | zero => simp [dropStale]
    | succ k =>
      by_cases h : e.1 = w
      · have := ih k
        simp only [dropStale, h, ite_true, staleValues] at this ⊢
        rw [List.filter_cons_of_neg (by simp [h, Ne.symm hx])]
        exact this
      · have := ih (k + 1)
        simp only [dropStale, h, ite_false, staleValues, List.filter_cons] at this ⊢
        split
        · simp [this]
        · exact this

/-! ## Read-modify-writes -/

/-- A side that forgets the older values of one word has none of it left. -/
@[simp] theorem staleValues_forget_same (w : Nat) (l : List (Nat × Word)) :
    staleValues (l.filter (fun e => !decide (e.1 = w))) w = [] := by simp [staleValues, List.filter_filter]

/-- Nor does it forget an older value of another word. -/
theorem staleValues_forget_of_ne {w x : Nat} (hx : x ≠ w) (l : List (Nat × Word)) :
    staleValues (l.filter (fun e => !decide (e.1 = w))) x = staleValues l x := by
  unfold staleValues
  rw [List.filter_filter]
  congr 1
  refine List.filter_congr fun e _ => ?_
  by_cases h : e.1 = x
  · simp [h, hx]
  · simp [h]

/-- The older values of two lists, one after the other. -/
@[simp] theorem staleValues_append (l r : List (Nat × Word)) (w : Nat) :
    staleValues (l ++ r) w = staleValues l w ++ staleValues r w := by simp [staleValues]

/-- The value a write of `w` leaves behind is an older value of `w`, and of no other word. -/
theorem staleValues_overwritten (w x : Nat) (o : Option Word) :
    staleValues (o.map (fun u => (w, u))).toList x = if x = w then o.toList else [] := by
  cases o with
  | none => simp [staleValues]
  | some u => by_cases h : x = w <;> simp [staleValues, h, Ne.symm]

/-- A `MemRead` does not depend on the output-enable registers. -/
theorem memRead_gpioOe {side : Side} {w : Nat} {s t : State} {v : Word} (h : memRead side w s = .ok (v, t)) (oe : Vector Word 4) :
    memRead side w { s with gpioOe := oe } = .ok (v, { t with gpioOe := oe }) := by
  unfold memRead at *
  split at h
  · cases h
  · rename_i hw
    rw [if_neg (by exact hw)]
    split at h
    · cases h
    · rename_i u hu
      simp only [hu]
      split at h
      · cases h
        simp
      · cases h
        cases side <;> rfl

/-- All a completed request can do: it sets one bit of the value read, and stores that word (R222, R224). -/
theorem requestBit_ok {w b : Nat} {s t : State} (h : requestBit w b s = .ok t) :
    ∃ g s1, memRead .host w s = .ok (g, s1) ∧ ∃ lh lr,
      t = { s with shm := s.shm.writeWord w (setBit g b), staleHost := lh, staleRtu := lr } := by
  unfold requestBit at h
  split at h
  · cases h
  · rename_i g s1 hr
    obtain ⟨_, _, l, rfl⟩ := memRead_ok hr
    obtain ⟨_, lh, lr, rfl, _⟩ := memWrite_ok h
    exact ⟨g, _, hr, lh, lr, rfl⟩

/-- All a completed update of a register can do: it writes one bit of one module's register (R305). -/
theorem updateRegBit_ok {m b : Nat} {r : GpioReg} {l : BitVec 1} {s t : State} (h : updateRegBit m r b l s = .ok t) :
    ∃ hm : m < 4, t = s.setGpioBank r ((s.gpioBank r).set m (putBit (s.gpioBank r)[m] b l)) := by
  unfold updateRegBit at h
  split at h
  · cases h
  · rename_i v hv
    obtain ⟨hm, rfl⟩ := regRead_ok hv
    obtain ⟨_, rfl⟩ := regWrite_ok h
    exact ⟨hm, rfl⟩

/-- All a completed run of zero writes can do: it changes shared memory and the older values only. -/
theorem zeroWords_ok {l : List Nat} {s t : State} (h : zeroWords l s = .ok t) :
    ∃ m lh lr, t = { s with shm := m, staleHost := lh, staleRtu := lr } := by
  induction l generalizing s with
  | nil =>
    cases h
    exact ⟨_, _, _, rfl⟩
  | cons w rest ih =>
    unfold zeroWords at h
    split at h
    · cases h
    · rename_i s1 h1
      obtain ⟨_, lh, lr, rfl, _⟩ := memWrite_ok h1
      obtain ⟨m, a, b, rfl⟩ := ih h
      exact ⟨m, a, b, rfl⟩

/-! ## GPIO windows (R84) -/

/-- Every register stands in its module's window, with all of its four bytes. -/
theorem gpioAddr_inWindow {p : Params} (h : p.WindowsWf) (m : Fin 4) (r : GpioReg) {k : Nat} (hk : k < 4) :
    InGpioWindow p m (gpioAddr p m r + k) := by
  obtain ⟨h1, h2, h3, _⟩ := h
  cases r <;> simp only [InGpioWindow, gpioAddr, gpioOffset] <;> omega

/-- The same register of two modules stands at two addresses. -/
theorem gpioAddr_injective {p : Params} (h : p.WindowsWf) {m n : Fin 4} {r : GpioReg} (he : gpioAddr p m r = gpioAddr p n r) :
    m = n := by
  have hb : p.gpioBase[m] = p.gpioBase[n] := Nat.add_right_cancel he
  have hn := h.2.2.2
  exact Fin.ext ((List.Nodup.getElem_inj_iff hn (hi := by simp) (hj := by simp)).1 (by simpa using hb))

/-! ## The sequencer's control -/

/-- The RTU's next operation does not depend on the commands placed. -/
@[simp] theorem rtuNext_pending (s : State) (p : List Command) : rtuNext { s with pending := p } = rtuNext s := rfl

/-- Nor on the count of steps. -/
@[simp] theorem rtuNext_ticked (s : State) : rtuNext s.ticked = rtuNext s := rfl

end Sys2Proof.Machine
end

