-- ==== Sys2Proof/Laws/Frames.lean ====
section
/-! SUPPORT. What an operation of another agent leaves of the RTU's sequencer, the front end and the timer: said once, for claims about
holds of the RTU. -/

namespace Sys2Proof.Machine

open Sys2Proof.Config

/-- The cells of the sequencer's control that only the RTU writes, and the parameters, are the same in both states. -/
structure SameControl (s t : State) : Prop where
  wstep : t.wstep = s.wstep
  repPend : t.repPend = s.repPend
  curValid : t.curValid = s.curValid
  phase : t.phase = s.phase
  params : t.params = s.params

/-- What `i`, an operation of an agent other than the RTU, keeps from `s` to `t`: the control; `SEQ` of an RTU not halted unless it is
`RTU_HALT`; a timer flag that is set; the sweep and the queue unless it is `ADC_CONV`. -/
structure OtherKeeps (i : Instr) (s t : State) : Prop where
  control : SameControl s t
  seq : i ≠ .rtuHalt → s.seq ≠ .halted → t.seq = s.seq
  flag : s.tmrFlag = true → t.tmrFlag = true
  sweep : (∀ st d, i ≠ .adcConv st d) → t.adcFifo = s.adcFifo ∧ t.adcPend = s.adcPend ∧ t.adcNext = s.adcNext

/-- The cells of `OtherKeeps`, all the same. -/
abbrev SameCells (s t : State) : Prop :=
  SameControl s t ∧ t.seq = s.seq ∧ t.tmrFlag = s.tmrFlag ∧ t.adcFifo = s.adcFifo ∧ t.adcPend = s.adcPend ∧ t.adcNext = s.adcNext

theorem SameCells.otherKeeps {s t : State} (h : SameCells s t) (i : Instr) : OtherKeeps i s t :=
  ⟨h.1, fun _ _ => h.2.1, fun hf => h.2.2.1 ▸ hf, fun _ => h.2.2.2⟩

/-- The cells are the same where they are literally those of the first state. -/
theorem SameCells.of_cells {s t : State}
    (h : (t.wstep, t.repPend, t.curValid, t.phase, t.params) = (s.wstep, s.repPend, s.curValid, s.phase, s.params))
    (h' : (t.seq, t.tmrFlag, t.adcFifo, t.adcPend, t.adcNext) = (s.seq, s.tmrFlag, s.adcFifo, s.adcPend, s.adcNext)) :
    SameCells s t := by
  simp only [Prod.mk.injEq] at h h'
  exact ⟨⟨h.1, h.2.1, h.2.2.1, h.2.2.2.1, h.2.2.2.2⟩, h'⟩

/-- A pseudocode that keeps the cells gives a step that keeps them: a fault or a refusal keeps them too. -/
theorem finish_sameCells {s t : State} {b : Except Stop State} (h : finish s b = .next t) (hb : ∀ u, b = .ok u → SameCells s u) :
    SameCells s t := by
  cases b with
  | ok u => cases h; exact hb _ rfl
  | error e => cases e <;> cases h <;> exact .of_cells rfl rfl

theorem setGpioBank_sameCells (s : State) (r : GpioReg) (b : Vector Word 4) : SameCells s (s.setGpioBank r b) := by
  cases r <;> exact .of_cells rfl rfl

theorem depositMessage_sameCells (m : Message) (s : State) : SameCells s (depositMessage m s) := by
  cases m <;> exact .of_cells rfl rfl

/-- No part of `RB_READ` touches the cells. -/
theorem ringRead_sameCells {s u : State}
    (h : (match s.rstep with | .idle => ringReadPart0 s | .part2 => ringReadPart2 s | .part3 => ringReadPart3 s) = .ok u) :
    SameCells s u := by
  split at h
  · unfold ringReadPart0 at h
    split at h
    · cases h
    · rename_i hc
      obtain ⟨_, _, ⟨l, rfl⟩, _⟩ := readCursors_ok hc
      cases h
      split <;> exact .of_cells rfl rfl
  · unfold ringReadPart2 at h
    split at h
    · cases h
    · rename_i hc
      obtain ⟨_, _, l, rfl⟩ := memRead_ok hc
      cases h
      exact .of_cells rfl rfl
  · unfold ringReadPart3 at h
    split at h
    · cases h
    · rename_i hc
      obtain ⟨_, lh, lr, rfl, _⟩ := memWrite_ok hc
      cases h
      exact .of_cells rfl rfl

/-- Configuring a pin does not touch the cells. -/
theorem configurePin_sameCells {pin : BitVec 8} {b : BitVec 1} {s u : State} (h : configurePin pin b s = .ok u) : SameCells s u := by
  unfold configurePin at h
  split at h
  · cases h
  · rename_i h1
    obtain ⟨_, rfl⟩ := updateRegBit_ok h1
    split at h
    · cases h
    · rename_i h2
      cases h
      split at h2
      · obtain ⟨_, _, _, lh, lr, rfl⟩ := requestBit_ok h2
        exact .of_cells rfl rfl
      · cases h2
        exact .of_cells rfl rfl

/-- `CFG_PIN` does not touch the cells. -/
theorem execCfgPin_sameCells {pin : BitVec 8} {b : BitVec 1} {s t : State} (h : execCfgPin pin b s = .next t) : SameCells s t := by
  refine finish_sameCells (guarded_next h).2 fun u hu => ?_
  unfold pinChecked at hu
  split at hu
  · cases hu
  · split at hu
    · cases hu
    · split at hu
      · cases hu; exact .of_cells rfl rfl
      · split at hu
        · cases hu; exact .of_cells rfl rfl
        · split at hu
          · exact configurePin_sameCells hu
          · cases hu; exact .of_cells rfl rfl

/-- `REG_ADC` does not touch the cells. -/
theorem execRegAdc_sameCells {ch : BitVec 4} {s t : State} (h : execRegAdc ch s = .next t) : SameCells s t := by
  refine finish_sameCells (guarded_next h).2 fun u hu => ?_
  split at hu
  · cases hu
  · unfold registerChannel at hu
    split at hu
    · cases hu; exact .of_cells rfl rfl
    · split at hu
      · cases hu
      · rename_i h1
        obtain ⟨_, _, _, lh, lr, rfl⟩ := requestBit_ok h1
        cases hu
        exact .of_cells rfl rfl

/-- `SET_OUT` does not touch the cells. -/
theorem execSetOut_sameCells {pin : BitVec 8} {b : BitVec 1} {s t : State} (h : execSetOut pin b s = .next t) : SameCells s t := by
  refine finish_sameCells (guarded_next h).2 fun u hu => ?_
  unfold pinChecked at hu
  split at hu
  · cases hu
  · split at hu
    · cases hu
    · obtain ⟨_, rfl⟩ := updateRegBit_ok hu
      exact setGpioBank_sameCells _ _ _

/-- `PIN_SET` does not touch the cells. -/
theorem execPinSet_sameCells {pin : BitVec 8} {b : BitVec 1} {s t : State} (h : execPinSet pin b s = .next t) : SameCells s t := by
  refine finish_sameCells h fun u hu => ?_
  split at hu
  · cases hu
  · unfold setPinLevel at hu
    split at hu
    · cases hu
    · obtain ⟨_, rfl⟩ := regWrite_ok hu
      exact setGpioBank_sameCells _ _ _

/-- All an operation of another agent can do to the cells of the sequencer's control, the sweep and the timer flag. -/
theorem exec_otherKeeps {i : Instr} {s t : State} (ha : i.agent ≠ .rtu) (h : exec i s = .next t) : OtherKeeps i s t := by
  cases i
  case rbInit =>
    refine (finish_sameCells (guarded_next h).2 fun u hu => ?_).otherKeeps _
    obtain ⟨m, a, b, rfl⟩ := zeroWords_ok hu
    exact .of_cells rfl rfl
  case rbRead => exact (finish_sameCells h fun u hu => ringRead_sameCells hu).otherKeeps _
  case decode =>
    refine (finish_sameCells (guarded_next h).2 fun u hu => ?_).otherKeeps _
    split at hu
    · cases hu; exact depositMessage_sameCells _ _
    · cases hu
  case mapRegs =>
    refine (finish_sameCells (guarded_next h).2 fun u hu => ?_).otherKeeps _
    cases hu
    split <;> exact .of_cells rfl rfl
  case cfgPin => exact (execCfgPin_sameCells h).otherKeeps _
  case regAdc => exact (execRegAdc_sameCells h).otherKeeps _
  case setOut => exact (execSetOut_sameCells h).otherKeeps _
  case sessionEnd =>
    refine (finish_sameCells (guarded_next h).2 fun u hu => ?_).otherKeeps _
    cases hu
    exact .of_cells rfl rfl
  case tmrFire => cases h; exact ⟨⟨rfl, rfl, rfl, rfl, rfl⟩, fun _ _ => rfl, fun _ => rfl, fun _ => ⟨rfl, rfl, rfl⟩⟩
  case adcConv st d =>
    obtain ⟨_, h⟩ := guarded_next h
    cases h
    exact ⟨⟨rfl, rfl, rfl, rfl, rfl⟩, fun _ _ => rfl, id, fun hn => absurd rfl (hn st d)⟩
  case pinSet => exact (execPinSet_sameCells h).otherKeeps _
  case rtuStart =>
    obtain ⟨he, h⟩ := guarded_next h
    cases h
    split <;> exact ⟨⟨rfl, rfl, rfl, rfl, rfl⟩, fun _ hn => absurd he.2 hn, id, fun _ => ⟨rfl, rfl, rfl⟩⟩
  case rtuHalt =>
    obtain ⟨_, h⟩ := guarded_next h
    cases h
    exact ⟨⟨rfl, rfl, rfl, rfl, rfl⟩, fun hn => absurd rfl hn, id, fun _ => ⟨rfl, rfl, rfl⟩⟩
  case msgGpio =>
    exact (finish_sameCells (guarded_next h).2 fun u hu => by cases hu; exact depositMessage_sameCells _ _).otherKeeps _
  case msgAdc =>
    exact (finish_sameCells (guarded_next h).2 fun u hu => by cases hu; exact depositMessage_sameCells _ _).otherKeeps _
  all_goals exact absurd rfl ha

end Sys2Proof.Machine
end

