-- ==== Sys2Proof/Laws/PerInstr.lean ====
section
/-! SUPPORT. Statements made per instruction: family `TableRow`, that the word of an instruction fits its own row of the opcode
table, and the operands of a decoded word come from its fields alone. -/

namespace Sys2Proof.Laws.TableRow

open Sys2Proof

/-- The match value of the instruction's row in the opcode table. -/
def rowMatch : Instr → Word
  | .rbInit => 0x01000000
  | .rbWrite => 0x02000000
  | .rbRead => 0x03000000
  | .encGpio _ _ => 0x10000000
  | .encAdc _ _ => 0x11000000
  | .decode => 0x12000000
  | .seqInit => 0x20000000
  | .muxAdv => 0x21000000
  | .adcTrig => 0x22000000
  | .adcPop => 0x23000000
  | .adcEnd => 0x24000000
  | .gpioEnd => 0x25000000
  | .discAdc => 0x26000000
  | .discGpio => 0x27000000
  | .tmrWait => 0x28000000
  | .fastAcc => 0x30000000
  | .fastAvg => 0x31000000
  | .slowCmp => 0x32000000
  | .adcSkip => 0x33000000
  | .gpioCmp => 0x34000000
  | .mapRegs => 0x40000000
  | .cfgPin _ _ => 0x41000000
  | .regAdc _ => 0x42000000
  | .setOut _ _ => 0x43000000
  | .sessionEnd => 0x44000000
  | .tmrFire => 0x50000000
  | .adcConv _ _ => 0x51000000
  | .pinSet _ _ => 0x52000000
  | .rtuStart => 0x53000000
  | .rtuHalt => 0x54000000
  | .msgGpio _ _ => 0x00000000
  | .msgAdc _ _ => 0x80000000

/-- The lowest bit of the row's mask: every mask of the table covers the bits from there to bit 31. -/
def rowLow : Instr → Nat
  | .encGpio _ _ => 9
  | .cfgPin _ _ => 9
  | .setOut _ _ => 9
  | .pinSet _ _ => 9
  | .encAdc _ _ => 16
  | .adcConv _ _ => 16
  | .regAdc _ => 4
  | .msgGpio _ _ => 31
  | .msgAdc _ _ => 31
  | .rbInit => 0
  | .rbWrite => 0
  | .rbRead => 0
  | .decode => 0
  | .seqInit => 0
  | .muxAdv => 0
  | .adcTrig => 0
  | .adcPop => 0
  | .adcEnd => 0
  | .gpioEnd => 0
  | .discAdc => 0
  | .discGpio => 0
  | .tmrWait => 0
  | .fastAcc => 0
  | .fastAvg => 0
  | .slowCmp => 0
  | .adcSkip => 0
  | .gpioCmp => 0
  | .mapRegs => 0
  | .sessionEnd => 0
  | .tmrFire => 0
  | .rtuStart => 0
  | .rtuHalt => 0

/-- The word of the instruction agrees with its row's match on every bit the row's mask covers. -/
def Statement (i : Instr) : Prop := ∀ k, rowLow i ≤ k → (encode i).getLsbD k = (rowMatch i).getLsbD k

/-- A word and a match that agree after shifting out the operand bits agree on all the others. -/
theorem of_shift {i : Instr} (h : encode i >>> rowLow i = rowMatch i >>> rowLow i) : Statement i := by
  intro k hk
  have := congrArg (fun w => w.getLsbD (k - rowLow i)) h
  simpa [BitVec.getLsbD_ushiftRight, Nat.add_sub_cancel' hk] using this

/-- A field is shifted out. -/
theorem shifted_out {n low m : Nat} (x : BitVec n) (h : low + n ≤ m) : fieldAt x low >>> m = 0 := by
  apply BitVec.eq_of_getLsbD_eq
  intro i hi
  simp [bit_fieldAt, BitVec.getLsbD_of_ge x (m + i - low) (by omega)]

theorem shift_formP (o pin : BitVec 8) (b : BitVec 1) : formP o pin b >>> 9 = fieldAt o 24 >>> 9 := by
  simp [formP, BitVec.ushiftRight_or_distrib, shifted_out]

theorem shift_formA (o : BitVec 8) (ch : BitVec 4) (val : BitVec 12) : formA o ch val >>> 16 = fieldAt o 24 >>> 16 := by
  simp [formA, BitVec.ushiftRight_or_distrib, shifted_out]

theorem shift_formK (o : BitVec 8) (ch : BitVec 4) : formK o ch >>> 4 = fieldAt o 24 >>> 4 := by
  simp [formK, BitVec.ushiftRight_or_distrib, shifted_out]

theorem rbInit : Statement .rbInit := of_shift (by decide)
theorem rbWrite : Statement .rbWrite := of_shift (by decide)
theorem rbRead : Statement .rbRead := of_shift (by decide)
theorem encGpio (pin : BitVec 8) (b : BitVec 1) : Statement (.encGpio pin b) :=
  of_shift ((shift_formP _ _ _).trans (show fieldAt 16#8 24 >>> 9 = 0x10000000#32 >>> 9 by decide))
theorem encAdc (ch : BitVec 4) (val : BitVec 12) : Statement (.encAdc ch val) :=
  of_shift ((shift_formA _ _ _).trans (show fieldAt 17#8 24 >>> 16 = 0x11000000#32 >>> 16 by decide))
theorem decode : Statement .decode := of_shift (by decide)
theorem seqInit : Statement .seqInit := of_shift (by decide)
theorem muxAdv : Statement .muxAdv := of_shift (by decide)
theorem adcTrig : Statement .adcTrig := of_shift (by decide)
theorem adcPop : Statement .adcPop := of_shift (by decide)
theorem adcEnd : Statement .adcEnd := of_shift (by decide)
theorem gpioEnd : Statement .gpioEnd := of_shift (by decide)
theorem discAdc : Statement .discAdc := of_shift (by decide)
theorem discGpio : Statement .discGpio := of_shift (by decide)
theorem tmrWait : Statement .tmrWait := of_shift (by decide)
theorem fastAcc : Statement .fastAcc := of_shift (by decide)
theorem fastAvg : Statement .fastAvg := of_shift (by decide)
theorem slowCmp : Statement .slowCmp := of_shift (by decide)
theorem adcSkip : Statement .adcSkip := of_shift (by decide)
theorem gpioCmp : Statement .gpioCmp := of_shift (by decide)
theorem mapRegs : Statement .mapRegs := of_shift (by decide)
theorem cfgPin (pin : BitVec 8) (b : BitVec 1) : Statement (.cfgPin pin b) :=
  of_shift ((shift_formP _ _ _).trans (show fieldAt 65#8 24 >>> 9 = 0x41000000#32 >>> 9 by decide))
theorem regAdc (ch : BitVec 4) : Statement (.regAdc ch) :=
  of_shift ((shift_formK _ _).trans (show fieldAt 66#8 24 >>> 4 = 0x42000000#32 >>> 4 by decide))
theorem setOut (pin : BitVec 8) (b : BitVec 1) : Statement (.setOut pin b) :=
  of_shift ((shift_formP _ _ _).trans (show fieldAt 67#8 24 >>> 9 = 0x43000000#32 >>> 9 by decide))
theorem sessionEnd : Statement .sessionEnd := of_shift (by decide)
theorem tmrFire : Statement .tmrFire := of_shift (by decide)
theorem adcConv (step : BitVec 4) (data : BitVec 12) : Statement (.adcConv step data) :=
  of_shift ((shift_formA _ _ _).trans (show fieldAt 81#8 24 >>> 16 = 0x51000000#32 >>> 16 by decide))
theorem pinSet (pin : BitVec 8) (b : BitVec 1) : Statement (.pinSet pin b) :=
  of_shift ((shift_formP _ _ _).trans (show fieldAt 82#8 24 >>> 9 = 0x52000000#32 >>> 9 by decide))
theorem rtuStart : Statement .rtuStart := of_shift (by decide)
theorem rtuHalt : Statement .rtuHalt := of_shift (by decide)
theorem msgGpio (pin : BitVec 8) (level : BitVec 1) : Statement (.msgGpio pin level) :=
  of_shift (by simp [encode, encodeMessage, rowLow, rowMatch, BitVec.ushiftRight_or_distrib, shifted_out]; decide)
theorem msgAdc (channel : BitVec 4) (value : BitVec 12) : Statement (.msgAdc channel value) :=
  of_shift (by simp [encode, encodeMessage, rowLow, rowMatch, BitVec.ushiftRight_or_distrib, shifted_out]; decide)

end Sys2Proof.Laws.TableRow
end

