-- ==== Sys2Proof/Laws/Runs.lean ====
section
/-! SUPPORT. What runs and expansions can do: a placed command is performed by the next step, and what every performed command keeps
is kept by a finite run and by an expansion under any schedule. -/

namespace Sys2Proof.Machine

/-- A step of a state with a command placed performs it. -/
theorem step_cons (s : State) (c : Command) (rest : List Command) :
    step { s with pending := c :: rest } = perform c { s with pending := rest } := rfl

/-- A step of a state in which a command has been placed performs it on that state. -/
theorem step_place (s : State) (c : Command) : step (s.place c) = perform c s := rfl

/-- A run that performs a command of a listing goes on with the rest of it. -/
theorem runProgram_cons {c : Command} {rest : List Command} {s u : State} {ms : List Word}
    (h : runProgram (c :: rest) s = some (ms, u)) :
    ∃ t ms', perform c { s with pending := rest } = .next t ∧ runProgram rest t = some (ms', u) ∧
      ms = (readMessage c s t).toList ++ ms' := by
  simp only [runProgram, step_cons] at h
  split at h
  · rename_i t ht
    obtain ⟨⟨ms', v⟩, hr, he⟩ := Option.map_eq_some_iff.1 h
    cases he
    exact ⟨t, ms', ht, hr, rfl⟩
  · cases h
  · cases h

/-- What every performed command keeps, and the list of placed commands does not matter to, a finite run keeps. -/
theorem runProgram_keeps {P : State → Prop} (hp : ∀ s l, P s → P { s with pending := l })
    (hc : ∀ c s t, perform c s = .next t → P s → P t) :
    ∀ (program : List Command) {s u : State} {ms : List Word}, runProgram program s = some (ms, u) → P s → P u
  | [], s, u, ms, h, hs => by cases h; exact hp s _ hs
  | _ :: rest, s, u, ms, h, hs => by
    obtain ⟨t, ms', ht, hr, _⟩ := runProgram_cons h
    exact runProgram_keeps hp hc rest hr (hc _ _ _ ht (hp s _ hs))

/-- What every performed command keeps, the other agents' moves keep. -/
theorem othersMove_keeps {P : State → Prop} (hc : ∀ c s t, perform c s = .next t → P s → P t) {a : Agent} :
    ∀ (cs : List Command) {s t : State}, othersMove a cs s = some t → P s → P t
  | [], s, t, h, hs => by cases h; exact hs
  | c :: rest, s, t, h, hs => by
    unfold othersMove at h
    split at h
    · cases h
    · split at h
      · rename_i u hu
        exact othersMove_keeps hc rest h (hc c s u hu hs)
      · cases h
      · cases h

/-- What every performed command and every operation keeps holds where an expansion ends, whatever the schedule. -/
theorem carryOut_keeps {α : Type} {P : State → Prop} (e : Expansion α)
    (hc : ∀ c s t, perform c s = .next t → P s → P t) (ha : ∀ i s t, act i s = .next t → P s → P t) :
    ∀ (schedule : List (List Command)) {a b : α} {s t : State}, carryOut e schedule a s = .done b t → P s → P t
  | [], a, b, s, t, h, _ => by cases h
  | cs :: rest, a, b, s, t, h, hs => by
    unfold carryOut at h
    split at h
    · cases h
    · rename_i u hu
      have hu' := othersMove_keeps hc cs hu hs
      split at h
      · exact carryOut_keeps e hc ha rest h hu'
      · split at h
        · cases h
        · cases h
        · rename_i v hv
          have hv' := ha _ u v hv hu'
          split at h
          · exact carryOut_keeps e hc ha rest h hv'
          · split at h
            · exact carryOut_keeps e hc ha rest h hv'
            · cases h; exact hv'

end Sys2Proof.Machine
end

