-- ==== Sys2Proof/Tests/Slice0.lean ====
section
/-! SUPPORT. Tests of the model against the spec's own examples and vectors (95_test_vectors.md, the examples of the rules), and for
each statement with hypotheses a concrete state that meets them. A free value is never tested for. -/

namespace Sys2Proof.Tests

open Sys2Proof.Machine Sys2Proof.Config

/-! ## Helpers -/

/-- Shared memory holding these words. -/
def cells (l : List (Nat × Word)) : Memory := l.foldl (fun m e => m.writeWord e.1 e.2) []

/-- After `RB_INIT` and `MAP_REGS`: cursors and interest words zero. -/
def ready : State :=
  { State.reset with
    shm := cells [(1024, 0), (1025, 0), (1026, 0), (1027, 0), (1028, 0), (1029, 0), (1030, 0)]
    hmapped := true }

/-- The RTU runs in a phase, nothing pending. -/
def inPhase (p : Phase) : State := { ready with seq := .run, phase := p }

/-- A popped pair of an enabled channel awaits the comparator. -/
def withPair (c : BitVec 4) (raw : BitVec 12) (pos : BitVec 3) : State :=
  { inPhase .drain with
    curValid := true, curCh := c, curRaw := raw, muxPos := pos, adcEn := Vector.replicate 14 true }

/-- The ring's cursors, and one slot. -/
def ring (h t : Word) (i : Nat) (v : Word) : State := { ready with shm := cells [(1024, h), (1025, t), (i, v)] }

/-- What an operation leaves in part of the state. -/
def after {α : Type} (i : Instr) (s : State) (f : State → α) : Option α :=
  match exec i s with
  | .next t => some (f t)
  | _ => none

/-- What a step leaves in part of the state. -/
def afterStep {α : Type} (s : State) (f : State → α) : Option α :=
  match step s with
  | .next t => some (f t)
  | _ => none

/-! ## Well-formedness: an ill-formed term for each check -/

theorem test_wf_cfgPin : (Instr.cfgPin 128 1).wellFormed = false ∧ (Instr.cfgPin 127 1).wellFormed = true := by decide
theorem test_wf_setOut : (Instr.setOut 128 0).wellFormed = false ∧ (Instr.setOut 127 0).wellFormed = true := by decide
theorem test_wf_pinSet : (Instr.pinSet 255 0).wellFormed = false ∧ (Instr.pinSet 127 0).wellFormed = true := by decide
theorem test_wf_regAdc : (Instr.regAdc 14).wellFormed = false ∧ (Instr.regAdc 13).wellFormed = true := by decide
theorem test_wf_adcConv : (Instr.adcConv 7 0).wellFormed = false ∧ (Instr.adcConv 6 0).wellFormed = true := by decide

/-! ## Decoding: each constructor from the word the tables R111 to R117, R101 and R102 give -/

/-- The ring family, words of R130, R132, R135. -/
theorem test_decode_ring :
    decodeCommand 0x01000000 = .op .rbInit ∧ decodeCommand 0x02000000 = .op .rbWrite ∧
      decodeCommand 0x03000000 = .op .rbRead := by decide

/-- The codec family, words of R117's examples, vectors MC2 and MC4, and R154. -/
theorem test_decode_codec :
    decodeCommand 0x1000010B = .op (.encGpio 11 1) ∧ decodeCommand 0x100001FF = .op (.encGpio 255 1) ∧
      decodeCommand 0x1100ABCD = .op (.encAdc 13 0xABC) ∧ decodeCommand 0x1100FFFF = .op (.encAdc 15 4095) ∧
      decodeCommand 0x12000000 = .op .decode := by decide

/-- The sequencer family, words of R171 to R184. -/
theorem test_decode_sequencer :
    decodeCommand 0x20000000 = .op .seqInit ∧ decodeCommand 0x21000000 = .op .muxAdv ∧
      decodeCommand 0x22000000 = .op .adcTrig ∧ decodeCommand 0x23000000 = .op .adcPop ∧
      decodeCommand 0x24000000 = .op .adcEnd ∧ decodeCommand 0x25000000 = .op .gpioEnd ∧
      decodeCommand 0x26000000 = .op .discAdc ∧ decodeCommand 0x27000000 = .op .discGpio ∧
      decodeCommand 0x28000000 = .op .tmrWait := by decide

/-- The comparator family, words of R200 to R206. -/
theorem test_decode_comparator :
    decodeCommand 0x30000000 = .op .fastAcc ∧ decodeCommand 0x31000000 = .op .fastAvg ∧
      decodeCommand 0x32000000 = .op .slowCmp ∧ decodeCommand 0x33000000 = .op .adcSkip ∧
      decodeCommand 0x34000000 = .op .gpioCmp := by decide

/-- The host family, words of R220 to R228 and vectors HM4, HM7, HM9. -/
theorem test_decode_host :
    decodeCommand 0x40000000 = .op .mapRegs ∧ decodeCommand 0x4100010B = .op (.cfgPin 11 1) ∧
      decodeCommand 0x41000028 = .op (.cfgPin 40 0) ∧ decodeCommand 0x4200000D = .op (.regAdc 13) ∧
      decodeCommand 0x4300017F = .op (.setOut 127 1) ∧ decodeCommand 0x44000000 = .op .sessionEnd := by decide

/-- The external agents, words of R240 to R248. -/
theorem test_decode_agents :
    decodeCommand 0x50000000 = .op .tmrFire ∧ decodeCommand 0x51004000 = .op (.adcConv 0 0x400) ∧
      decodeCommand 0x51001235 = .op (.adcConv 5 0x123) ∧ decodeCommand 0x5200010B = .op (.pinSet 11 1) ∧
      decodeCommand 0x53000000 = .op .rtuStart ∧ decodeCommand 0x54000000 = .op .rtuHalt := by decide

/-- Vectors CW1 to CW5: words that spell nothing. -/
theorem test_decode_illegal :
    decodeCommand 0x00000000 = .illegalCommand ∧ decodeCommand 0x02000001 = .illegalCommand ∧
      decodeCommand 0x41000200 = .illegalCommand ∧ decodeCommand 0x42000010 = .illegalCommand ∧
      decodeCommand 0x55000000 = .illegalCommand := by decide

/-- Formats A and S: the lowest of the zero bits. -/
theorem test_decode_illegal_value :
    decodeCommand 0x11010000 = .illegalCommand ∧ decodeCommand 0x51010000 = .illegalCommand := by decide

/-- The message words of R106 and of vector V-SRC-7. -/
theorem test_decode_message :
    decodeMessage 0x0000010B = .gpio 11 1 ∧ decodeMessage 0x0000000B = .gpio 11 0 ∧ decodeMessage 0x8000ABCD = .adc 13 0xABC ∧
      decodeMessage 0x7FFFFEFF = .gpio 0xFF 0 ∧ decodeMessage 0xFFFFFFFF = .adc 15 0xFFF ∧
      decodeMessage 0x80FF0001 = .adc 1 0 := by decide

/-- The message rows of the opcode table. -/
theorem test_decode_rows :
    decodeTableWord 32 0x0000010B = some (.msgGpio 11 1) ∧ decodeTableWord 32 0x8000FFFF = some (.msgAdc 15 4095) ∧
      decodeTableWord 32 0x01000000 = some .rbInit := by decide

/-- The encoders against the words of R117 and R106. -/
theorem test_encode :
    encode (.cfgPin 11 1) = 0x4100010B ∧ encode (.regAdc 13) = 0x4200000D ∧ encode (.adcConv 5 0x123) = 0x51001235 ∧
      encode (.encAdc 13 0xABC) = 0x1100ABCD ∧ encode (.msgAdc 0 60) = 0x800003C0 ∧ encode (.msgGpio 255 1) = 0x000001FF := by
  decide

/-- The line of R120's example. -/
theorem test_spelling : (Instr.cfgPin 11 1).spelling = "HOST: CFG_PIN 11, IN" := by decide

/-! ## Steps -/

/-- Vector CW8: a legal word performed by another agent. -/
theorem test_wrong_agent :
    afterStep { ready with pending := [⟨.host, 0x02000000⟩] } (fun t => (t.refused, t.pending)) = some (true, []) := by decide

/-- A placed instruction is the one the next step runs. -/
theorem test_fetch_first : afterStep (State.reset.withFetchWord 32 0x21000000) (fun t => (t.muxPos, t.phase)) = some (1, .trig) := by
  decide

/-! ## Ring -/

/-- Vector RB10. -/
theorem test_rbInit :
    after .rbInit (ring 5 2047 3 7) (fun t => [t.word 1024, t.word 1025, t.word 1026, t.word 1030, t.word 3]) =
      some [some 0, some 0, some 0, some 0, some 7] := by decide

/-- Vector RB4: a full ring drops the message. -/
theorem test_rbWrite_full :
    after .rbWrite { ring 0 1024 0 0 with seq := .run, wstep := .part1, msg := 9 } (fun t => (t.wstep, t.shm)) =
      some (.idle, (ring 0 1024 0 0).shm) := by decide

/-- Vector RB2, last part: `TAIL` wraps from 2047 to 0. -/
theorem test_rbWrite_wrap :
    after .rbWrite { ring 1500 2047 1023 0x10B with seq := .run, wstep := .part3, wtail := 2047 } (fun t => (t.word 1025, t.wstep)) =
      some (some 0, .idle) := by decide

/-- Vector RB8, part 2. -/
theorem test_rbRead_slot :
    after .rbRead { ring 2047 0 1023 0xABC with rstep := .part2, rhead := 2047 } (fun t => (t.rdata, t.rstep, t.rvalid)) =
      some (0xABC, .part3, false) := by decide

/-- Vector RB7: an empty ring. -/
theorem test_rbRead_empty :
    after .rbRead { ring 5 5 0 1 with rvalid := true, rdata := 3 } (fun t => (t.rvalid, t.rdata, t.rstep, t.word 1024)) =
      some (false, 3, .idle, some 5) := by decide

/-- Vectors RB5 and RB6: the faults of the cursors. -/
theorem test_cursor_faults :
    after .rbWrite { ring 0 2048 0 0 with seq := .run, wstep := .part1 } (fun t => (t.faults, t.wstep)) =
        some ([.cursorRange 1025 2048], .part1) ∧
      after .rbWrite { ready with shm := cells [(1025, 0)], seq := .run, wstep := .part1 } (fun t => t.faults) =
        some [.uninit (.word 1024)] := by decide

/-! ## Codec -/

/-- Vectors MC2 and MC4. -/
theorem test_encoders :
    after (.encGpio 255 1) { ready with seq := .run, repPend := .gpio } (fun t => (t.msg, t.wstep, t.repPend)) =
        some (0x000001FF, .part1, .none) ∧
      after (.encAdc 15 4095) { ready with seq := .run, repPend := .adc } (fun t => (t.msg, t.wstep, t.repPend)) =
        some (0x8000FFFF, .part1, .none) := by decide

/-- Vectors MC5 to MC7. -/
theorem test_encoder_ranges :
    encGpioWord 256 0 = .error (.raise (.encRange 256 0)) ∧ encGpioWord 3 2 = .error (.raise (.encRange 3 2)) ∧
      encAdcWord 16 0 = .error (.raise (.encRange 16 0)) ∧ encAdcWord 0 4096 = .error (.raise (.encRange 0 4096)) := by
  refine ⟨rfl, rfl, rfl, rfl⟩

/-- Vector MC8, and vector MC12. -/
theorem test_decode :
    after .decode { ready with rdata := 0x8000ABCD, rdataW := true } (fun t => (t.decKind, t.decCh, t.decVal, t.decPin)) =
        some (.adc, 13, 0xABC, 0) ∧
      after .decode ready (fun t => t.faults) = some [.uninit .rdata] := by decide

/-- Vector MC10, through the message row. -/
theorem test_message_rows :
    afterStep (ready.withFetchWord 32 0x00000100) (fun t => (t.decKind, t.decPin, t.decLvl)) = some (.gpio, 0, 1) ∧
      afterStep (ready.withFetchWord 32 0x80000009) (fun t => (t.decKind, t.decCh, t.decVal)) = some (.adc, 9, 0) := by decide

/-! ## Sequencer -/

/-- Vector SQ1. -/
theorem test_seqInit :
    after .seqInit { ready with seq := .init, tmrFlag := true, adcFifo := [⟨9, 9⟩], adcPend := 3 }
      (fun t => ((t.muxPos, t.phase, t.seq), (t.tmrFlag, t.adcFifo, t.adcPend))) =
      some ((7, .mux, .run), (false, [], 0)) := by decide

/-- Vectors SQ2 and SQ3. -/
theorem test_muxAdv :
    after .muxAdv { inPhase .mux with muxPos := 7 } (fun t => (t.muxSel, t.phase)) = some (0, .trig) ∧
      after .muxAdv { inPhase .mux with muxPos := 3 } (fun t => t.muxSel) = some 4 := by decide

/-- Vectors SQ4 and SQ5. -/
theorem test_adcTrig :
    after .adcTrig (inPhase .trig) (fun t => (t.adcPend, t.adcNext, t.phase)) = some (7, 0, .drain) ∧
      after .adcTrig { inPhase .trig with adcPend := 2 } (fun t => (t.faults, t.phase)) = some ([.adcBusy 2], .trig) := by decide

/-- Vectors SQ6 to SQ9. -/
theorem test_adcPop :
    after .adcPop { inPhase .drain with adcFifo := [⟨5, 0x123⟩] } (fun t => (t.curCh, t.curRaw, t.curValid)) =
        some (13, 0x123, true) ∧
      after .adcPop { inPhase .drain with adcFifo := [⟨5, 1⟩], muxPos := 7 } (fun t => t.curCh) = some 12 ∧
      after .adcPop { inPhase .drain with adcFifo := [⟨6, 1⟩], muxPos := 3 } (fun t => t.curCh) = some 5 ∧
      after .adcPop { inPhase .drain with adcFifo := [⟨7, 1⟩] } (fun t => (t.faults, t.adcFifo)) =
        some ([.adcStep 7], [⟨7, 1⟩]) := by decide

/-- Vectors SQ10 and SQ11. -/
theorem test_adcEnd :
    rtuNext { inPhase .drain with adcPend := 3, params := { Params.default with adcMode := .sync } } = none ∧
      after .adcEnd { inPhase .drain with adcPend := 3, gidx := 2 } (fun t => (t.phase, t.gidx)) = some (.gpio, 0) := by decide

/-- The example of R179. -/
theorem test_gpioEnd :
    after .gpioEnd { inPhase .gpio with gpioTab := [⟨11, none⟩], gidx := 1 } (fun t => (t.phase, t.gidx)) = some (.disca, 0) := by
  decide

/-- Vectors SQ12 and SQ13. -/
theorem test_discAdc :
    after .discAdc { inPhase .disca with shm := cells [(1030, 0x00002041)] }
        (fun t => (t.adcEn.toList.map Bool.toNat, t.adcLast[6], t.phase)) =
        some ([1, 0, 0, 0, 0, 0, 1, 0, 0, 0, 0, 0, 0, 1], none, .discg) ∧
      after .discAdc { inPhase .disca with shm := cells [(1030, 0xFFFFC000)] } (fun t => t.adcEn) =
        some (Vector.replicate 14 false) := by decide

/-- Vectors SQ14 and SQ15. -/
theorem test_discGpio :
    after .discGpio { inPhase .discg with gidx := 1, shm := cells [(1027, 0x00000101)] }
        (fun t => (t.gpioTab, t.gidx, t.phase)) = some ([⟨32, none⟩, ⟨40, none⟩], 2, .discg) ∧
      after .discGpio { inPhase .discg with gidx := 3, shm := cells [(1029, 0x80000000)] }
        (fun t => (t.gpioTab, t.gidx, t.phase)) = some ([⟨127, none⟩], 0, .wait) := by decide

/-- Vectors SQ17 and SQ18. -/
theorem test_tmrWait :
    rtuNext (inPhase .wait) = none ∧
      after .tmrWait { inPhase .wait with tmrFlag := true } (fun t => (t.tmrFlag, t.phase)) = some (false, .mux) := by decide

/-! ## Comparator -/

/-- Vectors CP4 and CP5. -/
theorem test_fastAcc :
    after .fastAcc (withPair 0 0xFFF 2) (fun t => (t.adcBuf[0].toList, t.curValid)) = some ([0, 0, 127, 0, 0, 0, 0, 0], false) ∧
      after .fastAcc (withPair 5 0xB1F 7) (fun t => (t.adcBuf[5][7], t.curValid, t.curStage)) = some (88, true, .avg) := by decide

/-- Vector V-SRC-8: the average of 32 to 88 is 60, reported once. -/
theorem test_fastAvg :
    after .fastAvg { withPair 0 0 7 with curStage := .avg, adcBuf := Vector.replicate 6 #v[32, 40, 48, 56, 64, 72, 80, 88] }
        (fun t => (t.repPend, t.repVal, t.adcLast[0], t.curValid)) = some (.adc, 60, some 60, false) ∧
      after .fastAvg
        { withPair 0 0 7 with
          curStage := .avg, adcBuf := Vector.replicate 6 #v[32, 40, 48, 56, 64, 72, 80, 88]
          adcLast := Vector.replicate 14 (some 60) }
        (fun t => (t.repPend, t.curValid)) = some (.none, false) := by decide

/-- Vectors CP9 and CP10. -/
theorem test_slowCmp :
    after .slowCmp { withPair 6 4095 1 with adcLast := Vector.replicate 14 (some 4095) } (fun t => (t.repPend, t.curValid)) =
        some (.none, false) ∧
      after .slowCmp (withPair 9 0 4) (fun t => (t.repPend, t.repCh, t.repVal, t.adcLast[9])) = some (.adc, 9, 0, some 0) := by
  decide

/-- Vector CP11. -/
theorem test_adcSkip :
    after .adcSkip { withPair 3 5 0 with adcEn := Vector.replicate 14 false } (fun t => (t.curValid, t.repPend)) =
      some (false, .none) := by decide

/-- Vectors CP12 and CP14. -/
theorem test_gpioCmp :
    after .gpioCmp { inPhase .gpio with gpioTab := [⟨11, none⟩] }
        (fun t => (t.repPend, t.repPin, t.repLvl, t.gpioTab, t.gidx)) = some (.gpio, 11, 0, [⟨11, some 0⟩], 1) ∧
      after .gpioCmp
        { inPhase .gpio with gpioTab := [⟨40, none⟩, ⟨11, none⟩], params := { Params.default with gpioOrder := .pinId } }
        (fun t => (t.repPin, t.gpioTab)) = some (11, [⟨40, none⟩, ⟨11, some 0⟩]) := by decide

/-! ## Host manager -/

/-- R220: every other cell is kept, whatever the draw. -/
theorem test_mapRegs : after .mapRegs ready (fun t => (t.gpioOe, t.seq)) = some (ready.gpioOe, .halted) := by
  unfold after exec execMapRegs guarded
  cases freeMapOutcome ready.tick <;> decide

/-- Vectors HM2, HM3 and HM6. -/
theorem test_cfgPin :
    after (.cfgPin 11 1) { ready with hmapped := false } (fun t => (t.refused, t.hstatus)) = some (true, .ok) ∧
      after (.cfgPin 128 1) ready (fun t => t.refused) = some true ∧
      after (.cfgPin 40 1) { ready with hregPin := ready.hregPin.set 40 .output } (fun t => (t.hstatus, t.refused)) =
        some (.pinConflictError, false) := by decide

/-- What a pseudocode that completes leaves in part of the state. -/
def completed {α : Type} (r : Except Stop State) (f : State → α) : Option α :=
  match r with
  | .ok t => some (f t)
  | .error _ => none

/-- The effect of R222's example, once the path is written. -/
theorem test_configurePin_input :
    completed (configurePin 11 1 { ready with gpioOe := Vector.replicate 4 0 }) (fun t => (t.gpioOe[0], t.word 1026)) =
      some (0x800, some 0x800) := by decide

/-- The effect of vector HM4, once the path is written. -/
theorem test_configurePin_output :
    completed (configurePin 40 0 ready) (fun t => (t.gpioOe[1], t.word 1027)) = some (0xFFFFFEFF, some 0) := by decide

/-- Vectors HM7 and HM8. -/
theorem test_regAdc :
    after (.regAdc 13) ready (fun t => (t.word 1030, t.hregAdc[13], t.hstatus)) = some (some 0x2000, true, .ok) ∧
      after (.regAdc 14) ready (fun t => (t.refused, t.word 1030)) = some (true, some 0) := by decide

/-- Vectors HM9 and HM10. -/
theorem test_setOut :
    after (.setOut 127 1) ready (fun t => t.gpioDataout.toList) = some [0, 0, 0, 0x80000000] ∧
      after (.setOut 40 0) { ready with gpioDataout := Vector.replicate 4 0x100 } (fun t => t.gpioDataout.toList) =
        some [0x100, 0, 0x100, 0x100] := by decide

/-- Vector HM11. -/
theorem test_sessionEnd :
    after .sessionEnd { ready with hregPin := ready.hregPin.set 11 .input } (fun t => (t.hregPin[11], t.hmapped, t.shm)) =
      some (.none, false, ready.shm) := by decide

/-! ## External agents -/

/-- Vector EX1. -/
theorem test_tmrFire : after .tmrFire { ready with tmrFlag := true } (fun t => t.tmrFlag) = some true := by decide

/-- Vectors EX2 and EX3. -/
theorem test_adcConv :
    after (.adcConv 0 0x400) { ready with adcPend := 7 } (fun t => (t.adcFifo, t.adcNext, t.adcPend)) =
        some ([⟨0, 0x400⟩], 1, 6) ∧
      after (.adcConv 2 0) { ready with adcPend := 6, adcNext := 1 } (fun t => t.adcFifo) = none := by decide

/-- Vector EX5. -/
theorem test_pinSet :
    after (.pinSet 11 1) ready (fun t => t.gpioDatain.toList) = some [0x800, 0, 0, 0] ∧
      after (.pinSet 128 1) ready (fun t => t.refused) = some true := by decide

/-- R246: a running RTU is not started. -/
theorem test_rtuStart : after .rtuStart (inPhase .mux) (fun t => t.seq) = none := by decide

/-- Vector EX7. -/
theorem test_rtuHalt :
    after .rtuHalt { inPhase .gpio with wstep := .part3 } (fun t => (t.seq, t.wstep, t.phase)) = some (.halted, .part3, .gpio) := by
  decide

/-! ## Witnesses: for each statement with hypotheses, a state and operands that meet them, clause by clause -/

/-- The host is in the middle of a read and the RTU is halted. -/
def busy : State := { ready with rstep := .part2 }

/-- The enabling conditions can fail: for every operation that has one. -/
theorem witness_not_enabled :
    ¬ Enabled .rbInit busy ∧ ¬ Enabled .rbWrite busy ∧ ¬ Enabled (.encGpio 255 1) busy ∧ ¬ Enabled (.encAdc 15 4095) busy ∧
      ¬ Enabled .decode busy ∧ ¬ Enabled .seqInit busy ∧ ¬ Enabled .muxAdv busy ∧ ¬ Enabled .adcTrig busy ∧
      ¬ Enabled .adcPop busy ∧ ¬ Enabled .adcEnd busy ∧ ¬ Enabled .gpioEnd busy ∧ ¬ Enabled .discAdc busy ∧
      ¬ Enabled .discGpio busy ∧ ¬ Enabled .tmrWait busy ∧ ¬ Enabled .fastAcc busy ∧ ¬ Enabled .fastAvg busy ∧
      ¬ Enabled .slowCmp busy ∧ ¬ Enabled .adcSkip busy ∧ ¬ Enabled .gpioCmp busy ∧ ¬ Enabled .mapRegs busy ∧
      ¬ Enabled (.cfgPin 127 1) busy ∧ ¬ Enabled (.regAdc 13) busy ∧ ¬ Enabled (.setOut 127 1) busy ∧
      ¬ Enabled .sessionEnd busy ∧ ¬ Enabled (.adcConv 0 0) busy ∧ ¬ Enabled .rtuStart busy ∧ ¬ Enabled .rtuHalt busy ∧
      ¬ Enabled (.msgGpio 255 1) busy ∧ ¬ Enabled (.msgAdc 15 4095) busy := by
  simp [Enabled, busy, ready, State.reset, State.powerOn, PowerOn.quiet]

theorem witness_CommandWordsUnique : decodeCommand 0x4300017F = .op (.setOut 127 1) := by decide

theorem witness_MessageRoundTrip : encGpioWord 255 1 = .ok 0x000001FF ∧ encAdcWord 15 4095 = .ok 0x8000FFFF := ⟨rfl, rfl⟩

theorem witness_ReservedBitsDecideReencoding : encodeMessage (.adc 15 4095) = encodeMessage (decodeMessage 0xFFFFFFFF) := by decide

theorem witness_MessageDecoderReadsFields :
    (0x7FFFFFFF : Word).getLsbD 31 = false ∧ (0x80000000 : Word).getLsbD 31 = true := by decide

/-- A waiting RTU whose `TMR_WAIT` is placed. -/
def placedWait : State := { inPhase .wait with tmrFlag := true, pending := [⟨.rtu, 0x28000000⟩] }

theorem witness_StepRunsPlacedCommand :
    placedWait.pending = ⟨.rtu, 0x28000000⟩ :: [] ∧ decodeCommand 0x28000000 = .op .tmrWait ∧ Instr.tmrWait.agent = .rtu ∧
      rtuNext placedWait = some .tmrWait ∧ ∃ t, exec .tmrWait { placedWait with pending := [] } = .next t :=
  ⟨rfl, by decide, rfl, by decide, _, rfl⟩

theorem witness_PlacedCommandChecks :
    decodeCommand 0x00FFFFFF = .illegalCommand ∧ Instr.rbWrite.agent ≠ .host ∧ decodeCommand 0x02000000 = .op .rbWrite ∧
      Instr.muxAdv.agent = .rtu ∧ rtuNext placedWait ≠ some .muxAdv := by decide

/-- The free word has no value to test; for each of the statement's cases a word and a state that meet it. -/
theorem witness_UnplacedStepIsFree :
    ready.pending = [] ∧ (inPhase .wait).pending = [] ∧ decodeCommand 0x00FFFFFF = .illegalCommand ∧
      decodeCommand 0x21000000 = .op .muxAdv ∧ Instr.muxAdv.agent = .rtu ∧ rtuNext (inPhase .wait) ≠ some .muxAdv ∧
      decodeCommand 0x54000000 = .op .rtuHalt ∧ ¬ Enabled .rtuHalt ready ∧
      rtuNext (inPhase .mux) = some .muxAdv ∧ Enabled .muxAdv (inPhase .mux) :=
  ⟨rfl, rfl, by decide, by decide, rfl, by decide, by decide, fun h => h.2 rfl, by decide, ⟨rfl, rfl, rfl, rfl, rfl⟩⟩

theorem witness_PlacedInstructionRunsNext :
    ready.params.Wf ∧ (∀ p l, Instr.cfgPin 127 1 ≠ .msgGpio p l) ∧ (∀ c v, Instr.cfgPin 127 1 ≠ .msgAdc c v) :=
  ⟨by decide, fun _ _ => nofun, fun _ _ => nofun⟩

/-- The RTU runs with two tracked pins, the last of them 127. -/
def sampling : State := { inPhase .gpio with gpioTab := [⟨11, none⟩, ⟨127, some 0⟩] }

theorem witness_SequencerControl_idle :
    ready.seq = .halted ∧ { ready with seq := .init }.seq = .init ∧ { inPhase .mux with wstep := .part3 }.wstep ≠ .idle ∧
      { inPhase .mux with repPend := .adc }.repPend = .adc ∧ { inPhase .mux with repPend := .gpio }.repPend = .gpio ∧
      (inPhase .mux).wstep = .idle ∧ (inPhase .mux).seq = .run := by decide

theorem witness_SequencerControl_pair :
    PairAt { withPair 5 0 7 with curStage := .avg } .avg ∧ PairAt (withPair 13 0 0) .classify ∧
      (withPair 5 0 0).adcEn[(withPair 5 0 0).curCh.toNat]? = some true ∧ (withPair 5 0 0).curCh.toNat ≤ 5 ∧
      6 ≤ (withPair 6 0 0).curCh.toNat ∧
      { withPair 13 0 0 with adcEn := Vector.replicate 14 false }.adcEn[(withPair 13 0 0).curCh.toNat]? = some false := by decide

theorem witness_SequencerControl_phase :
    RtuAt (inPhase .mux) .mux ∧ RtuAt (inPhase .trig) .trig ∧ RtuAt (inPhase .drain) .drain ∧ (inPhase .drain).adcFifo = [] ∧
      (inPhase .drain).params.adcMode = .async ∧ { inPhase .drain with adcFifo := [⟨6, 0⟩] }.adcFifo ≠ [] ∧
      RtuAt sampling .gpio ∧ sampling.gidx < sampling.gpioTab.length ∧ RtuAt { sampling with gidx := 2 } .gpio ∧
      sampling.gpioTab.length ≤ { sampling with gidx := 2 }.gidx := by decide

theorem witness_SequencerControl_phase2 :
    RtuAt (inPhase .disca) .disca ∧ RtuAt (inPhase .discg) .discg ∧ RtuAt placedWait .wait ∧ placedWait.tmrFlag = true ∧
      (inPhase .wait).tmrFlag = false ∧
      { inPhase .drain with adcPend := 7, params := { Params.default with adcMode := .sync } }.params.adcMode = .sync := by decide

theorem witness_SequencerControl_attempt : ∃ t, attempt .rtu .muxAdv (inPhase .mux) = .next t := ⟨_, rfl⟩

/-- A drain with the results of two sweeps queued, the most the invariant allows, and two tracked pins; its `ADC_POP` is placed. -/
def drainFull : State :=
  { State.reset with
    seq := .run, phase := .drain, adcNext := 7, curValid := false, curCh := 5
    adcFifo := [⟨0, 0⟩, ⟨1, 0⟩, ⟨2, 0⟩, ⟨3, 0⟩, ⟨4, 0⟩, ⟨5, 0⟩, ⟨6, 0⟩, ⟨0, 0⟩, ⟨1, 0⟩, ⟨2, 0⟩, ⟨3, 0⟩, ⟨4, 0⟩, ⟨5, 0⟩, ⟨6, 0⟩]
    adcLast := Vector.replicate 14 (some 127)
    gpioTab := [⟨127, none⟩, ⟨0, some 1⟩]
    pending := [⟨.rtu, 0x23000000⟩] }

theorem witness_BlockInv : BlockInv drainFull where
  memory := ⟨by decide, fun a h => absurd rfl h⟩
  sweep := ⟨by decide, by decide, by decide, by decide, by decide, by decide⟩
  pair := ⟨by decide, by decide⟩
  table := ⟨by decide, by decide, by decide⟩
  report := ⟨by decide, by decide⟩
  index := ⟨by decide, by decide⟩
  last := by
    intro c v h
    have all : ∀ c : Fin 6, drainFull.adcLast[c.val]? = some (some 127) := by decide
    rw [all c] at h
    cases h
    decide

theorem witness_SelectedOperationCompletes : BlockInv drainFull ∧ drainFull.params.Wf ∧ rtuNext drainFull = some .adcPop :=
  ⟨witness_BlockInv, by decide, by decide⟩

theorem witness_StepKeepsInv : BlockInv drainFull ∧ ∃ t, step drainFull = .next t := ⟨witness_BlockInv, _, rfl⟩

theorem witness_NoFaultUnderInv : BlockInv drainFull ∧ drainFull.params.Wf := ⟨witness_BlockInv, by decide⟩

theorem witness_HostNeverBlocks : ready.params.Wf ∧ ready.rstep = .idle := by decide

theorem witness_FaultsArePreciseAndSticky : ∃ t, exec .adcTrig { inPhase .trig with adcPend := 7 } = .next t := ⟨_, rfl⟩

theorem witness_UnwrittenWordsFault : 1030 < State.reset.params.shmWords ∧ State.reset.word 1030 = none := by decide

theorem witness_ScReadsLastWrite :
    1030 < ready.params.shmWords ∧ ready.params.memOrder = .sc ∧ ready.word 1030 = some 0 := by decide

/-- Under `WEAK`, with an older value of `TAIL` the host may still read, and one of `HEAD` the RTU may. -/
def weak : State :=
  { ready with params := { Params.default with memOrder := .weak }, staleHost := [(1025, 7)], staleRtu := [(1024, 5)] }

theorem witness_WeakReadsAreCoherent :
    1025 < weak.params.shmWords ∧ weak.params.memOrder = .weak ∧ weak.word 1025 = some 0 ∧
      staleValues (weak.stale .host) 1025 = [7] ∧ 1024 ≠ 1025 ∧ staleValues (weak.stale .rtu) 1024 = [5] ∧
      staleValues (weak.stale Side.rtu.other) 1025 = [7] := by decide

/-- R83, R86: under `WEAK` the RTU's write of `TAIL` does not make the host forget the older value of a slot, the failure of O1. -/
theorem test_weak_orders_nothing :
    completed (memWrite .rtu 1025 1 { weak with staleHost := [(0, 9)] })
        (fun t => (staleValues t.staleHost 0, staleValues t.staleHost 1025, staleValues t.staleRtu 1024)) =
      some ([9], [0], [5]) := by decide

theorem witness_CellsHaveOneWriter :
    (∃ t, exec (.setOut 127 1) ready = .next t) ∧ (∃ t, exec .muxAdv (inPhase .mux) = .next t) ∧
      (∀ pin b, Instr.muxAdv ≠ .setOut pin b) ∧ (∀ pin b, Instr.setOut 127 1 ≠ .cfgPin pin b) ∧
      (∀ pin b, Instr.setOut 127 1 ≠ .pinSet pin b) ∧ (∀ ch, Instr.setOut 127 1 ≠ .regAdc ch) ∧
      Instr.setOut 127 1 ∉ [Instr.rbWrite, .rbRead, .rbInit, .muxAdv, .seqInit] :=
  ⟨⟨_, rfl⟩, ⟨_, rfl⟩, nofun, nofun, nofun, nofun, by decide⟩

/-- Channel 0 is requested and bit 31 is set. -/
def requested : State := { ready with shm := cells [(1030, 0x80000001)] }

theorem witness_InterestBitsStaySet :
    requested.params.memOrder = .sc ∧ Instr.regAdc 13 ≠ .rbInit ∧ (∃ t, exec (.regAdc 13) requested = .next t) ∧
      requested.word 1030 = some 0x80000001 := ⟨rfl, nofun, ⟨_, rfl⟩, by decide⟩

theorem witness_TrackingOnlyGrows :
    Instr.gpioCmp ≠ .seqInit ∧ (∃ t, exec .gpioCmp { sampling with adcEn := Vector.replicate 14 true } = .next t) ∧
      { sampling with adcEn := Vector.replicate 14 true }.adcEn[13] = true := ⟨nofun, ⟨_, rfl⟩, rfl⟩

theorem witness_OccupancyDecidesEmptyFull :
    (2000 : Word).toNat ≤ 2047 ∧ (976 : Word).toNat ≤ 2047 ∧ occupancy 2000 976 = 1024 ∧ occupancy 2047 0 = 1 ∧
      occupancy 2047 2047 = 0 := by decide

/-- One unread message in slot 1023, its read about to end. -/
def reading : State := { ring 2047 0 1023 0x10B with rstep := .part3, rhead := 2047, rdata := 0x10B, rdataW := true }

theorem witness_RingInv_reading : RingInv reading 2047 0 where
  order := rfl
  size := by decide
  head := by decide
  tail := by decide
  head_legal := by decide
  tail_legal := by decide
  bound := by decide
  written := by decide
  writing := by decide
  stored := by decide
  reading := by decide
  fetched := by decide

/-- An empty ring with a write about to be published. -/
def writing : State := { ring 2047 2047 1023 0x10B with seq := .run, wstep := .part3, wtail := 2047, msg := 0x10B }

theorem witness_RingInv_writing : RingInv writing 2047 2047 where
  order := rfl
  size := by decide
  head := by decide
  tail := by decide
  head_legal := by decide
  tail_legal := by decide
  bound := by decide
  written := by decide
  writing := by decide
  stored := by decide
  reading := by decide
  fetched := by decide

theorem witness_RingInv_ready : RingInv ready 0 0 where
  order := rfl
  size := by decide
  head := by decide
  tail := by decide
  head_legal := by decide
  tail_legal := by decide
  bound := by decide
  written := by decide
  writing := by decide
  stored := by decide
  reading := by decide
  fetched := by decide

theorem witness_OperationsKeepRingInv :
    (ready.params.memOrder = .sc ∧ ready.params.Wf ∧ ready.seq ≠ .run ∧ ∃ t, exec .rbInit ready = .next t) ∧
      (RingInv reading 2047 0 ∧ (Instr.rbRead = .rbInit → reading.seq ≠ .run) ∧ ∃ u, exec .rbRead reading = .next u) :=
  ⟨⟨rfl, by decide, by decide, ⟨_, rfl⟩⟩, witness_RingInv_reading, nofun, ⟨_, rfl⟩⟩

theorem witness_RingIsFifo :
    (RingInv reading 2047 0 ∧ reading.rstep = .part3 ∧ ∃ u, exec .rbRead reading = .next u) ∧
      (RingInv writing 2047 2047 ∧ writing.wstep = .part3 ∧ ∃ u, exec .rbWrite writing = .next u) ∧
      (writing.seq = .run ∧ ∃ u, exec .tmrFire writing = .next u) ∧
      (RingInv ready 0 0 ∧ ready.seq ≠ .run ∧ ∃ u, exec .rbInit ready = .next u) :=
  ⟨⟨witness_RingInv_reading, rfl, ⟨_, rfl⟩⟩, ⟨witness_RingInv_writing, rfl, ⟨_, rfl⟩⟩, ⟨rfl, ⟨_, rfl⟩⟩,
    witness_RingInv_ready, by decide, ⟨_, rfl⟩⟩

theorem witness_RbInitClearsCells : 1031 ≤ ready.params.shmWords ∧ ready.rstep = .idle ∧ ready.params.memOrder = .sc := by decide

/-- A ring write is about to check for room. -/
def checking (h t : Word) : State := { ring h t 0 0 with seq := .run, wstep := .part1 }

theorem witness_RbWriteChecksForRoom :
    memRead .rtu 1025 (checking 1023 2047) = .ok (2047, checking 1023 2047) ∧
      memRead .rtu 1024 (checking 1023 2047) = .ok (1023, checking 1023 2047) ∧ (2047 : Word) = 1023 ^^^ 0x400#32 ∧
      memRead .rtu 1025 (checking 2047 0) = .ok (0, checking 2047 0) ∧
      memRead .rtu 1024 (checking 2047 0) = .ok (2047, checking 2047 0) ∧ (0 : Word) ≠ 2047 ^^^ 0x400#32 :=
  ⟨rfl, rfl, by decide, rfl, rfl, by decide⟩

theorem witness_RbWriteStoresThenPublishes :
    1031 ≤ writing.params.shmWords ∧ writing.seq = .run ∧ writing.wstep = .part3 ∧ { writing with wstep := .part2 }.wstep = .part2 := by
  decide

theorem witness_RbReadParts :
    memRead .host 1025 (ring 2047 2047 0 0) = .ok (2047, ring 2047 2047 0 0) ∧
      memRead .host 1024 (ring 2047 2047 0 0) = .ok (2047, ring 2047 2047 0 0) ∧ (ring 2047 2047 0 0).rstep = .idle ∧
      memRead .host 1025 (ring 2047 0 0 0) = .ok (0, ring 2047 0 0 0) ∧ (0 : Word) ≠ 2047 ∧
      memRead .host ({ reading with rstep := .part2 }.rhead.toNat % 1024) { reading with rstep := .part2 } =
        .ok (0x10B, { reading with rstep := .part2 }) ∧ reading.rstep = .part3 :=
  ⟨rfl, rfl, rfl, rfl, by decide, rfl, rfl⟩

/-- A read at part 2 of a slot never written, the last one. -/
theorem witness_RbReadParts_unwritten :
    1031 ≤ ready.params.shmWords ∧ { ready with rstep := .part2, rhead := 2047 }.rstep = .part2 ∧
      { ready with rstep := .part2, rhead := 2047 }.word ((2047 : Word).toNat % 1024) = none := by decide

theorem witness_CursorFaultsInOrder :
    { ready with shm := cells [] }.word 1025 = none ∧ { ready with shm := cells [(1025, 0)] }.word 1024 = none ∧
      memRead .host 1025 (ring 2048 2047 0 0) = .ok (2047, ring 2048 2047 0 0) ∧
      memRead .host 1024 (ring 2048 2047 0 0) = .ok (2048, ring 2048 2047 0 0) ∧
      memRead .rtu 1025 (checking 0 2048) = .ok (2048, checking 0 2048) ∧ (checking 0 2048).wstep = .part1 :=
  ⟨by decide, by decide, rfl, rfl, rfl, rfl⟩

theorem witness_EncodersStartTheWrite :
    { inPhase .mux with repPend := .gpio }.repPend = .gpio ∧ { inPhase .mux with repPend := .adc }.repPend = .adc ∧
      (inPhase .mux).wstep = .idle ∧ (inPhase .mux).seq = .run := by decide

theorem witness_DecodeStoresFields :
    ready.rstep = .idle ∧ ready.rdataW = false ∧ { ready with rdataW := true }.rdataW = true ∧
      decodeMessage { ready with rdata := 0x1FF }.rdata = .gpio 255 1 ∧
      decodeMessage { ready with rdata := 0x8000FFFF }.rdata = .adc 15 4095 := by decide

theorem witness_MessageRowsAreDecoded : ready.rstep = .idle ∧ { ready with rdataW := true }.rdataW = true := by decide

theorem witness_SeqInitWrites : { ready with seq := .init }.seq = .init := rfl

theorem witness_PhaseStepsOn :
    RtuAt { inPhase .mux with muxPos := 7 } .mux ∧ RtuAt { sampling with gidx := 2 } .gpio ∧
      sampling.gpioTab.length ≤ { sampling with gidx := 2 }.gidx ∧ RtuAt placedWait .wait ∧ placedWait.tmrFlag = true := by decide

theorem witness_TriggerStartsSweep :
    RtuAt (inPhase .trig) .trig ∧ (inPhase .trig).adcPend = 0 ∧ RtuAt { inPhase .trig with adcPend := 7 } .trig := by decide

theorem witness_ChannelMapTable :
    (4 : BitVec 4).toNat ≤ 4 ∧ (5 : BitVec 4).toNat = 5 ∧ (0 : BitVec 3).toNat = 0 ∧ 1 ≤ (1 : BitVec 3).toNat ∧
      1 ≤ (7 : BitVec 3).toNat ∧ (6 : BitVec 4).toNat = 6 ∧ 7 ≤ (7 : BitVec 4).toNat := by decide

theorem witness_DrainPopsAndEnds :
    RtuAt { inPhase .drain with adcFifo := [⟨6, 0⟩] } .drain ∧ chmap 6 0 = some 5 ∧ 6 < (7 : BitVec 4).toNat ∧
      RtuAt (inPhase .drain) .drain ∧ (inPhase .drain).adcFifo = [] ∧ (inPhase .drain).params.adcMode = .async := by decide

theorem witness_DiscAdcEnablesRequested :
    RtuAt (inPhase .disca) .disca ∧ memRead .rtu 1030 (inPhase .disca) = .ok (0, inPhase .disca) ∧
      { inPhase .disca with shm := [] }.word 1030 = none ∧ 1031 ≤ (inPhase .disca).params.shmWords :=
  ⟨by decide, rfl, by decide, by decide⟩

theorem witness_DiscGpioTracksRequested :
    RtuAt { inPhase .discg with gidx := 3 } .discg ∧
      memRead .rtu 1029 { inPhase .discg with gidx := 3 } = .ok (0, { inPhase .discg with gidx := 3 }) ∧
      { inPhase .discg with gidx := 3, shm := [] }.word 1029 = none := ⟨by decide, rfl, by decide⟩

theorem witness_FastAccStoresSample :
    PairAt (withPair 5 0xFFF 7) .classify ∧ (withPair 5 0xFFF 7).adcEn[5]? = some true ∧ (withPair 5 0xFFF 7).curCh.toNat ≤ 5 ∧
      (withPair 5 0xFFF 7).muxPos = 7 ∧ (withPair 0 0 6).muxPos ≠ 7 := by decide

theorem witness_FastAvgReportsChange :
    PairAt { withPair 5 0 7 with curStage := .avg } .avg ∧ (withPair 5 0 7).curCh.toNat = (5 : Fin 6).val ∧
      { withPair 5 0 7 with adcLast := Vector.replicate 14 (some 0) }.adcLast[5]? = some (some (average (withPair 5 0 7).adcBuf[5])) ∧
      (withPair 5 0 7).adcLast[5]? ≠ some (some (average (withPair 5 0 7).adcBuf[5])) := by decide

theorem witness_SlowCmpAndSkip :
    PairAt (withPair 6 4095 1) .classify ∧ (withPair 6 4095 1).curCh.toNat = (6 : Fin 14).val ∧ (withPair 6 4095 1).adcEn[6] = true ∧
      { withPair 6 4095 1 with adcLast := Vector.replicate 14 (some 4095) }.adcLast[6] = some (withPair 6 4095 1).curRaw ∧
      (withPair 13 0 0).adcLast[13] ≠ some (withPair 13 0 0).curRaw ∧
      { withPair 0 0 0 with adcEn := Vector.replicate 14 false }.adcEn[0] = false := by decide

theorem witness_GpioCmpReportsChange :
    RtuAt sampling .gpio ∧ (samplingOrder sampling.params.gpioOrder sampling.gpioTab)[0]? = some (0, ⟨11, none⟩) ∧
      (samplingOrder sampling.params.gpioOrder sampling.gpioTab)[{ sampling with gidx := 1 }.gidx]? = some (1, ⟨127, some 0⟩) ∧
      (127 : BitVec 8).toNat = 32 * (3 : Fin 4).val + 31 ∧
      (some 0 : Option (BitVec 1)) = some (BitVec.ofBool (bankBit sampling.gpioDatain 3 31)) := by decide

theorem witness_MapRegsDraws : ready.rstep = .idle := rfl

theorem witness_CfgPinWithoutEffect :
    127 < (128 : BitVec 8).toNat ∧ { ready with hmapped := false }.hmapped = false ∧ (127 : BitVec 8).toNat = (127 : Fin 128).val ∧
      ready.rstep = .idle ∧ ready.hmapped = true ∧ { ready with hregPin := ready.hregPin.set 127 .output }.hregPin[127] = .output := by
  decide

theorem witness_CfgPinConfigures :
    1031 ≤ ready.params.shmWords ∧ (127 : BitVec 8).toNat = 32 * (3 : Fin 4).val + 31 ∧ ready.hregPin[127] = .none ∧
      memRead .host 1029 ready = .ok (0, ready) ∧ { ready with shm := [] }.word 1029 = none :=
  ⟨by decide, by decide, by decide, rfl, by decide⟩

theorem witness_RegAdcRequests :
    13 < (14 : BitVec 4).toNat ∧ (13 : BitVec 4).toNat = (13 : Fin 14).val ∧ ready.hregAdc[13] = false ∧
      memRead .host 1030 ready = .ok (0, ready) ∧ { ready with hregAdc := Vector.replicate 14 true }.hregAdc[13] = true ∧
      { ready with shm := [] }.word 1030 = none := ⟨by decide, by decide, by decide, rfl, by decide, by decide⟩

theorem witness_OnePinBitIsWritten :
    ready.rstep = .idle ∧ ready.hmapped = true ∧ 127 < (128 : BitVec 8).toNat ∧
      (127 : BitVec 8).toNat = 32 * (3 : Fin 4).val + 31 ∧ (0 : BitVec 8).toNat = 32 * (0 : Fin 4).val + 0 := by decide

theorem witness_SessionEndClears : ready.rstep = .idle := rfl

theorem witness_TimerAndConversion :
    0 < { drainFull with adcPend := 1, adcNext := 6, adcFifo := [] }.adcPend ∧ (6 : BitVec 4).toNat = { drainFull with adcNext := 6 }.adcNext ∧
      (drainFull.adcFifo.drop 1).length < drainFull.params.fifoDepth := by decide

theorem witness_LoaderStartsAndHalts : ready.rstep = .idle ∧ ready.seq = .halted ∧ (inPhase .mux).seq ≠ .halted := by decide

/-! ## Pseudo-operations and runs -/

/-- R84, with the family's values, and an offset outside its window. -/
theorem test_windows : Params.default.WindowsWf ∧ ¬ { Params.default with gpioWin := 0x13F }.WindowsWf := by decide

/-- The host at the last part of a read, while the RTU is about to publish a message in slot 1. -/
def racing : State :=
  { ready with
    shm := cells [(1024, 0), (1025, 1), (0, 0x10B), (1, 0x8000ABCD)], rstep := .part3, rdata := 0x10B, rdataW := true
    seq := .run, wstep := .part3, wtail := 1 }

/-- The messages an expansion of `DRAIN` has, and whether it has ended. -/
def drained : Progress DrainPoint → Option (List Message × Bool)
  | .done p _ => some (p.result, true)
  | .going p _ => some (p.result, false)
  | .cut => none

/-- R138: it returns a message the RTU publishes while it runs, and ends at the empty read. -/
theorem test_drain_while_writing :
    drained (drain [[], [], [Instr.rbWrite.command], [], [], [], []] racing) = some ([.gpio 11 1, .adc 13 0xABC], true) ∧
      drained (drain [[], []] racing) = some ([.gpio 11 1], false) := by decide

/-- R138, R262.4: a read that faults has not found the ring empty, and is performed again. -/
theorem test_drain_fault : drained (drain [[], []] { ready with shm := cells [] }) = some ([], false) := by decide

/-- Whether an expansion has ended. -/
def ended {α : Type} : Progress α → Option Bool
  | .done _ _ => some true
  | .going _ _ => some false
  | .cut => none

/-- R122, R184: an iteration that waits for the timer goes on when it fires, and only then is back in phase `MUX`. -/
theorem test_iteration_waits :
    ended (iteration [[], []] (inPhase .wait)) = some false ∧
      ended (iteration [[], [Instr.tmrFire.command]] (inPhase .wait)) = some true ∧
      ended (iteration [[⟨.rtu, 0x28000000⟩]] (inPhase .wait)) = none := by decide

/-- R122: a report into a full ring is encoded and dropped. -/
theorem test_report_dropped :
    ended (reportGpioOp 11 1 [[], []] { ring 0 1024 0 0 with seq := .run, repPend := .gpio, repPin := 11, repLvl := 1 }) =
      some true := by decide

/-- R295: a failed mapping ends a session start. R297: teardown is two operations. -/
theorem test_session :
    sessionFails .mapRegs { ready with hstatus := .registerMapError } = true ∧ sessionFails .rbInit ready = false ∧
      ended (sessionStop [[], []] (inPhase .mux)) = some true := by decide

/-- R313: the messages of a finite run are those its reads return; a listing with a step that is not enabled is no run (R268). -/
theorem test_observe :
    (observe [Instr.rbRead.command] racing).map (fun o => (o.messages, o.refused)) = some ([0x10B], false) ∧
      observe [Instr.tmrWait.command] racing = none := by decide

/-! ## A fair run -/

/-- Timer, environment and host in turn. -/
def turns (n : Nat) : Command :=
  if n % 3 = 0 then Instr.tmrFire.command else if n % 3 = 1 then (Instr.pinSet 0 0).command else Instr.rbRead.command

/-- An event, then `RTU_HALT`, then the turns. -/
def haltRun (first : Command) : Nat → Command
  | 0 => first
  | 1 => Instr.rtuHalt.command
  | n + 2 => turns (n + 2)

/-- A state, the state after the first event, then a halted one on which the turns do nothing but count. -/
def haltStates (s0 s1 : State) : Nat → State
  | 0 => s0
  | 1 => { s1 with tick := 1 }
  | n + 2 => { s1 with seq := .halted, tick := n + 2 }

/-- An agent that has a step can attempt an operation of its own. -/
theorem hasStep_op {a : Agent} {s : State} (h : HasStep a s) :
    ∃ i t, i.agent = a ∧ attempt a i s = .next t := by
  obtain ⟨c, t, ⟨hc, i, hd, hi⟩, hp⟩ := h
  simp only [perform, performWord, hd, hc] at hp
  cases ha : attempt a i s with
  | next u => exact ⟨i, u, hi, ha⟩
  | fault f => simp [ha, counted] at hp
  | refused r => simp [ha, counted] at hp

/-- A halted RTU has no step. -/
theorem halted_no_step {s : State} (h : s.seq = .halted) : ¬ HasStep .rtu s := by
  intro hs
  obtain ⟨i, _, hi, ha⟩ := hasStep_op hs
  simp [attempt, hi, rtuNext, h] at ha

/-- With no step of a sweep left the front end has none. -/
theorem swept_no_step {s : State} (h : s.adcPend = 0) : ¬ HasStep .adc s := by
  intro hs
  obtain ⟨i, _, hi, ha⟩ := hasStep_op hs
  cases i
  case adcConv => simp [attempt, Instr.agent, exec, execAdcConv, guarded, CanAdcConv, h] at ha
  all_goals cases hi

/-- Host, timer and environment each take a step after any point. -/
theorem turns_take (a : Agent) (ha : a ≠ .rtu) (ha' : a ≠ .adc) (n : Nat) : ∃ k, n ≤ k ∧ 2 ≤ k ∧ Takes a (turns k) := by
  cases a
  · exact absurd rfl ha
  · exact ⟨3 * n + 2, by omega, by omega, by simp [turns, Nat.add_mod]; exact ⟨rfl, .rbRead, by decide, rfl⟩⟩
  · exact absurd rfl ha'
  · exact ⟨3 * (n + 1), by omega, by omega, by simp [turns]; exact ⟨rfl, .tmrFire, by decide, rfl⟩⟩
  · exact ⟨3 * (n + 1) + 1, by omega, by omega, by simp [turns, Nat.add_mod]; exact ⟨rfl, .pinSet 0 0, by decide, rfl⟩⟩

/-- Such a run is fair: after the halt only three agents have steps, and they take turns. -/
theorem haltRun_fair {s0 s1 : State} {first : Command} (hr : InfiniteRun (haltStates s0 s1) (haltRun first)) (hp : s1.adcPend = 0) :
    FairRun (haltStates s0 s1) (haltRun first) where
  run := hr
  timer n := ⟨3 * (n + 1), by omega, by
    show haltRun first (3 * n + 1 + 2) = _
    simp [haltRun, turns, Nat.add_mod]⟩
  conversion n _ := ⟨n + 2, by omega, .inr fun ⟨_, h, _⟩ => by simp [haltStates, hp] at h⟩
  agents a n _ := by
    by_cases ha : a = .rtu
    · exact ⟨n + 2, by omega, .inr (ha ▸ halted_no_step rfl)⟩
    · by_cases ha' : a = .adc
      · exact ⟨n + 2, by omega, .inr (ha' ▸ swept_no_step hp)⟩
      · obtain ⟨k, h1, h2, h3⟩ := turns_take a ha ha' n
        obtain ⟨m, rfl⟩ := Nat.exists_eq_add_of_le' h2
        exact ⟨m + 2, h1, .inl h3⟩

/-- Setting a pin to the level it has only counts the step. -/
theorem pinSet_still {s : State} (h : s.gpioDatain = Vector.replicate 4 0) :
    perform (Instr.pinSet 0 0).command s = .next { s with tick := s.tick + 1 } := by
  have hd : decodeCommand (Instr.pinSet 0 0).command.word = .op (.pinSet 0 0) := by decide
  have hv : (Vector.replicate 4 (0 : Word)).set 0 (putBit (Vector.replicate 4 (0 : Word))[0] 0 0) = Vector.replicate 4 0 := by decide
  have he : exec (.pinSet 0 0) s = .next s := by
    show finish s (setPinLevel 0 0 0 s) = _
    simp only [setPinLevel, regRead_of_lt (show 0 < 4 by decide), regWrite_of_lt (show 0 < 4 by decide), State.gpioBank,
      State.setGpioBank, h, hv, finish_ok]
    rw [← h]
  simp only [perform, performWord, hd, attempt, he]
  rfl

/-- An RTU that waits for the timer, with its flag clear. -/
def waiting : State := inPhase .wait

theorem waiting_run : InfiniteRun (haltStates waiting { waiting with tmrFlag := true }) (haltRun Instr.tmrFire.command) := by
  intro n
  match n with
  | 0 => rfl
  | 1 => rfl
  | n + 2 =>
    show perform (turns (n + 2)) _ = _
    unfold turns
    split
    · rfl
    · split
      · exact pinSet_still rfl
      · rfl

/-- Under `SYNC` a drain that waits for the last step of its sweep. -/
def holding : State :=
  { inPhase .drain with params := { Params.default with adcMode := .sync }, adcPend := 1, adcNext := 6, tmrFlag := true }

theorem holding_run :
    InfiniteRun (haltStates holding { holding with adcPend := 0, adcNext := 7, adcFifo := [⟨6, 0xABC⟩] })
      (haltRun (Instr.adcConv 6 0xABC).command) := by
  intro n
  match n with
  | 0 => rfl
  | 1 => rfl
  | n + 2 =>
    show perform (turns (n + 2)) _ = _
    unfold turns
    split
    · rfl
    · split
      · exact pinSet_still rfl
      · rfl

theorem holding_inv : BlockInv holding where
  memory := ⟨by decide, fun a h =>
    (by decide : ∀ a ∈ holding.shm.map Prod.fst, holding.shm.readWord (a / 4) ≠ none) a (mem_keys_of_readByte h)⟩
  sweep := ⟨by decide, by decide, by decide, by decide, by decide, by decide⟩
  pair := ⟨by decide, by decide⟩
  table := ⟨by decide, by decide, by decide⟩
  report := ⟨by decide, by decide⟩
  index := ⟨by decide, by decide⟩
  last := by
    intro c v h
    have none : ∀ c : Fin 6, holding.adcLast[c.val]? = some Option.none := by decide
    rw [none c] at h
    cases h

theorem witness_FairRunsReleaseHolds_timer :
    FairRun (haltStates waiting { waiting with tmrFlag := true }) (haltRun Instr.tmrFire.command) ∧
      RtuAt (haltStates waiting { waiting with tmrFlag := true } 0) .wait :=
  ⟨haltRun_fair waiting_run rfl, by decide⟩

theorem witness_FairRunsReleaseHolds_sweep :
    FairRun (haltStates holding { holding with adcPend := 0, adcNext := 7, adcFifo := [⟨6, 0xABC⟩] })
        (haltRun (Instr.adcConv 6 0xABC).command) ∧
      BlockInv holding ∧ holding.params.Wf ∧ RtuAt holding .drain ∧ holding.params.adcMode = .sync ∧ holding.adcFifo = [] ∧
      holding.adcPend ≠ 0 :=
  ⟨haltRun_fair holding_run rfl, holding_inv, by decide⟩

end Sys2Proof.Tests
end

section
/-! What each operation can do, said once. `Effect i s t` lists every next state `t` of operation `i` in state `s` as a record update
of `s`, with the facts that select it; `exec_effect` ties it to `exec`. A claim about all operations is then a case analysis over
`Effect` that names the operations touching the cells in question. -/

namespace Sys2Proof.Machine

open Sys2Proof.Config

/-- The memory after a zero has been written to each word of a list, in order (R130). -/
def Memory.zeroed (m : Memory) (l : List Nat) : Memory := l.foldl (fun m w => m.writeWord w 0) m

/-- The next states of an operation. The enabling condition is not repeated here (`exec_enabled`). Left open are the record a fault
adds, the older values that `WEAK` lets a side read, and the status of a `CFG_PIN` that configures nothing. -/
inductive Effect : Instr → State → State → Prop
  | fault {i s} (f : ModelFault) : Effect i s (takeFault f s)
  | refusal {i s} : Effect i s (takeRefusal s)
  -- the ring
  | rbInit {s m} (lh lr) : m = s.shm.zeroed initWords → Effect .rbInit s { s with shm := m, staleHost := lh, staleRtu := lr }
  | rbWriteLatch {s s1 h t} (lr) : s.wstep = .part1 → readCursors .rtu s = .ok (h, t, s1) →
      Effect .rbWrite s { s with staleRtu := lr, whead := h, wtail := t, wstep := if RingFull h t then .idle else .part2 }
  | rbWriteStore {s} (lh lr) : s.wstep = .part2 →
      Effect .rbWrite s
        { s with shm := s.shm.writeWord (slot s.wtail) s.msg, staleHost := lh, staleRtu := lr, wstep := .part3 }
  | rbWritePublish {s} (lh lr) : s.wstep = .part3 →
      Effect .rbWrite s
        { s with shm := s.shm.writeWord tailWord (nextCursor s.wtail), staleHost := lh, staleRtu := lr, wstep := .idle }
  | rbReadEmpty {s s1 h t} (lh) : s.rstep = .idle → readCursors .host s = .ok (h, t, s1) → RingEmpty h t →
      Effect .rbRead s { s with staleHost := lh, rvalid := false }
  | rbReadLatch {s s1 h t} (lh) : s.rstep = .idle → readCursors .host s = .ok (h, t, s1) → ¬ RingEmpty h t →
      Effect .rbRead s { s with staleHost := lh, rhead := h, rstep := .part2 }
  | rbReadFetch {s s1 v} (lh) : s.rstep = .part2 → memRead .host (slot s.rhead) s = .ok (v, s1) →
      Effect .rbRead s { s with staleHost := lh, rdata := v, rdataW := true, rstep := .part3 }
  | rbReadRelease {s} (lh lr) : s.rstep = .part3 →
      Effect .rbRead s
        { s with
          shm := s.shm.writeWord headWord (nextCursor s.rhead), staleHost := lh, staleRtu := lr, rstep := .idle, rvalid := true }
  -- the codec
  | encGpio {s pin b w} : encGpioWord pin.toNat b.toNat = .ok w →
      Effect (.encGpio pin b) s { s with msg := w, repPend := .none, wstep := .part1 }
  | encAdc {s ch val w} : encAdcWord ch.toNat val.toNat = .ok w →
      Effect (.encAdc ch val) s { s with msg := w, repPend := .none, wstep := .part1 }
  | decodeGpio {s pin level} : s.rdataW = true → decodeMessage s.rdata = .gpio pin level →
      Effect .decode s { s with decKind := .gpio, decPin := pin, decLvl := level }
  | decodeAdc {s channel value} : s.rdataW = true → decodeMessage s.rdata = .adc channel value →
      Effect .decode s { s with decKind := .adc, decCh := channel, decVal := value }
  | msgGpio {s pin level} : Effect (.msgGpio pin level) s { s with decKind := .gpio, decPin := pin, decLvl := level }
  | msgAdc {s channel value} : Effect (.msgAdc channel value) s { s with decKind := .adc, decCh := channel, decVal := value }
  -- the sequencer
  | seqInit {s} :
      Effect .seqInit s
        { s with
          adcEn := Vector.replicate 14 false, gpioTab := [], muxPos := s.params.muxInit, tmrFlag := false, adcFifo := [],
          adcPend := 0, adcNext := 0, curValid := false, curStage := .classify, repPend := .none, wstep := .idle, gidx := 0,
          phase := .mux, seq := .run }
  | muxAdv {s} : Effect .muxAdv s { s with muxPos := s.muxPos + 1, phase := .trig }
  | adcTrig {s} : s.adcPend = 0 → Effect .adcTrig s { s with adcPend := 7, adcNext := 0, phase := .drain }
  | adcPop {s r rest c} : s.adcFifo = r :: rest → chmap r.step s.muxPos = some c →
      Effect .adcPop s { s with adcFifo := rest, curCh := c, curRaw := r.data, curValid := true, curStage := .classify }
  | adcEnd {s} : Effect .adcEnd s { s with phase := .gpio, gidx := 0 }
  | gpioEnd {s} : Effect .gpioEnd s { s with phase := .disca, gidx := 0 }
  | discAdc {s s1 x} (lr) : memRead .rtu adcIntWord s = .ok (x, s1) →
      Effect .discAdc s { discoverChannels x { s with staleRtu := lr } with phase := .discg, gidx := 0 }
  | discGpioStep {s s1 x} (lr) : s.gidx < 3 → memRead .rtu (gpioIntWord + s.gidx) s = .ok (x, s1) →
      Effect .discGpio s
        { s with staleRtu := lr, gpioTab := scanModule s.params.maxGpio x s.gidx s.gpioTab, gidx := s.gidx + 1 }
  | discGpioLast {s s1 x} (lr) : s.gidx = 3 → memRead .rtu (gpioIntWord + s.gidx) s = .ok (x, s1) →
      Effect .discGpio s
        { s with staleRtu := lr, gpioTab := scanModule s.params.maxGpio x s.gidx s.gpioTab, phase := .wait, gidx := 0 }
  | tmrWait {s} : Effect .tmrWait s { s with phase := .mux, tmrFlag := false }
  -- the comparator
  | fastAcc {s} :
      Effect .fastAcc s
        { s with
          adcBuf := storeSample s.adcBuf s.curCh.toNat s.muxPos (fastSample s.curRaw),
          curStage := if s.muxPos = 7 then .avg else s.curStage, curValid := if s.muxPos = 7 then s.curValid else false }
  | fastAvgReport {s buf} : s.adcBuf[s.curCh.toNat]? = some buf → reportDue (average buf) (s.lastReported s.curCh) = true →
      Effect .fastAvg s
        { s with
          repPend := .adc, repCh := s.curCh, repVal := average buf,
          adcLast := s.adcLast.setIfInBounds s.curCh.toNat (some (average buf)), curStage := .classify, curValid := false }
  | fastAvgQuiet {s buf} : s.adcBuf[s.curCh.toNat]? = some buf → reportDue (average buf) (s.lastReported s.curCh) = false →
      Effect .fastAvg s { s with curStage := .classify, curValid := false }
  | slowCmpReport {s} : reportDue s.curRaw (s.lastReported s.curCh) = true →
      Effect .slowCmp s
        { s with
          repPend := .adc, repCh := s.curCh, repVal := s.curRaw,
          adcLast := s.adcLast.setIfInBounds s.curCh.toNat (some s.curRaw), curValid := false }
  | slowCmpQuiet {s} : reportDue s.curRaw (s.lastReported s.curCh) = false → Effect .slowCmp s { s with curValid := false }
  | adcSkip {s} : Effect .adcSkip s { s with curValid := false }
  | gpioCmpReport {s k e v} : s.sampledEntry = some (k, e) → regRead (pinModule e.pin) .datain s = .ok v →
      reportDue (levelAt v (pinBit e.pin)) e.last = true →
      Effect .gpioCmp s
        { s with
          repPend := .gpio, repPin := e.pin, repLvl := levelAt v (pinBit e.pin),
          gpioTab := s.gpioTab.set k { e with last := some (levelAt v (pinBit e.pin)) }, gidx := s.gidx + 1 }
  | gpioCmpQuiet {s k e v} : s.sampledEntry = some (k, e) → regRead (pinModule e.pin) .datain s = .ok v →
      reportDue (levelAt v (pinBit e.pin)) e.last = false →
      Effect .gpioCmp s { s with gidx := s.gidx + 1 }
  -- the host manager
  | mapRegs {s} : freeMapOutcome s.tick = true → Effect .mapRegs s { s with hmapped := true, hstatus := .ok }
  | mapRegsFail {s} : freeMapOutcome s.tick = false → Effect .mapRegs s { s with hstatus := .registerMapError }
  | cfgPinStatus {s pin b} (v : HStatus) : Effect (.cfgPin pin b) s { s with hstatus := v }
  | cfgPinOutput {s pin b} (hm : pinModule pin < 4) : b ≠ 1 →
      Effect (.cfgPin pin b) s
        { s with
          gpioOe := s.gpioOe.set (pinModule pin) (putBit s.gpioOe[pinModule pin] (pinBit pin) b),
          hregPin := s.hregPin.setIfInBounds pin.toNat (directionOf b), hstatus := .ok }
  | cfgPinInput {s s1 pin b g} (lh lr) (hm : pinModule pin < 4) : b = 1 →
      memRead .host (gpioIntWord + pinModule pin) s = .ok (g, s1) →
      Effect (.cfgPin pin b) s
        { s with
          gpioOe := s.gpioOe.set (pinModule pin) (putBit s.gpioOe[pinModule pin] (pinBit pin) b),
          shm := s.shm.writeWord (gpioIntWord + pinModule pin) (setBit g (pinBit pin)), staleHost := lh, staleRtu := lr,
          hregPin := s.hregPin.setIfInBounds pin.toNat (directionOf b), hstatus := .ok }
  | regAdcAgain {s ch} : Effect (.regAdc ch) s { s with hstatus := .ok }
  | regAdcRequest {s s1 ch g} (lh lr) : memRead .host adcIntWord s = .ok (g, s1) →
      Effect (.regAdc ch) s
        { s with
          shm := s.shm.writeWord adcIntWord (setBit g ch.toNat), staleHost := lh, staleRtu := lr,
          hregAdc := s.hregAdc.setIfInBounds ch.toNat true, hstatus := .ok }
  | setOut {s pin b} (hm : pinModule pin < 4) :
      Effect (.setOut pin b) s
        { s with gpioDataout := s.gpioDataout.set (pinModule pin) (putBit s.gpioDataout[pinModule pin] (pinBit pin) b) }
  | sessionEnd {s} :
      Effect .sessionEnd s
        { s with hregPin := Vector.replicate 128 .none, hregAdc := Vector.replicate 14 false, hmapped := false }
  -- the external agents
  | tmrFire {s} : Effect .tmrFire s { s with tmrFlag := true }
  | adcConv {s step data} :
      Effect (.adcConv step data) s
        { s with adcFifo := s.adcFifo ++ [⟨step, data⟩], adcNext := s.adcNext + 1, adcPend := s.adcPend - 1 }
  | pinSet {s pin b} (hm : pinModule pin < 4) :
      Effect (.pinSet pin b) s
        { s with gpioDatain := s.gpioDatain.set (pinModule pin) (putBit s.gpioDatain[pinModule pin] (pinBit pin) b) }
  | rtuStart {s} : freeLoadOutcome s.tick = true → Effect .rtuStart s { s with seq := .init, hstatus := .ok }
  | rtuStartFail {s} : freeLoadOutcome s.tick = false → Effect .rtuStart s { s with hstatus := .firmwareStartError }
  | rtuHalt {s} : Effect .rtuHalt s { s with seq := .halted }

/-! ## From a pseudocode to its effect -/

section

variable {i : Instr} {s t u : State} {b : Except Stop State}

/-- What a step ends with is an effect when its completed pseudocode is one: a fault and a refusal always are. -/
theorem effect_of_finish (h : finish s b = .next t) (hb : ∀ u, b = .ok u → Effect i s u) : Effect i s t := by
  obtain hu | ⟨f, -, rfl⟩ | ⟨r, -, rfl⟩ := finish_next h
  · exact hb t hu
  · exact .fault f
  · exact .refusal

theorem effect_of_guarded {m : String} {en : Prop} [Decidable en] (h : guarded m en s b = .next t)
    (hb : en → ∀ u, b = .ok u → Effect i s u) : Effect i s t :=
  effect_of_finish (guarded_next h).2 (hb (guarded_next h).1)

/-- A guarded operation whose pseudocode cannot fail. -/
theorem effect_of_guarded_ok {m : String} {en : Prop} [Decidable en] (h : guarded m en s (.ok u) = .next t)
    (hu : Effect i s u) : Effect i s t :=
  effect_of_guarded h fun _ _ he => Except.ok.inj he ▸ hu

end

/-! ## The ring -/

/-- A run of zero writes zeroes its words, and touches the older values besides. -/
theorem zeroWords_zeroed {l : List Nat} {s t : State} (h : zeroWords l s = .ok t) :
    ∃ lh lr, t = { s with shm := s.shm.zeroed l, staleHost := lh, staleRtu := lr } := by
  induction l generalizing s with
  | nil => cases h; exact ⟨_, _, rfl⟩
  | cons w rest ih =>
    unfold zeroWords at h
    split at h
    · cases h
    · rename_i s1 h1
      obtain ⟨-, lh, lr, rfl, -⟩ := memWrite_ok h1
      obtain ⟨lh, lr, rfl⟩ := ih h
      exact ⟨lh, lr, rfl⟩

theorem ringWritePart1_effect {s u : State} (hw : s.wstep = .part1) (h : ringWritePart1 s = .ok u) : Effect .rbWrite s u := by
  unfold ringWritePart1 at h
  split at h
  · cases h
  · rename_i hc
    obtain ⟨-, -, ⟨l, rfl⟩, -⟩ := readCursors_ok hc
    cases h
    exact .rbWriteLatch l hw hc

theorem ringWritePart2_effect {s u : State} (hw : s.wstep = .part2) (h : ringWritePart2 s = .ok u) : Effect .rbWrite s u := by
  unfold ringWritePart2 at h
  split at h
  · cases h
  · rename_i hc
    obtain ⟨-, lh, lr, rfl, -⟩ := memWrite_ok hc
    cases h
    exact .rbWriteStore lh lr hw

theorem ringWritePart3_effect {s u : State} (hw : s.wstep = .part3) (h : ringWritePart3 s = .ok u) : Effect .rbWrite s u := by
  unfold ringWritePart3 at h
  split at h
  · cases h
  · rename_i hc
    obtain ⟨-, lh, lr, rfl, -⟩ := memWrite_ok hc
    cases h
    exact .rbWritePublish lh lr hw

theorem execRbWrite_effect {s t : State} (h : execRbWrite s = .next t) : Effect .rbWrite s t := by
  refine effect_of_guarded h fun hen u hu => ?_
  split at hu
  · exact ringWritePart1_effect ‹_› hu
  · exact ringWritePart2_effect ‹_› hu
  · exact ringWritePart3_effect ‹_› hu
  · exact absurd ‹_› hen.2

theorem ringReadPart0_effect {s u : State} (hr : s.rstep = .idle) (h : ringReadPart0 s = .ok u) : Effect .rbRead s u := by
  unfold ringReadPart0 at h
  split at h
  · cases h
  · rename_i hc
    obtain ⟨-, -, ⟨l, rfl⟩, -⟩ := readCursors_ok hc
    cases h
    split
    · exact .rbReadEmpty l hr hc ‹_›
    · exact .rbReadLatch l hr hc ‹_›

theorem ringReadPart2_effect {s u : State} (hr : s.rstep = .part2) (h : ringReadPart2 s = .ok u) : Effect .rbRead s u := by
  unfold ringReadPart2 at h
  split at h
  · cases h
  · rename_i hc
    obtain ⟨-, -, l, rfl⟩ := memRead_ok hc
    cases h
    exact .rbReadFetch l hr hc

theorem ringReadPart3_effect {s u : State} (hr : s.rstep = .part3) (h : ringReadPart3 s = .ok u) : Effect .rbRead s u := by
  unfold ringReadPart3 at h
  split at h
  · cases h
  · rename_i hc
    obtain ⟨-, lh, lr, rfl, -⟩ := memWrite_ok hc
    cases h
    exact .rbReadRelease lh lr hr

theorem execRbRead_effect {s t : State} (h : execRbRead s = .next t) : Effect .rbRead s t := by
  refine effect_of_finish h fun u hu => ?_
  split at hu
  · exact ringReadPart0_effect ‹_› hu
  · exact ringReadPart2_effect ‹_› hu
  · exact ringReadPart3_effect ‹_› hu

/-! ## The codec -/

/-- A completed encoding takes the word into `MSG` and starts its ring write. -/
theorem startWrite_ok {word : Except Stop Word} {s u : State} (h : startWrite word s = .ok u) :
    ∃ w, word = .ok w ∧ u = { s with msg := w, repPend := .none, wstep := .part1 } := by
  unfold startWrite at h
  split at h
  · cases h
  · cases h; exact ⟨_, rfl, rfl⟩

theorem execDecode_effect {s t : State} (h : execDecode s = .next t) : Effect .decode s t := by
  refine effect_of_guarded h fun _ u hu => ?_
  split at hu
  · rename_i hw
    cases hu
    cases hm : decodeMessage s.rdata with
    | gpio pin level => exact .decodeGpio hw hm
    | adc channel value => exact .decodeAdc hw hm
  · cases hu

/-! ## The sequencer -/

theorem execAdcTrig_effect {s t : State} (h : execAdcTrig s = .next t) : Effect .adcTrig s t := by
  refine effect_of_guarded h fun _ u hu => ?_
  split at hu
  · cases hu
  · rename_i hp
    cases hu
    exact .adcTrig (not_not.1 hp)

theorem execAdcPop_effect {s t : State} (h : execAdcPop s = .next t) : Effect .adcPop s t := by
  refine effect_of_guarded h fun hen u hu => ?_
  unfold popResult at hu
  split at hu
  · exact absurd ‹_› hen.2
  · rename_i hf
    split at hu
    · cases hu
    · rename_i hc
      cases hu
      exact .adcPop hf hc

theorem execDiscAdc_effect {s t : State} (h : execDiscAdc s = .next t) : Effect .discAdc s t := by
  refine effect_of_guarded h fun _ u hu => ?_
  split at hu
  · cases hu
  · rename_i hr
    obtain ⟨-, -, l, rfl⟩ := memRead_ok hr
    cases hu
    exact .discAdc l hr

theorem execDiscGpio_effect {s t : State} (h : execDiscGpio s = .next t) : Effect .discGpio s t := by
  refine effect_of_guarded h fun _ u hu => ?_
  split at hu
  · cases hu
  · split at hu
    · cases hu
    · rename_i hg x s1 hr
      obtain ⟨-, -, l, rfl⟩ := memRead_ok hr
      cases hu
      unfold nextModule
      split
      · rename_i h3
        exact .discGpioLast l (Nat.succ.inj h3) hr
      · rename_i h3
        exact .discGpioStep l (lt_of_le_of_ne (by omega) fun he => h3 (congrArg Nat.succ he)) hr

/-! ## The comparator -/

theorem execFastAvg_effect {s t : State} (h : execFastAvg s = .next t) : Effect .fastAvg s t := by
  refine effect_of_guarded h fun _ u hu => ?_
  split at hu
  · cases hu
  · rename_i hb
    cases hu
    unfold compareAnalog
    split
    · exact .fastAvgReport hb ‹_›
    · exact .fastAvgQuiet hb (Bool.eq_false_of_not_eq_true ‹_›)

theorem execSlowCmp_effect {s t : State} (h : execSlowCmp s = .next t) : Effect .slowCmp s t := by
  refine effect_of_guarded_ok h ?_
  unfold compareAnalog
  split
  · exact .slowCmpReport ‹_›
  · exact .slowCmpQuiet (Bool.eq_false_of_not_eq_true ‹_›)

theorem execGpioCmp_effect {s t : State} (h : execGpioCmp s = .next t) : Effect .gpioCmp s t := by
  refine effect_of_guarded h fun hen u hu => ?_
  unfold samplePin at hu
  split at hu
  · rename_i hs
    have hsome := sampledEntry_isSome s
    simp [hs, hen.2] at hsome
  · rename_i hs
    split at hu
    · cases hu
    · rename_i hr
      cases hu
      unfold compareLevel
      split
      · exact .gpioCmpReport hs hr ‹_›
      · exact .gpioCmpQuiet hs hr (Bool.eq_false_of_not_eq_true ‹_›)

/-! ## The host manager -/

theorem execMapRegs_effect {s t : State} (h : execMapRegs s = .next t) : Effect .mapRegs s t := by
  refine effect_of_guarded_ok h ?_
  split
  · exact .mapRegs ‹_›
  · exact .mapRegsFail (Bool.eq_false_of_not_eq_true ‹_›)

theorem configurePin_effect {pin : BitVec 8} {b : BitVec 1} {s u : State} (h : configurePin pin b s = .ok u) :
    Effect (.cfgPin pin b) s u := by
  unfold configurePin at h
  split at h
  · cases h
  · rename_i h1
    obtain ⟨hm, rfl⟩ := updateRegBit_ok h1
    split at h
    · cases h
    · rename_i h2
      cases h
      split at h2
      · rename_i hb
        obtain ⟨g, s1, hr, lh, lr, rfl⟩ := requestBit_ok h2
        exact .cfgPinInput lh lr hm hb (memRead_gpioOe hr s.gpioOe)
      · cases h2
        exact .cfgPinOutput hm ‹_›

/-- The body of a host operation on a pin is reached only with the pin in range and the windows mapped. -/
theorem pinChecked_ok {pin : BitVec 8} {s u : State} {body : Except Stop State} (h : pinChecked pin s body = .ok u) :
    pin.toNat ≤ 127 ∧ s.hmapped = true ∧ body = .ok u := by
  unfold pinChecked at h
  split at h
  · cases h
  · split at h
    · cases h
    · exact ⟨by omega, by simpa using ‹¬ s.hmapped = false›, h⟩

theorem execCfgPin_effect {pin : BitVec 8} {b : BitVec 1} {s t : State} (h : execCfgPin pin b s = .next t) :
    Effect (.cfgPin pin b) s t := by
  refine effect_of_guarded h fun _ u hu => ?_
  obtain ⟨-, -, hu⟩ := pinChecked_ok hu
  split at hu
  · cases hu; exact .cfgPinStatus _
  · split at hu
    · cases hu; exact .cfgPinStatus _
    · split at hu
      · exact configurePin_effect hu
      · cases hu; exact .cfgPinStatus _

theorem execRegAdc_effect {ch : BitVec 4} {s t : State} (h : execRegAdc ch s = .next t) : Effect (.regAdc ch) s t := by
  refine effect_of_guarded h fun _ u hu => ?_
  split at hu
  · cases hu
  · unfold registerChannel at hu
    split at hu
    · cases hu; exact .regAdcAgain
    · split at hu
      · cases hu
      · rename_i hq
        obtain ⟨g, s1, hr, lh, lr, rfl⟩ := requestBit_ok hq
        cases hu
        exact .regAdcRequest lh lr hr

theorem execSetOut_effect {pin : BitVec 8} {b : BitVec 1} {s t : State} (h : execSetOut pin b s = .next t) :
    Effect (.setOut pin b) s t := by
  refine effect_of_guarded h fun _ u hu => ?_
  obtain ⟨-, -, hu⟩ := pinChecked_ok hu
  obtain ⟨hm, rfl⟩ := updateRegBit_ok hu
  exact .setOut hm

/-! ## The external agents -/

theorem execPinSet_effect {pin : BitVec 8} {b : BitVec 1} {s t : State} (h : execPinSet pin b s = .next t) :
    Effect (.pinSet pin b) s t := by
  refine effect_of_finish h fun u hu => ?_
  split at hu
  · cases hu
  · -- the environment's write of a level is a register update of `DATAIN`
    obtain ⟨hm, rfl⟩ := updateRegBit_ok (r := .datain) hu
    exact .pinSet hm

theorem execRtuStart_effect {s t : State} (h : execRtuStart s = .next t) : Effect .rtuStart s t := by
  refine effect_of_guarded_ok h ?_
  split
  · exact .rtuStart ‹_›
  · exact .rtuStartFail (Bool.eq_false_of_not_eq_true ‹_›)

/-! ## All operations -/

/-- An operation answers a next state only when enabled. -/
theorem exec_enabled {i : Instr} {s t : State} (h : exec i s = .next t) : Enabled i s := by
  cases i
  case rbRead | tmrFire | pinSet => exact trivial
  all_goals exact (guarded_next h).1

/-- All an operation can do. -/
theorem exec_effect {i : Instr} {s t : State} (h : exec i s = .next t) : Effect i s t := by
  cases i with
  | rbInit =>
    refine effect_of_guarded h fun _ u hu => ?_
    obtain ⟨lh, lr, rfl⟩ := zeroWords_zeroed hu
    exact .rbInit lh lr rfl
  | rbWrite => exact execRbWrite_effect h
  | rbRead => exact execRbRead_effect h
  | encGpio pin b =>
    refine effect_of_guarded h fun _ u hu => ?_
    obtain ⟨w, hw, rfl⟩ := startWrite_ok hu
    exact .encGpio hw
  | encAdc ch val =>
    refine effect_of_guarded h fun _ u hu => ?_
    obtain ⟨w, hw, rfl⟩ := startWrite_ok hu
    exact .encAdc hw
  | decode => exact execDecode_effect h
  | seqInit => exact effect_of_guarded_ok h .seqInit
  | muxAdv => exact effect_of_guarded_ok h .muxAdv
  | adcTrig => exact execAdcTrig_effect h
  | adcPop => exact execAdcPop_effect h
  | adcEnd => exact effect_of_guarded_ok h .adcEnd
  | gpioEnd => exact effect_of_guarded_ok h .gpioEnd
  | discAdc => exact execDiscAdc_effect h
  | discGpio => exact execDiscGpio_effect h
  | tmrWait => exact effect_of_guarded_ok h .tmrWait
  | fastAcc => exact effect_of_guarded_ok h .fastAcc
  | fastAvg => exact execFastAvg_effect h
  | slowCmp => exact execSlowCmp_effect h
  | adcSkip => exact effect_of_guarded_ok h .adcSkip
  | gpioCmp => exact execGpioCmp_effect h
  | mapRegs => exact execMapRegs_effect h
  | cfgPin pin b => exact execCfgPin_effect h
  | regAdc ch => exact execRegAdc_effect h
  | setOut pin b => exact execSetOut_effect h
  | sessionEnd => exact effect_of_guarded_ok h .sessionEnd
  | tmrFire => cases h; exact .tmrFire
  | adcConv step data => exact effect_of_guarded_ok h .adcConv
  | pinSet pin b => exact execPinSet_effect h
  | rtuStart => exact execRtuStart_effect h
  | rtuHalt => exact effect_of_guarded_ok h .rtuHalt
  | msgGpio pin level => exact effect_of_guarded_ok h .msgGpio
  | msgAdc channel value => exact effect_of_guarded_ok h .msgAdc

end Sys2Proof.Machine
end

section
/-! Who writes what: the shared words and registers an operation may change (R39), and the tracking cells, which only grow (R50, R55). -/

namespace Sys2Proof.Machine

open Sys2Proof.Config

/-! ## Shared words -/

theorem slot_le (x : Word) : slot x ≤ 1023 := by
  simp only [slot, BitVec.toNat_and, BitVec.toNat_ofNat]
  exact Nat.and_le_right

theorem readWord_zeroed_of_not_mem {l : List Nat} {w : Nat} (h : w ∉ l) (m : Memory) :
    (m.zeroed l).readWord w = m.readWord w := by
  induction l generalizing m with
  | nil => rfl
  | cons x rest ih =>
    obtain ⟨hx, hrest⟩ := List.ne_and_not_mem_of_not_mem_cons h
    exact (ih hrest _).trans (readWord_writeWord_of_ne m hx 0)

/-- The shared words an operation may write (R39). -/
inductive WritesWord : Instr → Nat → Prop
  | slots {w} : w ≤ 1023 → WritesWord .rbWrite w
  | tail {w} : w = 1025 → WritesWord .rbWrite w
  | head {w} : w = 1024 → WritesWord .rbRead w
  | init {w} : 1024 ≤ w → w ≤ 1030 → WritesWord .rbInit w
  | gpioInterest {w pin b} : 1026 ≤ w → w ≤ 1029 → WritesWord (.cfgPin pin b) w
  | adcInterest {w ch} : w = 1030 → WritesWord (.regAdc ch) w

theorem writesWord_rbInit_of_mem {w : Nat} (h : w ∈ initWords) : WritesWord .rbInit w := by
  have hall : ∀ w ∈ initWords, 1024 ≤ w ∧ w ≤ 1030 := by decide
  exact .init (hall w h).1 (hall w h).2

/-- An operation leaves every shared word it may not write. -/
theorem Effect.word_eq {i : Instr} {s t : State} {w : Nat} (h : Effect i s t) (hw : ¬ WritesWord i w) :
    t.word w = s.word w := by
  cases h with
  | rbInit _ _ hm =>
    exact (congrArg (Memory.readWord · w) hm).trans (readWord_zeroed_of_not_mem (mt writesWord_rbInit_of_mem hw) s.shm)
  | rbWriteStore => exact readWord_writeWord_of_ne _ (fun he => hw (.slots (he.trans_le (slot_le _)))) _
  | rbWritePublish => exact readWord_writeWord_of_ne _ (fun he => hw (.tail he)) _
  | rbReadRelease => exact readWord_writeWord_of_ne _ (fun he => hw (.head he)) _
  | cfgPinInput _ _ hm =>
    refine readWord_writeWord_of_ne _ (fun he => hw ?_) _
    subst he
    exact .gpioInterest (Nat.le_add_right _ _) (Nat.add_le_add_left (Nat.le_of_lt_succ hm) 1026)
  | regAdcRequest => exact readWord_writeWord_of_ne _ (fun he => hw (.adcInterest he)) _
  | _ => rfl

section

variable {i : Instr} {w : Nat}

theorem WritesWord.writer_of_slot (h : WritesWord i w) (hw : w ≤ 1023) : i = .rbWrite := by
  cases h with
  | slots => rfl
  | _ => omega

theorem WritesWord.writer_of_head (h : WritesWord i 1024) : i = .rbRead ∨ i = .rbInit := by
  cases h with
  | head => exact .inl rfl
  | init => exact .inr rfl
  | _ => omega

theorem WritesWord.writer_of_tail (h : WritesWord i 1025) : i = .rbWrite ∨ i = .rbInit := by
  cases h with
  | tail => exact .inl rfl
  | init => exact .inr rfl
  | _ => omega

theorem WritesWord.writer_of_gpioInterest (h : WritesWord i w) (hlo : 1026 ≤ w) (hhi : w ≤ 1029) :
    i = .rbInit ∨ ∃ pin b, i = .cfgPin pin b := by
  cases h with
  | init => exact .inl rfl
  | gpioInterest => exact .inr ⟨_, _, rfl⟩
  | _ => omega

theorem WritesWord.writer_of_adcInterest (h : WritesWord i 1030) : i = .rbInit ∨ ∃ ch, i = .regAdc ch := by
  cases h with
  | init => exact .inl rfl
  | adcInterest => exact .inr ⟨_, rfl⟩
  | _ => omega

theorem WritesWord.le (h : WritesWord i w) : w ≤ 1030 := by
  cases h <;> omega

end

/-! ## Registers -/

section

variable {i : Instr} {s t : State}

theorem Effect.gpioOe_eq (h : Effect i s t) (hi : ∀ pin b, i ≠ .cfgPin pin b) : t.gpioOe = s.gpioOe := by
  cases h with
  | cfgPinOutput | cfgPinInput => exact absurd rfl (hi _ _)
  | _ => rfl

theorem Effect.gpioDatain_eq (h : Effect i s t) (hi : ∀ pin b, i ≠ .pinSet pin b) : t.gpioDatain = s.gpioDatain := by
  cases h with
  | pinSet => exact absurd rfl (hi _ _)
  | _ => rfl

theorem Effect.gpioDataout_eq (h : Effect i s t) (hi : ∀ pin b, i ≠ .setOut pin b) : t.gpioDataout = s.gpioDataout := by
  cases h with
  | setOut => exact absurd rfl (hi _ _)
  | _ => rfl

theorem Effect.muxPos_eq (h : Effect i s t) (hadv : i ≠ .muxAdv) (hinit : i ≠ .seqInit) : t.muxPos = s.muxPos := by
  cases h with
  | muxAdv => exact absurd rfl hadv
  | seqInit => exact absurd rfl hinit
  | _ => rfl

/-- No operation writes the parameters. -/
theorem Effect.params_eq (h : Effect i s t) : t.params = s.params := by
  cases h <;> rfl

end

/-- Settles O21: every operation that may write a cell is one of its writers. -/
theorem cellsHaveOneWriter : Obligations.CellsHaveOneWriter := by
  intro i s t h
  have he := exec_effect h
  refine ⟨fun hi w hw => he.word_eq fun hm => hi (hm.writer_of_slot hw), fun hr hi => he.word_eq fun hm => ?head,
    fun hr hi => he.word_eq fun hm => ?tail, fun hi hc w hlo hhi => he.word_eq fun hm => ?gpioInterest,
    fun hi hr => he.word_eq fun hm => ?adcInterest, fun w hw => he.word_eq fun hm => absurd hm.le (by omega),
    he.gpioOe_eq, he.gpioDatain_eq, he.gpioDataout_eq, he.muxPos_eq⟩
  case head => exact hm.writer_of_head.elim hr hi
  case tail => exact hm.writer_of_tail.elim hr hi
  case gpioInterest => exact (hm.writer_of_gpioInterest hlo hhi).elim hi fun ⟨pin, b, hpin⟩ => hc pin b hpin
  case adcInterest => exact hm.writer_of_adcInterest.elim hi fun ⟨ch, hch⟩ => hr ch hch

/-! ## Tracking -/

/-- What holds of a table and is kept when a pin that is not tracked is appended while there is room, holds after a module's scan
(R182, R183). -/
theorem scanModule_induction {P : List GpioEntry → Prop} {maxGpio : Nat} {x : Word} {m : Nat} {tab : List GpioEntry} (h : P tab)
    (happend : ∀ tab b, b < 32 → P tab → tracked tab (pinId m b) = false → tab.length < maxGpio →
      P (tab ++ [⟨pinId m b, none⟩])) : P (scanModule maxGpio x m tab) := by
  refine List.foldlRecOn _ _ h fun tab hP b hb => ?_
  split
  · obtain he | ⟨he, hnew, hroom⟩ := trackPin_spec maxGpio tab (pinId m b)
    · exact he.symm ▸ hP
    · exact he.symm ▸ happend tab b (List.mem_range.1 hb) hP hnew hroom
  · exact hP

theorem pins_scanModule (maxGpio : Nat) (x : Word) (m : Nat) (tab : List GpioEntry) :
    tab.map GpioEntry.pin <+: (scanModule maxGpio x m tab).map GpioEntry.pin :=
  scanModule_induction (P := fun tab' => tab.map GpioEntry.pin <+: tab'.map GpioEntry.pin) List.prefix_rfl
    fun tab' b _ ih _ _ => ih.trans (by simp)

/-- A new last-reported level leaves every pin id. -/
theorem pins_set_last {tab : List GpioEntry} {k : Nat} {e : GpioEntry} (h : tab[k]? = some e) (l : Option (BitVec 1)) :
    (tab.set k { e with last := l }).map GpioEntry.pin = tab.map GpioEntry.pin := by
  obtain ⟨hk, rfl⟩ := List.getElem?_eq_some_iff.1 h
  rw [List.map_set, ← List.getElem_map GpioEntry.pin (h := by simpa using hk), List.set_getElem_self]

theorem Effect.adcEn_grows {i : Instr} {s t : State} (h : Effect i s t) (hi : i ≠ .seqInit) (c : Fin 14)
    (hc : s.adcEn[c] = true) : t.adcEn[c] = true := by
  cases h with
  | seqInit => exact absurd rfl hi
  | discAdc => simpa [discoverChannels] using .inl hc
  | _ => exact hc

theorem Effect.pins_grow {i : Instr} {s t : State} (h : Effect i s t) (hi : i ≠ .seqInit) :
    s.gpioTab.map GpioEntry.pin <+: t.gpioTab.map GpioEntry.pin := by
  cases h with
  | seqInit => exact absurd rfl hi
  | discGpioStep | discGpioLast => exact pins_scanModule _ _ _ _
  | gpioCmpReport hs => rw [pins_set_last (sampledEntry_some hs)]
  | _ => exact List.prefix_rfl

/-- Settles O23: only discovery and a level report touch the tracking cells. -/
theorem trackingOnlyGrows : Obligations.TrackingOnlyGrows :=
  fun _ _ _ hi h => ⟨(exec_effect h).adcEn_grows hi, (exec_effect h).pins_grow hi⟩

end Sys2Proof.Machine
end

section
/-! The state at power-on (R68), and the invariant: it holds there, and every step keeps it. -/

namespace Sys2Proof.Machine

open Sys2Proof.Config

/-! ## Power-on -/

/-- Settles O24: every value stands in `State.powerOn`; a shared word has no byte there, and a halted RTU no operation. -/
theorem powerOnValues : Obligations.PowerOnValues := by
  intro p e
  have hoe : ∀ m : Fin 4, (State.powerOn p e).gpioOe[m] = p.oeReset := fun m => Vector.getElem_replicate m.isLt
  have hout : ∀ m : Fin 4, (State.powerOn p e).gpioDataout[m] = p.dataoutReset := fun m => Vector.getElem_replicate m.isLt
  have hpin : ∀ q : Fin 128, (State.powerOn p e).hregPin[q] = .none := fun q => Vector.getElem_replicate q.isLt
  have hadc : ∀ c : Fin 14, (State.powerOn p e).hregAdc[c] = false := fun c => Vector.getElem_replicate c.isLt
  have hrefused : (State.powerOn p e).refused = true ↔ ¬ p.BasesAligned := decide_eq_true_iff
  exact ⟨fun _ => rfl, fun m => ⟨hoe m, hout m⟩, rfl, rfl, hpin, hadc, rfl, rfl, rfl, rfl, rfl, rfl, hrefused, rfl⟩

/-- A halted RTU leaves the sweep free. -/
theorem SweepInv.of_not_run {s : State} (h : s.seq ≠ .run) : SweepInv s :=
  ⟨fun hr => absurd hr h, fun hr => absurd hr h, fun hr => absurd hr h, fun hr => absurd hr h, fun hr => absurd hr h,
    fun hr => absurd hr h⟩

/-- No pair awaits the comparator. -/
theorem PairInv.of_not_valid {s : State} (h : s.curValid = false) : PairInv s := by
  constructor <;> simp [h]

/-- No report awaits the codec. -/
theorem ReportInv.of_none {s : State} (h : s.repPend = .none) : ReportInv s := by
  constructor <;> simp [h]

/-- `GIDX` is used in the phases `GPIO` and `DISCG` only. -/
theorem IndexInv.of_phase {s : State} (hg : s.phase ≠ .gpio) (hd : s.phase ≠ .discg) : IndexInv s :=
  ⟨fun h => absurd h hg, fun h => absurd h hd⟩

theorem TableInv.of_nil {s : State} (h : s.gpioTab = []) : TableInv s := by
  constructor <;> simp [h]

/-- Settles O25: nothing is written, the RTU is halted, nothing is pending and nothing is tracked. -/
theorem invAtPowerOn : Obligations.InvAtPowerOn := fun p e =>
  { memory := ⟨List.Pairwise.nil, fun _ h => absurd rfl h⟩
    sweep := .of_not_run nofun
    pair := .of_not_valid rfl
    table := .of_nil rfl
    report := .of_none rfl
    index := .of_phase nofun nofun
    last := fun c v h => by simp [State.powerOn, Vector.getElem?_replicate] at h }

/-! ## Memory -/

/-- A whole-word write keeps the memory's invariant. -/
theorem MemoryInv.of_writeWord {s t : State} {w : Nat} {v : Word} (h : MemoryInv s) (ht : t.shm = s.shm.writeWord w v) :
    MemoryInv t where
  canonical := ht ▸ wf_writeWord h.canonical w v
  whole a ha := by
    rw [ht] at ha ⊢
    by_cases hw : a / 4 = w
    · simp [hw]
    · rw [readByte_writeWord_of_outside _ _ _ (by omega)] at ha
      rw [readWord_writeWord_of_ne _ hw]
      exact h.whole a ha

theorem MemoryInv.of_zeroed {l : List Nat} {s t : State} (h : MemoryInv s) (ht : t.shm = s.shm.zeroed l) : MemoryInv t := by
  induction l generalizing s with
  | nil =>
    have he : t.shm = s.shm := ht
    exact ⟨he ▸ h.canonical, he ▸ h.whole⟩
  | cons w rest ih =>
    exact ih (s := { s with shm := s.shm.writeWord w 0 }) (h.of_writeWord rfl) ht

theorem MemoryInv.effect {i : Instr} {s t : State} (h : MemoryInv s) (he : Effect i s t) : MemoryInv t := by
  cases he with
  | rbInit _ _ hm => exact h.of_zeroed hm
  | rbWriteStore | rbWritePublish | rbReadRelease | cfgPinInput | regAdcRequest => exact h.of_writeWord rfl
  | _ => exact ⟨h.canonical, h.whole⟩

/-! ## The sweep -/

/-- Where at most seven results are queued or due, the phase may be any. -/
theorem SweepInv.of_few {s t : State} (h : SweepInv s)
    (hcells : (t.seq, t.adcPend, t.adcNext, t.adcFifo) = (s.seq, s.adcPend, s.adcNext, s.adcFifo))
    (hfew : s.seq = .run → s.adcFifo.length + s.adcPend ≤ 7) : SweepInv t := by
  simp only [Prod.mk.injEq] at hcells
  obtain ⟨hseq, hpend, hnext, hfifo⟩ := hcells
  constructor <;> rw [hseq] <;> intro hrun
  · exact hpend ▸ h.pend_le hrun
  · exact hnext ▸ h.next_le hrun
  · exact hpend ▸ hnext ▸ h.counts hrun
  · exact hfifo ▸ h.steps hrun
  · have := hfew hrun
    rw [hpend, hfifo]
    omega
  · exact fun _ => hpend ▸ hfifo ▸ hfew hrun

/-- Outside the drain at most seven results are queued or due. -/
theorem SweepInv.few_of_rtuAt {s : State} {p : Phase} (h : SweepInv s) (hat : RtuAt s p) (hp : p ≠ .drain) :
    s.seq = .run → s.adcFifo.length + s.adcPend ≤ 7 := by
  obtain ⟨-, -, -, -, hphase⟩ := hat
  exact fun hrun => h.other_bound hrun (hphase ▸ hp)

theorem SweepInv.adcTrig {s : State} (h : SweepInv s) (hat : RtuAt s .trig) (hp : s.adcPend = 0) :
    SweepInv { s with adcPend := 7, adcNext := 0, phase := .drain } where
  pend_le _ := le_rfl
  next_le _ := Nat.zero_le 7
  counts _ _ := rfl
  steps := h.steps
  drain_bound hrun _ := by
    have := h.few_of_rtuAt hat nofun hrun
    simp only
    omega
  other_bound _ hne := absurd rfl hne

theorem SweepInv.adcPop {s t : State} {r : AdcResult} {rest : List AdcResult} (h : SweepInv s) (hf : s.adcFifo = r :: rest)
    (hcells : (t.seq, t.phase, t.adcPend, t.adcNext, t.adcFifo) = (s.seq, s.phase, s.adcPend, s.adcNext, rest)) :
    SweepInv t := by
  simp only [Prod.mk.injEq] at hcells
  obtain ⟨hseq, hphase, hpend, hnext, hfifo⟩ := hcells
  have hlen : s.adcFifo.length = rest.length + 1 := by simp [hf]
  constructor <;> rw [hseq] <;> intro hrun
  · exact hpend ▸ h.pend_le hrun
  · exact hnext ▸ h.next_le hrun
  · exact hpend ▸ hnext ▸ h.counts hrun
  · intro x hx
    exact h.steps hrun x (hf ▸ List.mem_cons_of_mem r (hfifo ▸ hx))
  · intro hd
    have := h.drain_bound hrun (hphase ▸ hd)
    rw [hpend, hfifo]
    omega
  · intro hd
    have := h.other_bound hrun (hphase ▸ hd)
    rw [hpend, hfifo]
    omega

/-- A conversion moves one result from the sweep to the queue. -/
theorem SweepInv.adcConv {s : State} {step : BitVec 4} {data : BitVec 12} (h : SweepInv s) (hen : CanAdcConv s step) :
    SweepInv { s with adcFifo := s.adcFifo ++ [⟨step, data⟩], adcNext := s.adcNext + 1, adcPend := s.adcPend - 1 } := by
  obtain ⟨hpos, hstep, -⟩ := hen
  have hlen : (s.adcFifo ++ [AdcResult.mk step data]).length + (s.adcPend - 1) = s.adcFifo.length + s.adcPend := by
    simp only [List.length_append, List.length_singleton]
    omega
  constructor <;> intro hrun <;> have hc := h.counts hrun hpos
  case pend_le | next_le | counts =>
    simp only
    omega
  case steps =>
    intro r hr
    obtain hr | hr := List.mem_append.1 hr
    · exact h.steps hrun r hr
    · obtain rfl := List.mem_singleton.1 hr
      simp only
      omega
  case drain_bound => exact fun hd => hlen ▸ h.drain_bound hrun hd
  case other_bound => exact fun hd => hlen ▸ h.other_bound hrun hd

theorem SweepInv.effect {i : Instr} {s t : State} (h : SweepInv s) (hen : Enabled i s) (he : Effect i s t) : SweepInv t := by
  cases he with
  | seqInit => constructor <;> simp
  | muxAdv | discAdc | discGpioLast => exact h.of_few rfl (h.few_of_rtuAt hen nofun)
  | gpioEnd | tmrWait => exact h.of_few rfl (h.few_of_rtuAt hen.1 nofun)
  | adcTrig hp => exact h.adcTrig hen hp
  | adcPop hf => exact h.adcPop hf rfl
  | adcEnd =>
    obtain ⟨-, hempty, -⟩ := hen
    exact h.of_few rfl fun hrun => by simpa [hempty] using h.pend_le hrun
  | adcConv => exact h.adcConv hen
  | rtuStart | rtuHalt => exact .of_not_run nofun
  | _ => exact ⟨h.pend_le, h.next_le, h.counts, h.steps, h.drain_bound, h.other_bound⟩

/-! ## The pair and the report -/

theorem PairInv.effect {i : Instr} {s t : State} (h : PairInv s) (hen : Enabled i s) (he : Effect i s t) : PairInv t := by
  cases he with
  | seqInit | fastAvgReport | fastAvgQuiet | slowCmpReport | slowCmpQuiet | adcSkip => exact .of_not_valid rfl
  | adcPop _ hc => exact ⟨fun _ => chmap_channel hc, nofun⟩
  | fastAcc =>
    obtain ⟨-, -, hfast⟩ := hen
    exact ⟨fun _ => le_trans hfast (by decide), fun _ _ => hfast⟩
  | _ => exact ⟨h.channel, h.fast⟩

theorem PairInv.channel_of_pairAt {s : State} {st : CurStage} (h : PairInv s) (hat : PairAt s st) : s.curCh.toNat ≤ 13 := by
  obtain ⟨-, -, -, hvalid, -⟩ := hat
  exact h.channel hvalid

theorem TableInv.named_sampled {s : State} {k : Nat} {e : GpioEntry} (h : TableInv s) (hs : s.sampledEntry = some (k, e)) :
    e.pin.toNat ≤ 127 :=
  h.named e (List.mem_of_getElem? (sampledEntry_some hs))

theorem ReportInv.effect {i : Instr} {s t : State} (h : ReportInv s) (hpair : PairInv s) (htable : TableInv s)
    (hen : Enabled i s) (he : Effect i s t) : ReportInv t := by
  cases he with
  | encGpio | encAdc | seqInit => exact .of_none rfl
  | fastAvgReport => exact ⟨fun _ => hpair.channel_of_pairAt hen, nofun⟩
  | slowCmpReport => exact ⟨fun _ => hpair.channel_of_pairAt hen.1, nofun⟩
  | gpioCmpReport hs => exact ⟨nofun, fun _ => htable.named_sampled hs⟩
  | _ => exact ⟨h.channel, h.pin⟩

/-! ## The tracking table -/

/-- A pin that is not tracked and exists is appended while there is room. -/
theorem TableInv.append {s : State} {pin : BitVec 8} (h : TableInv s) (hpin : pin.toNat ≤ 127)
    (hnew : tracked s.gpioTab pin = false) (hroom : s.gpioTab.length < s.params.maxGpio) :
    TableInv { s with gpioTab := s.gpioTab ++ [⟨pin, none⟩] } where
  distinct := by
    have hnot : pin ∉ s.gpioTab.map GpioEntry.pin := fun hm => by simp [(tracked_iff _ _).2 hm] at hnew
    simpa using List.Nodup.concat hnot h.distinct
  named e he := by
    obtain he | he := List.mem_append.1 he
    · exact h.named e he
    · exact List.mem_singleton.1 he ▸ hpin
  bounded := by simpa using hroom

theorem TableInv.scan {s : State} {x : Word} {m : Nat} (h : TableInv s) (hm : m < 4) :
    TableInv { s with gpioTab := scanModule s.params.maxGpio x m s.gpioTab } :=
  scanModule_induction (P := fun tab => TableInv { s with gpioTab := tab }) h fun tab b hb ih hnew hroom =>
    ih.append (by rw [pinId_toNat hm hb]; omega) hnew hroom

/-- The invariant of the table depends on its pin ids and the capacity alone. -/
theorem TableInv.of_pins {s t : State} (h : TableInv s)
    (hpins : t.gpioTab.map GpioEntry.pin = s.gpioTab.map GpioEntry.pin) (hparams : t.params = s.params) : TableInv t where
  distinct := hpins ▸ h.distinct
  named e he := by
    obtain ⟨e', he', hpin⟩ := List.mem_map.1 (hpins ▸ List.mem_map_of_mem he : e.pin ∈ s.gpioTab.map GpioEntry.pin)
    exact hpin ▸ h.named e' he'
  bounded := by
    have hlen := congrArg List.length hpins
    simp only [List.length_map] at hlen
    exact hlen ▸ hparams ▸ h.bounded

theorem TableInv.effect {i : Instr} {s t : State} (h : TableInv s) (he : Effect i s t) : TableInv t := by
  cases he with
  | seqInit => exact .of_nil rfl
  | discGpioStep lr hg => exact (h.scan (by omega)).of_pins rfl rfl
  | discGpioLast lr hg => exact (h.scan (by omega)).of_pins rfl rfl
  | gpioCmpReport hs => exact h.of_pins (pins_set_last (sampledEntry_some hs) _) rfl
  | _ => exact ⟨h.distinct, h.named, h.bounded⟩

/-! ## The index -/

theorem IndexInv.effect {i : Instr} {s t : State} (h : IndexInv s) (hen : Enabled i s) (he : Effect i s t) : IndexInv t := by
  cases he with
  | seqInit | muxAdv | adcTrig | gpioEnd | discGpioLast | tmrWait => exact .of_phase nofun nofun
  | adcEnd => exact ⟨fun _ => Nat.zero_le _, nofun⟩
  | discAdc => exact ⟨nofun, fun _ => Nat.zero_le 3⟩
  | discGpioStep _ hg =>
    obtain ⟨-, -, -, -, hphase⟩ := hen
    exact ⟨fun hp => absurd (hphase.symm.trans hp) nofun, fun _ => hg⟩
  | gpioCmpReport | gpioCmpQuiet =>
    obtain ⟨⟨-, -, -, -, hphase⟩, hlt⟩ := hen
    exact ⟨fun _ => by simpa using hlt, fun hp => absurd (hphase.symm.trans hp) nofun⟩
  | _ => exact ⟨h.sampling, h.scanning⟩

/-! ## The last-reported values -/

/-- Eight samples of 7 bits have a 7-bit average (R203). -/
theorem average_le (buf : Vector (BitVec 7) 8) : (average buf).toNat ≤ 127 := by
  have hsum : bufferSum buf ≤ 8 * 127 := by
    refine (List.sum_le_card_nsmul (buf.toList.map BitVec.toNat) 127 fun n hn => ?_).trans (by simp)
    obtain ⟨v, -, rfl⟩ := List.mem_map.1 hn
    exact Nat.le_of_lt_succ v.isLt
  rw [average, BitVec.toNat_ofNat, Nat.shiftRight_eq_div_pow]
  omega

theorem initialLast_le {init : LastInit} {v : BitVec 12} (h : initialLast init = some v) : v.toNat ≤ 127 := by
  cases init with
  | unknown => cases h
  | zero => cases h; decide

/-- A new last-reported value keeps the invariant when it is a 7-bit one or its channel is slow. -/
theorem LastInv.of_set {s t : State} {c : Nat} {v : BitVec 12} (h : LastInv s) (hv : c ≤ 5 → v.toNat ≤ 127)
    (ht : t.adcLast = s.adcLast.setIfInBounds c (some v)) : LastInv t := by
  intro d u hu
  rw [ht, Vector.getElem?_setIfInBounds] at hu
  split at hu
  · rename_i hcd
    split at hu
    · cases hu
      exact hv (by omega)
    · cases hu
  · exact h d u hu

theorem LastInv.discover {s : State} (h : LastInv s) (x : Word) : LastInv (discoverChannels x s) := by
  intro c v hv
  have hc : c.val < 14 := by omega
  simp only [discoverChannels, Vector.getElem?_ofFn, hc, dite_true, Option.some.injEq] at hv
  split at hv
  · exact initialLast_le hv
  · exact h c v (by simpa [hc] using hv)

theorem LastInv.effect {i : Instr} {s t : State} (h : LastInv s) (hen : Enabled i s) (he : Effect i s t) : LastInv t := by
  cases he with
  | fastAvgReport => exact h.of_set (fun _ => average_le _) rfl
  | slowCmpReport =>
    obtain ⟨-, -, hslow⟩ := hen
    exact h.of_set (fun hc => by omega) rfl
  | discAdc => exact h.discover _
  | _ => exact fun c v hv => h c v hv

/-! ## Every step -/

theorem BlockInv.effect {i : Instr} {s t : State} (h : BlockInv s) (hen : Enabled i s) (he : Effect i s t) : BlockInv t where
  memory := h.memory.effect he
  sweep := h.sweep.effect hen he
  pair := h.pair.effect hen he
  table := h.table.effect he
  report := h.report.effect h.pair h.table hen he
  index := h.index.effect hen he
  last := h.last.effect hen he

/-- The invariant says nothing of the model's own cells, nor of the mark `REFUSED`. -/
theorem BlockInv.of_model_cells {s : State} (h : BlockInv s) (p : List Command) (n : Nat) (r : Bool) :
    BlockInv { s with pending := p, tick := n, refused := r } where
  memory := ⟨h.memory.canonical, h.memory.whole⟩
  sweep := ⟨h.sweep.pend_le, h.sweep.next_le, h.sweep.counts, h.sweep.steps, h.sweep.drain_bound, h.sweep.other_bound⟩
  pair := ⟨h.pair.channel, h.pair.fast⟩
  table := ⟨h.table.distinct, h.table.named, h.table.bounded⟩
  report := ⟨h.report.channel, h.report.pin⟩
  index := ⟨h.index.sampling, h.index.scanning⟩
  last := h.last

/-- Settles O26: a step is a refusal, no move, or one operation's effect, and each keeps the invariant. -/
theorem stepKeepsInv : Obligations.StepKeepsInv := by
  intro s t h hstep
  obtain ⟨p, u, rfl, rfl | rfl | ⟨i, -, he⟩⟩ := nextStep_next hstep
  · exact ⟨h.of_model_cells p _ true, rfl⟩
  · exact ⟨h.of_model_cells p _ s.refused, rfl⟩
  · have hu : BlockInv u := (h.of_model_cells p s.tick s.refused).effect (exec_enabled he) (exec_effect he)
    exact ⟨hu.of_model_cells u.pending _ u.refused, (exec_effect he).params_eq⟩

end Sys2Proof.Machine
end

section
/-! Shared words (R79, R82, R83): what one read and one write do under each memory order, and the interest words (R92). -/

namespace Sys2Proof.Machine

open Sys2Proof.Config

/-- Settles O18: a word with no value is refused in either order, and a completed write has stored its word. -/
theorem unwrittenWordsFault : Obligations.UnwrittenWordsFault := by
  intro side w s hw
  refine ⟨memRead_unwritten hw, fun v => ?_⟩
  obtain ⟨t, ht⟩ := memWrite_completes (side := side) (v := v) hw
  obtain ⟨-, lh, lr, rfl, -⟩ := memWrite_ok ht
  exact ⟨_, ht, readWord_writeWord_same s.shm w v⟩

/-- Settles O19: under `SC` the accesses are a read and a write of the bytes alone. -/
theorem scReadsLastWrite : Obligations.ScReadsLastWrite := by
  intro side w s hw hsc
  exact ⟨fun v hv => memRead_sc hw hsc hv, fun v => ⟨_, memWrite_sc hw hsc, rfl, readWord_writeWord_same s.shm w v,
    fun a ha => readByte_writeWord_of_outside s.shm w v ha⟩⟩

/-! ## The weak order -/

section

variable {side : Side} {w : Nat} {s : State}

@[simp] theorem dropStale_zero (w : Nat) (l : List (Nat × Word)) : dropStale w 0 l = l := by
  cases l <;> rfl

@[simp] theorem setStale_self (s : State) (side : Side) : s.setStale side (s.stale side) = s := by
  cases side <;> rfl

/-- A `MemRead` under `WEAK` of a word with the value `u`: a draw chooses among the older values and `u` (R83). -/
theorem memRead_weak {u : Word} (hw : w < s.params.shmWords) (hm : s.params.memOrder = .weak) (hu : s.shm.readWord w = some u) :
    ∃ k, k ≤ (staleValues (s.stale side) w).length ∧
      memRead side w s =
        .ok ((staleValues (s.stale side) w).getD k u, s.setStale side (dropStale w k (s.stale side))) :=
  ⟨freeReadPick s.tick w % ((staleValues (s.stale side) w).length + 1), Nat.le_of_lt_succ (Nat.mod_lt _ (Nat.succ_pos _)), by
    simp [memRead, Nat.not_le.2 hw, hm, hu]⟩

/-- With no older value left, a `MemRead` under `WEAK` returns the last write and changes nothing. -/
theorem memRead_weak_newest {u : Word} (hw : w < s.params.shmWords) (hm : s.params.memOrder = .weak)
    (hu : s.shm.readWord w = some u) (hnone : staleValues (s.stale side) w = []) : memRead side w s = .ok (u, s) := by
  obtain ⟨k, hk, hr⟩ := memRead_weak (side := side) hw hm hu
  rw [hnone] at hk hr
  obtain rfl : k = 0 := Nat.le_zero.1 hk
  simpa using hr

/-- A `MemWrite` under `WEAK`: the writer forgets the older values of the word, and the other side keeps the value overwritten
(R83). -/
theorem memWrite_weak {v : Word} {t : State} (hm : s.params.memOrder = .weak) (h : memWrite side w v s = .ok t) :
    t.stale side = (s.stale side).filter (fun e => !decide (e.1 = w)) ∧
      t.stale side.other = s.stale side.other ++ ((s.word w).map (fun u => (w, u))).toList := by
  obtain ⟨hw, -⟩ := memWrite_ok h
  simp only [memWrite, if_neg (Nat.not_le.2 hw), hm] at h
  cases h
  cases side <;> exact ⟨by simp [State.stale, State.setStale, Side.other], rfl⟩

end

/-- The values a side may still see, the last write newest. -/
theorem getElem?_append_newest {l : List Word} {k : Nat} (hk : k ≤ l.length) (u : Word) :
    (l ++ [u])[k]? = some (l.getD k u) := by
  obtain hlt | rfl := hk.lt_or_eq
  · simp [List.getElem?_append_left, hlt]
  · simp

/-- Settles O20: a read drops the older values of its word up to the one drawn; a write leaves its own side none of them. -/
theorem weakReadsAreCoherent : Obligations.WeakReadsAreCoherent := by
  intro side w s hw hm
  refine ⟨fun u hu => ?read, fun v => ?write⟩
  case read =>
    obtain ⟨k, hk, hr⟩ := memRead_weak (side := side) hw hm hu
    refine ⟨_, _, k, hr, getElem?_append_newest hk u, ?_, fun x hx => ?_, ?_⟩
    · simp [staleValues_dropStale]
    · simp [staleValues_dropStale_of_ne hx]
    · simp
  case write =>
    obtain ⟨t, ht⟩ := memWrite_completes (side := side) (v := v) hw
    obtain ⟨hmine, htheirs⟩ := memWrite_weak hm ht
    obtain ⟨-, lh, lr, rfl, -⟩ := memWrite_ok ht
    have hword := readWord_writeWord_same s.shm w v
    refine ⟨_, ht, memRead_weak_newest hw hm hword ?_, hword, ?_, fun x hx => ⟨?_, ?_⟩,
      fun a ha => readByte_writeWord_of_outside s.shm w v ha, rfl⟩
    · simp [hmine]
    · simp [htheirs, staleValues_overwritten]
    · rw [hmine, staleValues_forget_of_ne hx]
    · simp [htheirs, staleValues_overwritten, hx]

/-! ## The interest words -/

theorem getLsbD_setBit_of_set {v : Word} {k : Nat} (b : Nat) (h : v.getLsbD k = true) : (setBit v b).getLsbD k = true := by
  simp [setBit, h]

/-- A word after the host has set one bit of a word: kept, or a bit of the value read is set in it. -/
theorem word_of_request {s s1 t : State} {x b : Nat} {g : Word} (hr : memRead .host x s = .ok (g, s1))
    (ht : t.shm = s.shm.writeWord x (setBit g b)) (w : Nat) :
    t.word w = s.word w ∨ ∃ g s1 b, memRead .host w s = .ok (g, s1) ∧ t.word w = some (setBit g b) := by
  have hword : t.word w = if w = x then some (setBit g b) else s.word w :=
    (congrArg (Memory.readWord · w) ht).trans (readWord_writeWord s.shm x w _)
  by_cases hx : w = x
  · exact .inr ⟨g, s1, b, hx ▸ hr, hword.trans (if_pos hx)⟩
  · exact .inl (hword.trans (if_neg hx))

/-- Every operation but `RB_INIT` leaves an interest word, or sets one bit of the value the host reads there (R36, R37). -/
theorem Effect.interestWord {i : Instr} {s t : State} {w : Nat} (h : Effect i s t) (hi : i ≠ .rbInit) (hlo : 1026 ≤ w) :
    t.word w = s.word w ∨ ∃ g s1 b, memRead .host w s = .ok (g, s1) ∧ t.word w = some (setBit g b) := by
  cases h with
  | rbInit => exact absurd rfl hi
  | cfgPinInput _ _ _ _ hr | regAdcRequest _ _ hr => exact word_of_request hr rfl w
  | rbWriteStore =>
    have := slot_le s.wtail
    exact .inl (readWord_writeWord_of_ne _ (by omega) _)
  | rbWritePublish | rbReadRelease => exact .inl (readWord_writeWord_of_ne _ (by simp only [tailWord, headWord]; omega) _)
  | _ => exact .inl rfl

/-- Settles O22: under `SC` the value the host reads is the word's, and it sets a bit of that. -/
theorem interestBitsStaySet : Obligations.InterestBitsStaySet := by
  intro i s t hsc hi h w v hlo _ hv
  obtain hkept | ⟨g, s1, b, hr, hset⟩ := (exec_effect h).interestWord hi hlo
  · exact ⟨v, hkept.trans hv, fun _ => id⟩
  · obtain ⟨-, ⟨u, hu, hread⟩, -⟩ := memRead_ok hr
    obtain rfl : g = v := (hread hsc).1.trans (Option.some.inj (hu.symm.trans hv))
    exact ⟨_, hset, fun _ => getLsbD_setBit_of_set b⟩

end Sys2Proof.Machine
end

section
/-! No state that meets the invariant stops in a fault (R32, R40, R51; log 15): each operation accesses only cells that exist. -/

namespace Sys2Proof.Machine

open Sys2Proof.Config

/-- A pseudocode does not end at a cell that does not exist. -/
def NoHalt {α : Type} (b : Except Stop α) : Prop := ∀ f, b ≠ .error (.halt f)

/-! ## What a pseudocode ends with -/

section

variable {α β : Type} {b : Except Stop α} {e : Stop} {s : State}

@[simp] theorem noHalt_ok (a : α) : NoHalt (.ok a : Except Stop α) := nofun
@[simp] theorem noHalt_raise (f : ModelFault) : NoHalt (.error (.raise f) : Except Stop α) := nofun
@[simp] theorem noHalt_refuse (r : RefuseReason) : NoHalt (.error (.refuse r) : Except Stop α) := nofun

/-- A pseudocode that passes on the end of a part of it. -/
theorem noHalt_passOn (he : b = .error e) (h : NoHalt b) : NoHalt (.error e : Except Stop β) :=
  fun f hf => h f (he.trans (congrArg Except.error (Except.error.inj hf)))

theorem finish_noFault {b : Except Stop State} (h : NoHalt b) (f : Fault) : finish s b ≠ .fault f := by
  cases b with
  | ok t => exact nofun
  | error e =>
    cases e with
    | raise | refuse => exact nofun
    | halt x => exact absurd rfl (h x)

theorem guarded_noFault {m : String} {en : Prop} [Decidable en] {b : Except Stop State} (h : en → NoHalt b) (f : Fault) :
    guarded m en s b ≠ .fault f := by
  unfold guarded
  split
  · exact finish_noFault (h ‹_›) f
  · exact nofun

end

/-! ## Shared words -/

section

variable {side : Side} {s : State}

/-- Every word of the layout is in the region (R32). -/
theorem lt_shmWords (hwf : s.params.Wf) {w : Nat} (hw : w ≤ 1030) : w < s.params.shmWords :=
  (Nat.lt_succ_of_le hw).trans_le hwf.1

theorem slot_lt_shmWords (hwf : s.params.Wf) (x : Word) : slot x < s.params.shmWords :=
  lt_shmWords hwf ((slot_le x).trans (by decide))

theorem gpioInt_lt_shmWords (hwf : s.params.Wf) {m : Nat} (hm : m < 4) : gpioIntWord + m < s.params.shmWords :=
  lt_shmWords hwf (by simp only [gpioIntWord]; omega)

theorem memRead_noHalt {w : Nat} (hw : w < s.params.shmWords) : NoHalt (memRead side w s) := by
  intro f h
  obtain ⟨hout, -⟩ | ⟨-, -, he⟩ := memRead_error h
  · omega
  · cases he

theorem memWrite_noHalt {w : Nat} {v : Word} (hw : w < s.params.shmWords) : NoHalt (memWrite side w v s) :=
  fun _ h => absurd (memWrite_error h).1 (Nat.not_le.2 hw)

theorem readCursors_noHalt (hwf : s.params.Wf) : NoHalt (readCursors side s) := by
  unfold readCursors
  split
  · exact noHalt_passOn ‹_› (memRead_noHalt (lt_shmWords hwf (by decide)))
  · rename_i h1
    obtain ⟨-, -, l, rfl⟩ := memRead_ok h1
    split
    · exact noHalt_passOn ‹_› (memRead_noHalt (by simpa using lt_shmWords hwf (w := headWord) (by decide)))
    · split
      · simp
      · split <;> simp

theorem requestBit_noHalt {w b : Nat} (hw : w < s.params.shmWords) : NoHalt (requestBit w b s) := by
  unfold requestBit
  split
  · exact noHalt_passOn ‹_› (memRead_noHalt hw)
  · rename_i h1
    obtain ⟨-, -, l, rfl⟩ := memRead_ok h1
    exact memWrite_noHalt (by simpa using hw)

theorem zeroWords_noHalt {l : List Nat} (hl : ∀ w ∈ l, w < s.params.shmWords) : NoHalt (zeroWords l s) := by
  induction l generalizing s with
  | nil => exact noHalt_ok s
  | cons w rest ih =>
    obtain ⟨hw, hrest⟩ := List.forall_mem_cons.1 hl
    unfold zeroWords
    split
    · exact noHalt_passOn ‹_› (memWrite_noHalt hw)
    · rename_i h1
      obtain ⟨-, lh, lr, rfl, -⟩ := memWrite_ok h1
      exact ih hrest

end

/-! ## Registers -/

section

variable {s : State}

/-- A pin id up to 127 names a pin of one of the four modules (R44). -/
theorem pinModule_lt {pin : BitVec 8} (h : pin.toNat ≤ 127) : pinModule pin < 4 := by
  simp only [pinModule]
  omega

theorem regRead_noHalt {m : Nat} {r : GpioReg} (hm : m < 4) : NoHalt (regRead m r s) := by
  simp [regRead_of_lt hm]

theorem updateRegBit_noHalt {m b : Nat} {r : GpioReg} {level : BitVec 1} (hm : m < 4) :
    NoHalt (updateRegBit m r b level s) := by
  simp [updateRegBit, regRead_of_lt hm, regWrite_of_lt hm]

/-- The body of a host operation on a pin runs only for a pin that exists. -/
theorem pinChecked_noHalt {pin : BitVec 8} {body : Except Stop State} (h : pin.toNat ≤ 127 → NoHalt body) :
    NoHalt (pinChecked pin s body) := by
  unfold pinChecked
  split
  · simp
  · split
    · simp
    · exact h (by omega)

end

/-! ## Operations -/

section

variable {s : State}

theorem execRbWrite_noFault (hwf : s.params.Wf) (f : Fault) : execRbWrite s ≠ .fault f := by
  refine guarded_noFault (fun _ => ?_) f
  split
  · unfold ringWritePart1
    split
    · exact noHalt_passOn ‹_› (readCursors_noHalt hwf)
    · simp
  · unfold ringWritePart2
    split
    · exact noHalt_passOn ‹_› (memWrite_noHalt (slot_lt_shmWords hwf _))
    · simp
  · unfold ringWritePart3
    split
    · exact noHalt_passOn ‹_› (memWrite_noHalt (lt_shmWords hwf (by decide)))
    · simp
  · simp

theorem execRbRead_noFault (hwf : s.params.Wf) (f : Fault) : execRbRead s ≠ .fault f := by
  refine finish_noFault ?_ f
  split
  · unfold ringReadPart0
    split
    · exact noHalt_passOn ‹_› (readCursors_noHalt hwf)
    · simp
  · unfold ringReadPart2
    split
    · exact noHalt_passOn ‹_› (memRead_noHalt (slot_lt_shmWords hwf _))
    · simp
  · unfold ringReadPart3
    split
    · exact noHalt_passOn ‹_› (memWrite_noHalt (lt_shmWords hwf (by decide)))
    · simp

theorem startWrite_noHalt {word : Except Stop Word} (h : NoHalt word) : NoHalt (startWrite word s) := by
  unfold startWrite
  split
  · exact noHalt_passOn rfl h
  · simp

theorem encGpioWord_noHalt (pin level : Nat) : NoHalt (encGpioWord pin level) := by
  unfold encGpioWord
  split <;> simp

theorem encAdcWord_noHalt (channel value : Nat) : NoHalt (encAdcWord channel value) := by
  unfold encAdcWord
  split <;> simp

theorem popResult_noHalt (s : State) : NoHalt (popResult s) := by
  unfold popResult
  split
  · simp
  · split <;> simp

theorem execDiscAdc_noFault (hwf : s.params.Wf) (f : Fault) : execDiscAdc s ≠ .fault f := by
  refine guarded_noFault (fun _ => ?_) f
  split
  · exact noHalt_passOn ‹_› (memRead_noHalt (lt_shmWords hwf (by decide)))
  · simp

/-- In phase `DISCG` the module index is at most 3. -/
theorem execDiscGpio_noFault (h : IndexInv s) (hwf : s.params.Wf) (f : Fault) : execDiscGpio s ≠ .fault f := by
  refine guarded_noFault (fun hen => ?_) f
  obtain ⟨-, -, -, -, hphase⟩ := hen
  have hg := h.scanning hphase
  rw [if_neg (by omega)]
  split
  · exact noHalt_passOn ‹_› (memRead_noHalt (gpioInt_lt_shmWords hwf (Nat.lt_succ_of_le hg)))
  · simp

/-- A pair at stage `AVG` is a fast channel's, which has a buffer. -/
theorem execFastAvg_noFault (h : PairInv s) (f : Fault) : execFastAvg s ≠ .fault f := by
  refine guarded_noFault (fun hen => ?_) f
  obtain ⟨-, -, -, hvalid, hstage⟩ := hen
  have hlt : s.curCh.toNat < 6 := Nat.lt_succ_of_le (h.fast hvalid hstage)
  simp [hlt]

/-- The pin sampled is a tracked one, which exists. -/
theorem execGpioCmp_noFault (h : TableInv s) (f : Fault) : execGpioCmp s ≠ .fault f := by
  refine guarded_noFault (fun _ => ?_) f
  unfold samplePin
  split
  · simp
  · split
    · exact noHalt_passOn ‹_› (regRead_noHalt (pinModule_lt (h.named_sampled ‹_›)))
    · simp

theorem configurePin_noHalt {pin : BitVec 8} {b : BitVec 1} (hwf : s.params.Wf) (hpin : pin.toNat ≤ 127) :
    NoHalt (configurePin pin b s) := by
  have hm := pinModule_lt hpin
  unfold configurePin
  split
  · exact noHalt_passOn ‹_› (updateRegBit_noHalt hm)
  · rename_i h1
    obtain ⟨-, rfl⟩ := updateRegBit_ok h1
    split
    · rename_i h2
      split at h2
      · exact noHalt_passOn h2 (requestBit_noHalt (by simpa using gpioInt_lt_shmWords hwf hm))
      · cases h2
    · simp

theorem execCfgPin_noFault {pin : BitVec 8} {b : BitVec 1} (hwf : s.params.Wf) (f : Fault) : execCfgPin pin b s ≠ .fault f := by
  refine guarded_noFault (fun _ => pinChecked_noHalt fun hpin => ?_) f
  split
  · simp
  · split
    · simp
    · split
      · exact configurePin_noHalt hwf hpin
      · simp

theorem execRegAdc_noFault {ch : BitVec 4} (hwf : s.params.Wf) (f : Fault) : execRegAdc ch s ≠ .fault f := by
  refine guarded_noFault (fun _ => ?_) f
  split
  · simp
  · unfold registerChannel
    split
    · simp
    · split
      · exact noHalt_passOn ‹_› (requestBit_noHalt (lt_shmWords hwf (by decide)))
      · simp

theorem execPinSet_noFault (pin : BitVec 8) (b : BitVec 1) (f : Fault) : execPinSet pin b s ≠ .fault f := by
  refine finish_noFault ?_ f
  split
  · simp
  · -- the environment's write of a level is a register update of `DATAIN`
    exact updateRegBit_noHalt (r := .datain) (pinModule_lt (by omega))

/-- No operation stops in a fault from a state that meets the invariant. -/
theorem exec_noFault (h : BlockInv s) (hwf : s.params.Wf) (i : Instr) (f : Fault) : exec i s ≠ .fault f := by
  cases i with
  | rbInit =>
    have hall : ∀ w ∈ initWords, w ≤ 1030 := by decide
    exact guarded_noFault (fun _ => zeroWords_noHalt fun w hw => lt_shmWords hwf (hall w hw)) f
  | rbWrite => exact execRbWrite_noFault hwf f
  | rbRead => exact execRbRead_noFault hwf f
  | encGpio pin b => exact guarded_noFault (fun _ => startWrite_noHalt (encGpioWord_noHalt _ _)) f
  | encAdc ch val => exact guarded_noFault (fun _ => startWrite_noHalt (encAdcWord_noHalt _ _)) f
  | decode => exact guarded_noFault (fun _ => by split <;> simp) f
  | adcTrig => exact guarded_noFault (fun _ => by split <;> simp) f
  | adcPop => exact guarded_noFault (fun _ => popResult_noHalt s) f
  | discAdc => exact execDiscAdc_noFault hwf f
  | discGpio => exact execDiscGpio_noFault h.index hwf f
  | fastAvg => exact execFastAvg_noFault h.pair f
  | gpioCmp => exact execGpioCmp_noFault h.table f
  | cfgPin pin b => exact execCfgPin_noFault hwf f
  | regAdc ch => exact execRegAdc_noFault hwf f
  | setOut pin b => exact guarded_noFault (fun _ => pinChecked_noHalt fun hpin => updateRegBit_noHalt (pinModule_lt hpin)) f
  | pinSet pin b => exact execPinSet_noFault pin b f
  | tmrFire => exact nofun
  | _ => exact guarded_noFault (fun _ => noHalt_ok _) f

end

/-! ## Every step -/

section

variable {s : State} {f : Fault}

/-- An agent's attempt stops in a fault only by the operation's own meaning. -/
theorem attempt_fault {a : Agent} {i : Instr} (h : attempt a i s = .fault f) : exec i s = .fault f := by
  unfold attempt at h
  split at h
  · cases h
  · split at h
    · cases h
    · exact h

@[simp] theorem counted_fault {o : Host.Outcome State Fault Refusal} : counted o = .fault f ↔ o = .fault f := by
  cases o <;> simp [counted]

theorem perform_fault {c : Command} (h : perform c s = .fault f) : ∃ i, exec i s = .fault f := by
  unfold perform performWord at h
  rw [counted_fault] at h
  split at h
  · cases h
  · exact ⟨_, attempt_fault h⟩

theorem freeMove_fault {w : Word} (h : freeMove w s = .fault f) : ∃ i, exec i s = .fault f := by
  unfold freeMove at h
  split at h
  · cases h
  · split at h
    · cases h
    · cases h
      exact ⟨_, attempt_fault ‹_›⟩
    · cases h

/-- A step stops in a fault only by one operation's meaning, after taking off the placed command. -/
theorem nextStep_fault (h : nextStep s = .fault f) : ∃ p i, exec i { s with pending := p } = .fault f := by
  unfold nextStep at h
  split at h
  · exact ⟨_, perform_fault h⟩
  · exact ⟨s.pending, freeMove_fault (counted_fault.1 h)⟩

end

/-- Settles O27: a fault of a step is one of an operation, whose accesses are all to cells that exist. -/
theorem noFaultUnderInv : Obligations.NoFaultUnderInv := by
  intro s f h hwf hstep
  obtain ⟨p, i, hi⟩ := nextStep_fault hstep
  exact exec_noFault (h.of_model_cells p s.tick s.refused) hwf i f hi

end Sys2Proof.Machine
end

section
/-! The command words and the message words (R101, R102, R110 to R119): each decoder undoes its encoder, and a word that spells an
operation is the word the encoder gives for it. -/

namespace Sys2Proof

/-! ## Decoding an encoded word -/

@[simp] theorem encode_instr (m : Message) : encode m.instr = encodeMessage m := by
  cases m <;> rfl

/-- The decoder of command words undoes their encoder on every row of the opcode table that is no message. -/
theorem decodeCommand_encode {i : Instr} (hi : ∀ m : Message, i ≠ m.instr) : decodeCommand (encode i) = .op i := by
  cases i with
  | msgGpio pin level => exact absurd rfl (hi (.gpio pin level))
  | msgAdc channel value => exact absurd rfl (hi (.adc channel value))
  -- operands: the field laws of each format read them back
  | encGpio | cfgPin | setOut | pinSet | encAdc | adcConv | regAdc => simp [decodeCommand, encode, checked]
  | _ => rfl

/-- A message word with zero reserved bits spells no operation: its bits 31:24 are 0x00 or 0x80. -/
@[simp] theorem decodeCommand_encodeMessage (m : Message) : decodeCommand (encodeMessage m) = .illegalCommand := by
  cases m <;> simp [decodeCommand]

@[simp] theorem decodeMessage_encodeMessage (m : Message) : decodeMessage (encodeMessage m) = m := by
  cases m with
  | gpio pin level => simp only [decodeMessage, tag_gpio, pin_gpio, b_gpio, Bool.false_eq_true, if_false]
  | adc channel value => simp only [decodeMessage, tag_adc, ch_adc, val_adc, if_true]

theorem decodeTable_encode (i : Instr) : decodeTable (encode i) = i := by
  by_cases hm : ∃ m : Message, i = m.instr
  · obtain ⟨m, rfl⟩ := hm
    simp [decodeTable]
  · simp only [decodeTable, decodeCommand_encode (not_exists.1 hm)]

/-- The 32 low bits of a word are the word. -/
theorem ofNat_toNat_mod (w : Word) : BitVec.ofNat 32 (w.toNat % 2 ^ 32) = w := by
  rw [Nat.mod_eq_of_lt w.isLt, BitVec.ofNat_toNat, BitVec.setWidth_eq]

/-- Settles O2: an operation's word decodes to it, and a message's word spells no operation and carries the message. -/
theorem decodeOfEncode : Obligations.DecodeOfEncode := fun i => by
  rw [decodeTableWord, ofNat_toNat_mod, decodeTable_encode]

/-! ## Encoding a decoded operation -/

section

variable {w : Word} {o : BitVec 8}

/-- A range of a word's bits, put back where it stood, holds those bits and no others. -/
theorem bit_fieldAt_extract {low n : Nat} (h : low + n ≤ 32) (i : Nat) :
    (fieldAt (w.extractLsb' low n) low).getLsbD i = (decide (low ≤ i ∧ i < low + n) && w.getLsbD i) := by
  rw [bit_fieldAt, BitVec.getLsbD_extractLsb']
  by_cases hlo : low ≤ i
  · by_cases hhi : i < low + n
    · simp [hlo, hhi, show i < 32 by omega, show i - low < n by omega]
    · simp [hhi, show ¬ i - low < n by omega]
  · simp [hlo]

/-- Two neighbouring ranges of a word's bits, put back where they stood, are the range they make up. -/
theorem fieldAt_extract_or {low n s m k : Nat} (hs : low + n = s) (hk : n + m = k) (h : low + k ≤ 32) :
    fieldAt (w.extractLsb' s m) s ||| fieldAt (w.extractLsb' low n) low = fieldAt (w.extractLsb' low k) low := by
  apply BitVec.eq_of_getLsbD_eq
  intro i _
  have hsplit : low ≤ i ∧ i < low + k ↔ (s ≤ i ∧ i < s + m) ∨ (low ≤ i ∧ i < low + n) := by omega
  rw [BitVec.getLsbD_or, bit_fieldAt_extract (by omega), bit_fieldAt_extract (by omega), bit_fieldAt_extract h,
    ← Bool.and_or_distrib_right, ← Bool.decide_or]
  simp only [hsplit]

/-- A word whose bits between the operands and `OPC` are zero is its `OPC` and its operand bits (R118). -/
theorem opc_or_operands {low n : Nat} (hn : low + n = 24) (hz : w.extractLsb' low n = 0) :
    fieldAt (fieldOpc w) 24 ||| fieldAt (w.extractLsb' 0 low) 0 = w := by
  have hzero : fieldAt (w.extractLsb' low n) low = 0#32 := by simp [hz, fieldAt]
  calc fieldAt (fieldOpc w) 24 ||| fieldAt (w.extractLsb' 0 low) 0
    _ = fieldAt (w.extractLsb' 24 8) 24 ||| (fieldAt (w.extractLsb' low n) low ||| fieldAt (w.extractLsb' 0 low) 0) := by
      rw [hzero, BitVec.zero_or, fieldOpc]
    _ = fieldAt (w.extractLsb' 24 8) 24 ||| fieldAt (w.extractLsb' 0 24) 0 := by
      rw [fieldAt_extract_or (Nat.zero_add low) hn (by decide)]
    _ = fieldAt (w.extractLsb' 0 32) 0 := fieldAt_extract_or rfl rfl (by decide)
    _ = w := by simp [fieldAt]

theorem formN_of_fields (ho : fieldOpc w = o) (hz : zeroN w = true) : formN o = w := by
  rw [← opc_or_operands (w := w) (Nat.zero_add 24) (of_decide_eq_true hz), ho]
  simp [formN, fieldAt]

theorem formP_of_fields (ho : fieldOpc w = o) (hz : zeroP w = true) : formP o (fieldPin w) (fieldB w) = w := by
  calc formP o (fieldPin w) (fieldB w)
    _ = fieldAt (fieldOpc w) 24 ||| (fieldAt (w.extractLsb' 8 1) 8 ||| fieldAt (w.extractLsb' 0 8) 0) := by
      rw [ho, ← BitVec.or_assoc]; rfl
    _ = fieldAt (fieldOpc w) 24 ||| fieldAt (w.extractLsb' 0 9) 0 := congrArg _ (fieldAt_extract_or rfl rfl (by decide))
    _ = w := opc_or_operands rfl (of_decide_eq_true hz)

theorem formA_of_fields (ho : fieldOpc w = o) (hz : zeroA w = true) : formA o (fieldCh w) (fieldVal w) = w := by
  calc formA o (fieldCh w) (fieldVal w)
    _ = fieldAt (fieldOpc w) 24 ||| (fieldAt (w.extractLsb' 4 12) 4 ||| fieldAt (w.extractLsb' 0 4) 0) := by
      rw [ho, ← BitVec.or_assoc]; rfl
    _ = fieldAt (fieldOpc w) 24 ||| fieldAt (w.extractLsb' 0 16) 0 := congrArg _ (fieldAt_extract_or rfl rfl (by decide))
    _ = w := opc_or_operands rfl (of_decide_eq_true hz)

theorem formK_of_fields (ho : fieldOpc w = o) (hz : zeroK w = true) : formK o (fieldCh w) = w :=
  ho ▸ opc_or_operands (low := 4) rfl (of_decide_eq_true hz)

/-- One arm of the decoder: its operation is the verdict, if the zero bits are zero. -/
theorem encode_of_checked {zero : Bool} {i j : Instr} (h : checked zero j = .op i) (hj : zero = true → encode j = w) :
    encode i = w := by
  unfold checked at h
  split at h
  · cases h; exact hj ‹_›
  · cases h

end

/-- Settles O3: in each arm of the decoder the word is its `OPC`, the operands read from it and the zero bits checked. -/
theorem commandWordsUnique : Obligations.CommandWordsUnique := by
  intro w i h
  unfold decodeCommand at h
  split at h
  case h_4 | h_22 | h_24 | h_28 =>
    -- `ENC_GPIO`, `CFG_PIN`, `SET_OUT`, `PIN_SET`: format P
    exact encode_of_checked h fun hz => formP_of_fields (BitVec.eq_of_toNat_eq ‹_›) hz
  case h_5 | h_27 =>
    -- `ENC_ADC`, `ADC_CONV`: formats A and S
    exact encode_of_checked h fun hz => formA_of_fields (BitVec.eq_of_toNat_eq ‹_›) hz
  case h_23 =>
    -- `REG_ADC`: format K
    exact encode_of_checked h fun hz => formK_of_fields (BitVec.eq_of_toNat_eq ‹_›) hz
  case h_31 =>
    -- no operation has this `OPC`
    cases h
  all_goals exact encode_of_checked h fun hz => formN_of_fields (BitVec.eq_of_toNat_eq ‹_›) hz

/-- Settles O1: the decoders are evaluated on sixteen closed words. -/
theorem commandWordsDecode : Obligations.CommandWordsDecode := by
  unfold Obligations.CommandWordsDecode
  decide

end Sys2Proof
end

section
/-! A placed command (log 1): the checks of the agent that performs it and of the selection of the sequencer (R118, R170, R269), and
that a command passes them when the cells that select it are set. -/

namespace Sys2Proof.Machine

/-! ## The checks of a placed command -/

section

variable {s : State} {c : Command} {i : Instr} {a : Agent}

/-- A step with a command placed performs it, taken off the list. -/
theorem step_of_pending {rest : List Command} (h : s.pending = c :: rest) : step s = perform c { s with pending := rest } := by
  unfold step nextStep
  rw [h]

theorem attempt_of_selected (ha : i.agent = a) (hsel : i.agent = .rtu → rtuNext s = some i) : attempt a i s = exec i s := by
  rw [attempt, if_neg (not_not.2 ha), if_neg fun h => h.2 (hsel h.1)]

theorem attempt_of_wrongAgent (ha : i.agent ≠ a) : attempt a i s = .next (takeRefusal s) := if_pos ha

theorem attempt_of_not_selected (ha : i.agent = a) (hr : i.agent = .rtu) (hsel : rtuNext s ≠ some i) :
    attempt a i s = .refused (.notEnabled i.mnemonic) := by
  rw [attempt, if_neg (not_not.2 ha), if_pos ⟨hr, hsel⟩]

theorem perform_of_illegal (h : decodeCommand c.word = .illegalCommand) : perform c s = .next (takeRefusal s).ticked := by
  simp only [perform, performWord, h, counted]

theorem perform_of_op (h : decodeCommand c.word = .op i) : perform c s = counted (attempt c.agent i s) := by
  simp only [perform, performWord, h]

/-- The command that names an operation is performed as the operation, by its own agent. -/
theorem perform_command (hi : ∀ m : Message, i ≠ m.instr) : perform i.command s = act i s :=
  perform_of_op (c := i.command) (decodeCommand_encode hi)

end

/-- Settles O8: the command passes its checks. -/
theorem stepRunsPlacedCommand : Obligations.StepRunsPlacedCommand := by
  intro s c rest i hp hd ha hsel
  have hstep : step s = counted (exec i { s with pending := rest }) := by
    rw [step_of_pending hp, perform_of_op hd, attempt_of_selected (s := { s with pending := rest }) ha hsel]
  exact ⟨hstep, fun t ht => by rw [hstep, ht]; rfl⟩

/-- Settles O9: each check that fails ends the step before the next one. -/
theorem placedCommandChecks : Obligations.PlacedCommandChecks := by
  intro s c rest hp
  rw [step_of_pending hp]
  refine ⟨fun hd => perform_of_illegal hd, fun i hd ha => ?_, fun i hd ha hr hsel => ?_⟩
  · rw [perform_of_op hd, attempt_of_wrongAgent ha]; rfl
  · rw [perform_of_op hd, attempt_of_not_selected (s := { s with pending := rest }) ha hr hsel]; rfl

/-! ## An operation is refused only where it is not enabled -/

section

variable {s : State} {i : Instr} {r : Refusal}

theorem finish_ne_refused (b : Except Stop State) : finish s b ≠ .refused r := by
  unfold finish
  split <;> exact nofun

theorem guarded_refused {m : String} {en : Prop} [Decidable en] {b : Except Stop State} (h : guarded m en s b = .refused r) :
    ¬ en := fun hen => finish_ne_refused b (guarded_of hen ▸ h)

/-- An enabled operation is a step, or stops in a fault (R268). -/
theorem exec_refused (h : exec i s = .refused r) : ¬ Enabled i s := by
  cases i
  case tmrFire => cases h
  case rbRead | pinSet => exact absurd h (finish_ne_refused _)
  all_goals exact fun hen => guarded_refused h hen

@[simp] theorem counted_refused {o : Host.Outcome State Fault Refusal} : counted o = .refused r ↔ o = .refused r := by
  cases o <;> simp [counted]

end

/-! ## What the sequencer selects -/

/-- The operands of an encoding operation are those of the report that awaits it (R170; log 11). -/
def OperandsPending (i : Instr) (s : State) : Prop :=
  match i with
  | .encGpio pin b => s.repPin = pin ∧ s.repLvl = b
  | .encAdc ch val => s.repCh = ch ∧ s.repVal = val
  | _ => True

section

variable {s : State} {i : Instr}

theorem rtuNext_of_rtuAt {p : Phase} (h : RtuAt s p) : rtuNext s = phaseNext s := by
  obtain ⟨hseq, hw, hrep, hvalid, -⟩ := h
  simp [rtuNext, hseq, hw, hrep, hvalid]

theorem rtuNext_of_pairAt {st : CurStage} (h : PairAt s st) : rtuNext s = pairNext s := by
  obtain ⟨hseq, hw, hrep, hvalid, -⟩ := h
  simp [rtuNext, hseq, hw, hrep, hvalid]

/-- The sequencer selects the RTU's operation that is enabled (R170). -/
theorem rtuNext_of_enabled (hr : i.agent = .rtu) (hen : Enabled i s) (hops : OperandsPending i s) : rtuNext s = some i := by
  cases i with
  | rbWrite =>
    obtain ⟨hseq, hw⟩ := hen
    simp [rtuNext, hseq, hw]
  | encGpio pin b =>
    obtain ⟨hseq, hw, hrep⟩ := hen
    obtain ⟨rfl, rfl⟩ := hops
    simp [rtuNext, hseq, hw, hrep]
  | encAdc ch val =>
    obtain ⟨hseq, hw, hrep⟩ := hen
    obtain ⟨rfl, rfl⟩ := hops
    simp [rtuNext, hseq, hw, hrep]
  | seqInit =>
    have hseq : s.seq = .init := hen
    simp [rtuNext, hseq]
  | muxAdv | adcTrig | discAdc | discGpio =>
    obtain ⟨-, -, -, -, hphase⟩ := id hen
    rw [rtuNext_of_rtuAt hen]
    simp [phaseNext, hphase]
  | adcPop | gpioEnd | gpioCmp | tmrWait =>
    obtain ⟨hat, hcond⟩ := hen
    rw [rtuNext_of_rtuAt hat]
    simp [phaseNext, hat, hcond]
  | adcEnd =>
    obtain ⟨hat, hfifo, hdone⟩ := hen
    rw [rtuNext_of_rtuAt hat]
    have hnot : ¬ (s.params.adcMode = .sync ∧ s.adcPend ≠ 0) := by
      rintro ⟨hm, hp⟩
      simp [hm, hp] at hdone
    simp [phaseNext, hat, hfifo, hnot]
  | fastAcc =>
    obtain ⟨hat, hon, hfast⟩ := hen
    rw [rtuNext_of_pairAt hat]
    simp [pairNext, State.enabledChannel, hat, hon, hfast]
  | fastAvg =>
    obtain ⟨-, -, -, -, hstage⟩ := id hen
    rw [rtuNext_of_pairAt hen]
    simp [pairNext, hstage]
  | slowCmp =>
    obtain ⟨hat, hon, hslow⟩ := hen
    have hnot : ¬ s.curCh.toNat ≤ 5 := Nat.not_le.2 hslow
    rw [rtuNext_of_pairAt hat]
    simp [pairNext, State.enabledChannel, hat, hon, hnot]
  | adcSkip =>
    obtain ⟨hat, hoff⟩ := hen
    rw [rtuNext_of_pairAt hat]
    simp [pairNext, State.enabledChannel, hat, hoff]
  | _ => cases hr

end

/-! ## The cells that select an operation -/

section

variable {s : State}

theorem rtuAt_selectPhase (p : Phase) (s : State) : RtuAt (selectPhase p s) p := ⟨rfl, rfl, rfl, rfl, rfl⟩

theorem pairAt_selectPair (st : CurStage) (s : State) : PairAt (selectPair st s) st := ⟨rfl, rfl, rfl, rfl, rfl⟩

theorem channelWithin_bounds {lo hi : Nat} (c : BitVec 4) (hle : lo ≤ hi) (hhi : hi ≤ 15) :
    lo ≤ (channelWithin lo hi c).toNat ∧ (channelWithin lo hi c).toNat ≤ hi := by
  unfold channelWithin
  split
  · assumption
  · rw [BitVec.toNat_ofNat, Nat.mod_eq_of_lt (by omega)]
    exact ⟨le_rfl, hle⟩

/-- The chosen channel has a cell in `ADC_EN`, which holds what is put there. -/
theorem getElem?_set_channelWithin {lo hi : Nat} (en : Vector Bool 14) (c : BitVec 4) (b : Bool)
    (hle : lo ≤ hi) (hhi : hi ≤ 13) :
    (en.setIfInBounds (channelWithin lo hi c).toNat b)[(channelWithin lo hi c).toNat]? = some b :=
  Vector.getElem?_setIfInBounds_self_of_lt
    (Nat.lt_succ_of_le ((channelWithin_bounds c hle (hhi.trans (by decide))).2.trans hhi))

/-- `ADC_CONV` finds a step to convert and room in the queue, whose capacity is not 0 (R59, R242). -/
theorem enabled_selectFor_adcConv (hwf : s.params.Wf) (step : BitVec 4) (data : BitVec 12) :
    Enabled (.adcConv step data) (selectFor (.adcConv step data) s) := by
  refine ⟨?pend, rfl, ?room⟩
  case pend =>
    by_cases hp : s.adcPend = 0
    · simp [selectFor, hp]
    · simp [selectFor, hp, Nat.pos_of_ne_zero hp]
  case room =>
    by_cases hroom : s.adcFifo.length < s.params.fifoDepth
    · simp [selectFor, hroom]
    · have hdepth : 0 < s.params.fifoDepth := Nat.zero_lt_of_lt hwf.2
      simp [selectFor, hroom, hdepth]

/-- `GPIO_CMP` finds an entry of the table at `GIDX` (R206). -/
theorem enabled_selectFor_gpioCmp (s : State) : Enabled .gpioCmp (selectFor .gpioCmp s) := by
  refine ⟨rtuAt_selectPhase .gpio s, ?_⟩
  by_cases htab : s.gpioTab = []
  · simp [selectFor, htab]
  · by_cases hidx : s.gidx < s.gpioTab.length
    · simp [selectFor, htab, hidx]
    · simp [selectFor, htab, hidx, List.length_pos_iff.2 htab]

/-- With the selecting cells set, the operation's enabling condition holds. -/
theorem enabled_selectFor (hwf : s.params.Wf) (i : Instr) : Enabled i (selectFor i s) := by
  cases i with
  | rbRead | tmrFire | pinSet => exact trivial
  | rbWrite =>
    refine ⟨rfl, ?_⟩
    by_cases hw : s.wstep = .idle <;> simp [selectFor, hw]
  | encGpio | encAdc => exact ⟨rfl, rfl, rfl⟩
  | muxAdv | adcTrig | discAdc | discGpio => exact rtuAt_selectPhase _ s
  | adcPop =>
    refine ⟨rtuAt_selectPhase .drain s, ?_⟩
    by_cases hfifo : s.adcFifo = [] <;> simp [selectFor, hfifo]
  | adcEnd =>
    refine ⟨rtuAt_selectPhase .drain s, rfl, ?_⟩
    cases hm : s.params.adcMode with
    | async => exact .inl hm
    | sync => exact .inr (if_pos hm)
  | gpioEnd => exact ⟨rtuAt_selectPhase .gpio s, le_max_right _ _⟩
  | gpioCmp => exact enabled_selectFor_gpioCmp s
  | tmrWait => exact ⟨rtuAt_selectPhase .wait s, rfl⟩
  | fastAcc =>
    exact ⟨pairAt_selectPair .classify s, getElem?_set_channelWithin s.adcEn s.curCh true (by decide) (by decide),
      (channelWithin_bounds s.curCh (by decide) (by decide)).2⟩
  | fastAvg => exact pairAt_selectPair .avg s
  | slowCmp =>
    exact ⟨pairAt_selectPair .classify s, getElem?_set_channelWithin s.adcEn s.curCh true (by decide) (by decide),
      (channelWithin_bounds s.curCh (by decide) (by decide)).1⟩
  | adcSkip =>
    exact ⟨pairAt_selectPair .classify s, getElem?_set_channelWithin s.adcEn s.curCh false (by decide) (by decide)⟩
  | adcConv step data => exact enabled_selectFor_adcConv hwf step data
  | rtuStart => exact ⟨rfl, rfl⟩
  | rtuHalt =>
    refine ⟨rfl, ?_⟩
    by_cases hseq : s.seq = .halted <;> simp [selectFor, hseq]
  | _ => exact rfl

theorem operandsPending_selectFor (i : Instr) (s : State) : OperandsPending i (selectFor i s) := by
  cases i with
  | encGpio | encAdc => exact ⟨rfl, rfl⟩
  | _ => exact trivial

/-- With the selecting cells set, the sequencer selects an operation of the RTU (R170). -/
theorem rtuNext_selectFor {i : Instr} (hwf : s.params.Wf) (hr : i.agent = .rtu) : rtuNext (selectFor i s) = some i :=
  rtuNext_of_enabled hr (enabled_selectFor hwf i) (operandsPending_selectFor i s)

/-- Placing the word of an operation sets the cells that select it and places its command. -/
theorem withFetchWord_encode {i : Instr} (hi : ∀ m : Message, i ≠ m.instr) (s : State) :
    s.withFetchWord 32 (encode i).toNat = (selectFor i s).place i.command := by
  rw [State.withFetchWord, ofNat_toNat_mod, placeWord, decodeCommand_encode hi]
  rfl

/-- A step of a state in which an operation has been placed is the operation's meaning, counted. -/
theorem step_withFetchWord {i : Instr} (hwf : s.params.Wf) (hi : ∀ m : Message, i ≠ m.instr) :
    step (s.withFetchWord 32 (encode i).toNat) = counted (exec i (selectFor i s)) := by
  rw [withFetchWord_encode hi, step_place, perform_command hi, act, attempt_of_selected rfl (rtuNext_selectFor hwf)]

end

/-- Settles O11: the placed command passes its checks, and the operation is enabled. -/
theorem placedInstructionRunsNext : Obligations.PlacedInstructionRunsNext := by
  intro s i hwf hg ha
  have hi : ∀ m : Message, i ≠ m.instr
    | .gpio pin level => hg pin level
    | .adc channel value => ha channel value
  have hstep := step_withFetchWord hwf hi
  refine ⟨hstep, fun m hm => ?_⟩
  rw [hstep, counted_refused] at hm
  exact exec_refused hm (enabled_selectFor hwf i)

end Sys2Proof.Machine
end

section
/-! Ring cursors (R131, R133): what the masks compute, when the ring is empty and full, and which slots its unread messages are in. -/

namespace Sys2Proof.Machine

open Sys2Proof.Config

variable {h t : Word}

/-! ## The masks -/

theorem slot_eq_mod (x : Word) : slot x = x.toNat % 1024 := by
  rw [slot, BitVec.toNat_and]
  exact Nat.and_two_pow_sub_one_eq_mod x.toNat 10

theorem toNat_nextCursor (x : Word) : (nextCursor x).toNat = (x.toNat + 1) % 2048 := by
  have hmask : (nextCursor x).toNat = (x + 1).toNat % 2048 := by
    rw [nextCursor, BitVec.toNat_and]
    exact Nat.and_two_pow_sub_one_eq_mod (x + 1).toNat 11
  rw [hmask, BitVec.toNat_add]
  exact Nat.mod_mod_of_dvd _ (by decide)

theorem nextCursor_eq_ofNat (x : Word) : nextCursor x = BitVec.ofNat 32 ((x.toNat + 1) % 2048) := by
  rw [← toNat_nextCursor, BitVec.ofNat_toNat, BitVec.setWidth_eq]

theorem nextCursor_legal (x : Word) : (nextCursor x).toNat ≤ 2047 := by
  rw [toNat_nextCursor]
  omega

/-- Flipping bit 10 of a legal cursor moves it by half the cursor modulus. -/
theorem toNat_xor_ringSlots (hh : h.toNat ≤ 2047) : (h ^^^ 0x400#32).toNat = (h.toNat + 1024) % 2048 := by
  have hxor : (h ^^^ 0x400#32).toNat = h.toNat ^^^ 2 ^ 10 := BitVec.toNat_xor h 0x400#32
  have hlow : (h.toNat ^^^ 2 ^ 10) % 2 ^ 10 = h.toNat % 2 ^ 10 := by
    rw [Nat.xor_mod_two_pow, Nat.mod_self, Nat.xor_zero]
  have hhigh : (h.toNat ^^^ 2 ^ 10) / 2 ^ 10 = (h.toNat / 2 ^ 10) ^^^ 1 := by
    rw [Nat.xor_div_two_pow, Nat.div_self (by decide)]
  obtain hbit | hbit : h.toNat / 2 ^ 10 = 0 ∨ h.toNat / 2 ^ 10 = 1 := by omega
  · have : (h.toNat ^^^ 2 ^ 10) / 2 ^ 10 = 1 := by rw [hhigh, hbit]; rfl
    omega
  · have : (h.toNat ^^^ 2 ^ 10) / 2 ^ 10 = 0 := by rw [hhigh, hbit]; rfl
    omega

/-! ## Occupancy -/

theorem ringEmpty_iff (hh : h.toNat ≤ 2047) (ht : t.toNat ≤ 2047) : RingEmpty h t ↔ occupancy h t = 0 := by
  rw [RingEmpty, ← BitVec.toNat_inj, occupancy]
  omega

theorem ringFull_iff (hh : h.toNat ≤ 2047) (ht : t.toNat ≤ 2047) : RingFull h t ↔ occupancy h t = 1024 := by
  rw [RingFull, ← BitVec.toNat_inj, toNat_xor_ringSlots hh, occupancy]
  omega

/-- A published message is one more unread (R134). -/
theorem occupancy_nextCursor_tail (hh : h.toNat ≤ 2047) (hn : occupancy h t < 1024) :
    occupancy h (nextCursor t) = occupancy h t + 1 := by
  simp only [occupancy, toNat_nextCursor] at *
  omega

/-- A released message is one less unread (R134). -/
theorem occupancy_nextCursor_head (hn : 0 < occupancy h t) :
    occupancy h t = occupancy (nextCursor h) t + 1 := by
  simp only [occupancy, toNat_nextCursor] at *
  omega

@[simp] theorem occupancy_self (h : Word) : occupancy h h = 0 := by
  simp [occupancy]

/-! ## The slots of unread messages -/

theorem mem_liveSlots {i : Nat} : i ∈ liveSlots h t ↔ ∃ k < occupancy h t, (h.toNat + k) % 1024 = i := by
  simp [liveSlots]

theorem lt_of_mem_liveSlots {i : Nat} (hi : i ∈ liveSlots h t) : i < 1024 := by
  obtain ⟨k, -, rfl⟩ := mem_liveSlots.1 hi
  exact Nat.mod_lt _ (by decide)

theorem liveSlots_of_empty (hn : occupancy h t = 0) : liveSlots h t = [] := by
  simp [liveSlots, hn]

theorem liveSlots_nodup (hn : occupancy h t ≤ 1024) : (liveSlots h t).Nodup := by
  refine List.nodup_range.map_on fun j hj k hk hjk => ?_
  rw [List.mem_range] at hj hk
  omega

theorem mem_liveSlots_of_full (hn : occupancy h t = 1024) {i : Nat} (hi : i < 1024) : i ∈ liveSlots h t :=
  mem_liveSlots.2 ⟨(i + 1024 - h.toNat % 1024) % 1024, by omega, by omega⟩

/-- The `k`-th unread message is in `slot(h + k)` (R133). -/
theorem getElem?_liveSlots {k : Nat} (hh : h.toNat ≤ 2047) (hk : k < occupancy h t) :
    (liveSlots h t)[k]? = some (slot (BitVec.ofNat 32 (h.toNat + k))) := by
  have hlt : occupancy h t < 2048 := Nat.mod_lt _ (by decide)
  rw [slot_eq_mod, BitVec.toNat_ofNat, Nat.mod_eq_of_lt (a := h.toNat + k) (by omega)]
  simp [liveSlots, hk]

/-- With room left, the slot written next holds no unread message. -/
theorem slot_tail_not_mem_liveSlots (hn : occupancy h t < 1024) : slot t ∉ liveSlots h t := by
  intro hmem
  obtain ⟨k, hk, hslot⟩ := mem_liveSlots.1 hmem
  rw [slot_eq_mod] at hslot
  simp only [occupancy] at *
  omega

/-- Publishing puts the slot written last (R133). -/
theorem liveSlots_nextCursor_tail (hh : h.toNat ≤ 2047) (hn : occupancy h t < 1024) :
    liveSlots h (nextCursor t) = liveSlots h t ++ [slot t] := by
  have hlast : (h.toNat + occupancy h t) % 1024 = slot t := by
    rw [slot_eq_mod, occupancy]
    omega
  simp only [liveSlots, occupancy_nextCursor_tail hh hn, List.range_succ, List.map_append, List.map_singleton, hlast]

/-- The oldest unread message is in `slot(h)`, and releasing it leaves the others (R133). -/
theorem liveSlots_nextCursor_head (hn : 0 < occupancy h t) :
    liveSlots h t = slot h :: liveSlots (nextCursor h) t := by
  have hrest (k : Nat) : (h.toNat + (k + 1)) % 1024 = ((h.toNat + 1) % 2048 + k) % 1024 := by omega
  simp only [liveSlots, occupancy_nextCursor_head hn, List.range_succ_eq_map, List.map_cons, List.map_map, Nat.add_zero,
    slot_eq_mod, toNat_nextCursor, Function.comp_def, Nat.succ_eq_add_one, hrest]

/-- Settles O28: the occupancy is the cursors' distance, and `FULL` compares them half the modulus apart. -/
theorem occupancyDecidesEmptyFull : Obligations.OccupancyDecidesEmptyFull :=
  fun _ _ hh ht => ⟨ringEmpty_iff hh ht, ringFull_iff hh ht, liveSlots_nodup, fun hn _ => mem_liveSlots_of_full hn,
    fun _ => getElem?_liveSlots hh⟩

end Sys2Proof.Machine
end

section
/-! The parts of the ring operations (R130, R132, R135): each ends in one next state, written out, or in the faults of the cursors. -/

namespace Sys2Proof.Machine

open Sys2Proof.Config

variable {s s1 s2 : State} {side : Side} {h t v : Word}

/-! ## Reading the cursors -/

theorem lt_shmWords_of_size {w : Nat} (hsize : 1031 ≤ s.params.shmWords) (hw : w ≤ 1030) : w < s.params.shmWords := by
  omega

theorem slot_lt_shmWords_of_size (hsize : 1031 ≤ s.params.shmWords) (x : Word) : slot x < s.params.shmWords :=
  lt_shmWords_of_size hsize ((slot_le x).trans (by decide))

theorem memRead_shm {w : Nat} (hr : memRead side w s = .ok (v, s1)) : s1.shm = s.shm := by
  obtain ⟨-, -, l, rfl⟩ := memRead_ok hr
  exact setStale_shm s side l

section

variable (ht : memRead side tailWord s = .ok (t, s1)) (hh : memRead side headWord s1 = .ok (h, s2))

include ht hh

theorem readCursors_of_legal (lt : CursorLegal t) (lh : CursorLegal h) : readCursors side s = .ok (h, t, s2) := by
  simp only [readCursors, ht, hh, not_true_eq_false, if_false, lt, lh]

theorem readCursors_of_illegal_tail (lt : ¬ CursorLegal t) :
    readCursors side s = .error (.raise (.cursorRange tailWord t)) := by
  simp only [readCursors, ht, hh, if_pos lt]

theorem readCursors_of_illegal_head (lt : CursorLegal t) (lh : ¬ CursorLegal h) :
    readCursors side s = .error (.raise (.cursorRange headWord h)) := by
  simp only [readCursors, ht, hh, if_neg (not_not.2 lt), if_pos lh]

theorem readCursors_shm : s2.shm = s.shm := (memRead_shm hh).trans (memRead_shm ht)

end

theorem readCursors_of_unwritten_tail (hsize : 1031 ≤ s.params.shmWords) (ht : s.word tailWord = none) :
    readCursors side s = .error (.raise (.uninit (.word tailWord))) := by
  simp only [readCursors, memRead_unwritten (side := side) (lt_shmWords_of_size hsize (w := tailWord) (by decide)) ht]

theorem readCursors_of_unwritten_head (hsize : 1031 ≤ s.params.shmWords) (ht : s.word tailWord ≠ none)
    (hh : s.word headWord = none) : readCursors side s = .error (.raise (.uninit (.word headWord))) := by
  obtain ⟨u, hu⟩ := Option.ne_none_iff_exists'.1 ht
  obtain ⟨v, s1, hv⟩ := memRead_completes (side := side) (lt_shmWords_of_size hsize (w := tailWord) (by decide)) hu
  have herr : memRead side headWord s1 = .error (.raise (.uninit (.word headWord))) := by
    obtain ⟨-, -, l, rfl⟩ := memRead_ok hv
    exact memRead_unwritten (by simpa using lt_shmWords_of_size hsize (w := headWord) (by decide)) (by rwa [setStale_shm])
  simp only [readCursors, hv, herr]

/-! ## The part that comes next -/

section

variable (hseq : s.seq = .run)

include hseq

theorem exec_rbWrite_part1 (hw : s.wstep = .part1) : exec .rbWrite s = finish s (ringWritePart1 s) := by
  simp only [exec, execRbWrite, guarded_of (show CanRbWrite s from ⟨hseq, by simp [hw]⟩), hw]

theorem exec_rbWrite_part2 (hw : s.wstep = .part2) : exec .rbWrite s = finish s (ringWritePart2 s) := by
  simp only [exec, execRbWrite, guarded_of (show CanRbWrite s from ⟨hseq, by simp [hw]⟩), hw]

theorem exec_rbWrite_part3 (hw : s.wstep = .part3) : exec .rbWrite s = finish s (ringWritePart3 s) := by
  simp only [exec, execRbWrite, guarded_of (show CanRbWrite s from ⟨hseq, by simp [hw]⟩), hw]

end

theorem exec_rbRead_part0 (hr : s.rstep = .idle) : exec .rbRead s = finish s (ringReadPart0 s) := by
  simp only [exec, execRbRead, hr]

theorem exec_rbRead_part2 (hr : s.rstep = .part2) : exec .rbRead s = finish s (ringReadPart2 s) := by
  simp only [exec, execRbRead, hr]

theorem exec_rbRead_part3 (hr : s.rstep = .part3) : exec .rbRead s = finish s (ringReadPart3 s) := by
  simp only [exec, execRbRead, hr]

/-! ## What each part ends in -/

section

variable (s) (lh lr : List (Nat × Word))

/-- The state after part 2 of a write (R132), with the older values that are left. -/
def State.afterStore : State :=
  { s with shm := s.shm.writeWord (slot s.wtail) s.msg, staleHost := lh, staleRtu := lr, wstep := .part3 }

/-- The state after part 3 of a write (R132), with the older values that are left. -/
def State.afterPublish : State :=
  { s with shm := s.shm.writeWord tailWord (nextCursor s.wtail), staleHost := lh, staleRtu := lr, wstep := .idle }

/-- The state after part 3 of a read (R135), with the older values that are left. -/
def State.afterRelease : State :=
  { s with
    shm := s.shm.writeWord headWord (nextCursor s.rhead), staleHost := lh, staleRtu := lr, rstep := .idle, rvalid := true }

end

theorem exec_rbWrite_latches (hseq : s.seq = .run) (hw : s.wstep = .part1) (hc : readCursors .rtu s = .ok (h, t, s1)) :
    exec .rbWrite s = .next { s1 with whead := h, wtail := t, wstep := if RingFull h t then .idle else .part2 } := by
  simp only [exec_rbWrite_part1 hseq hw, ringWritePart1, hc, finish_ok]

theorem exec_rbWrite_stores (hsize : 1031 ≤ s.params.shmWords) (hseq : s.seq = .run) (hw : s.wstep = .part2) :
    ∃ lh lr, exec .rbWrite s = .next (s.afterStore lh lr) := by
  obtain ⟨u, hu⟩ := memWrite_completes (side := .rtu) (v := s.msg) (slot_lt_shmWords_of_size hsize s.wtail)
  rw [exec_rbWrite_part2 hseq hw, ringWritePart2, hu]
  obtain ⟨-, lh, lr, rfl, -⟩ := memWrite_ok hu
  exact ⟨lh, lr, rfl⟩

theorem exec_rbWrite_publishes (hsize : 1031 ≤ s.params.shmWords) (hseq : s.seq = .run) (hw : s.wstep = .part3) :
    ∃ lh lr, exec .rbWrite s = .next (s.afterPublish lh lr) := by
  have hlt : tailWord < s.params.shmWords := lt_shmWords_of_size hsize (by decide)
  obtain ⟨u, hu⟩ := memWrite_completes (side := .rtu) (v := nextCursor s.wtail) hlt
  rw [exec_rbWrite_part3 hseq hw, ringWritePart3, hu]
  obtain ⟨-, lh, lr, rfl, -⟩ := memWrite_ok hu
  exact ⟨lh, lr, rfl⟩

theorem exec_rbRead_empty (hr : s.rstep = .idle) (hc : readCursors .host s = .ok (h, t, s1)) (he : RingEmpty h t) :
    exec .rbRead s = .next { s1 with rvalid := false } := by
  simp only [exec_rbRead_part0 hr, ringReadPart0, hc, if_pos he, finish_ok, State.setRvalid]

theorem exec_rbRead_latches (hr : s.rstep = .idle) (hc : readCursors .host s = .ok (h, t, s1)) (he : ¬ RingEmpty h t) :
    exec .rbRead s = .next { s1 with rhead := h, rstep := .part2 } := by
  simp only [exec_rbRead_part0 hr, ringReadPart0, hc, if_neg he, finish_ok]

theorem exec_rbRead_fetches (hr : s.rstep = .part2) (hv : memRead .host (slot s.rhead) s = .ok (v, s1)) :
    exec .rbRead s = .next { s1 with rdata := v, rdataW := true, rstep := .part3 } := by
  simp only [exec_rbRead_part2 hr, ringReadPart2, hv, finish_ok]

theorem exec_rbRead_unwritten (hsize : 1031 ≤ s.params.shmWords) (hr : s.rstep = .part2) (hv : s.word (slot s.rhead) = none) :
    exec .rbRead s = .next (takeFault (.uninit (.word (slot s.rhead))) s) := by
  simp only [exec_rbRead_part2 hr, ringReadPart2,
    memRead_unwritten (side := .host) (slot_lt_shmWords_of_size hsize s.rhead) hv, finish_raise]

theorem exec_rbRead_releases (hsize : 1031 ≤ s.params.shmWords) (hr : s.rstep = .part3) :
    ∃ lh lr, exec .rbRead s = .next (s.afterRelease lh lr) := by
  have hlt : headWord < s.params.shmWords := lt_shmWords_of_size hsize (by decide)
  obtain ⟨u, hu⟩ := memWrite_completes (side := .host) (v := nextCursor s.rhead) hlt
  rw [exec_rbRead_part3 hr, ringReadPart3, hu]
  obtain ⟨-, lh, lr, rfl, -⟩ := memWrite_ok hu
  exact ⟨lh, lr, rfl⟩

/-! ## Clearing the ring -/

theorem readWord_zeroed_of_mem {l : List Nat} {w : Nat} (hw : w ∈ l) (m : Memory) : (m.zeroed l).readWord w = some 0 := by
  induction l generalizing m with
  | nil => cases hw
  | cons x rest ih =>
    by_cases hrest : w ∈ rest
    · exact ih hrest _
    · obtain rfl : w = x := (List.mem_cons.1 hw).resolve_right hrest
      exact (readWord_zeroed_of_not_mem hrest _).trans (readWord_writeWord_same m w 0)

theorem readByte_zeroed_of_outside {l : List Nat} {a : Nat} (ha : ∀ w ∈ l, a < 4 * w ∨ 4 * w + 4 ≤ a) (m : Memory) :
    (m.zeroed l).readByte a = m.readByte a := by
  induction l generalizing m with
  | nil => rfl
  | cons x rest ih =>
    obtain ⟨hx, hrest⟩ := List.forall_mem_cons.1 ha
    exact (ih hrest _).trans (readByte_writeWord_of_outside m x 0 hx)

/-- Zero writes inside the region complete; the older values may change only under `WEAK`. -/
theorem zeroWords_completes {l : List Nat} (hl : ∀ w ∈ l, w < s.params.shmWords) :
    ∃ lh lr, zeroWords l s = .ok { s with shm := s.shm.zeroed l, staleHost := lh, staleRtu := lr } ∧
      (s.params.memOrder = .sc → lh = s.staleHost ∧ lr = s.staleRtu) := by
  induction l generalizing s with
  | nil => exact ⟨_, _, rfl, fun _ => ⟨rfl, rfl⟩⟩
  | cons w rest ih =>
    obtain ⟨hw, hrest⟩ := List.forall_mem_cons.1 hl
    obtain ⟨u, hu⟩ := memWrite_completes (side := .host) (v := 0) hw
    obtain ⟨-, lh, lr, rfl, hsc⟩ := memWrite_ok hu
    obtain ⟨lh', lr', hz, hsc'⟩ := ih (s := { s with shm := s.shm.writeWord w 0, staleHost := lh, staleRtu := lr }) hrest
    refine ⟨lh', lr', ?_, fun hm => ?_⟩
    · rw [zeroWords, hu]
      exact hz
    · obtain ⟨rfl, rfl⟩ := hsc hm
      exact hsc' hm

theorem mem_initWords {w : Nat} : w ∈ initWords ↔ 1024 ≤ w ∧ w ≤ 1030 := by
  simp only [initWords, headWord, tailWord, gpioIntWord, adcIntWord, List.mem_cons, List.not_mem_nil, or_false]
  omega

/-- `RB_INIT` completes. The zeroed memory has a name, so that no later proof evaluates its seven writes. -/
theorem exec_rbInit_clears (hsize : 1031 ≤ s.params.shmWords) (hr : s.rstep = .idle) :
    ∃ m lh lr, m = s.shm.zeroed initWords ∧ exec .rbInit s = .next { s with shm := m, staleHost := lh, staleRtu := lr } ∧
      (s.params.memOrder = .sc → lh = s.staleHost ∧ lr = s.staleRtu) := by
  obtain ⟨lh, lr, hz, hsc⟩ := zeroWords_completes (s := s) (l := initWords) fun _ hw =>
    lt_shmWords_of_size hsize (mem_initWords.1 hw).2
  refine ⟨_, lh, lr, rfl, ?_, hsc⟩
  simp only [exec, execRbInit, guarded_of (show HostIdle s from hr), hz, finish_ok]

end Sys2Proof.Machine
end

section
/-! The claims about one part of a ring operation, in either memory order (R130, R131, R132, R135). -/

namespace Sys2Proof.Machine

open Sys2Proof.Config

/-- Settles O31: the seven words are zeroed, and no byte outside them is written. -/
theorem rbInitClearsCells : Obligations.RbInitClearsCells := by
  refine ⟨⟨rfl, rfl, rfl, fun _ hen => guarded_of_not hen⟩, fun s hsize hr => ?_⟩
  obtain ⟨m, lh, lr, hzero, hex, hsc⟩ := exec_rbInit_clears hsize hr
  refine ⟨_, hex, fun w hlo hhi => ?zero, fun a ha => ?frame, rfl, fun hm => ?sc⟩
  case zero =>
    exact (congrArg (Memory.readWord · w) hzero).trans (readWord_zeroed_of_mem (mem_initWords.2 ⟨hlo, hhi⟩) s.shm)
  case frame =>
    refine (congrArg (Memory.readByte · a) hzero).trans (readByte_zeroed_of_outside (fun w hw => ?_) s.shm)
    have hbounds := mem_initWords.1 hw
    omega
  case sc =>
    obtain ⟨rfl, rfl⟩ := hsc hm
    rfl

/-- Settles O32: the cursors read decide whether part 2 comes next. -/
theorem rbWriteChecksForRoom : Obligations.RbWriteChecksForRoom := by
  refine ⟨⟨rfl, rfl, rfl, fun _ hen => guarded_of_not hen⟩, fun s s1 s2 t h hseq hw ht hh lt lh => ?_⟩
  have hex := exec_rbWrite_latches hseq hw (readCursors_of_legal ht hh lt lh)
  refine ⟨fun hfull => ?_, fun hroom => ?_, readCursors_shm ht hh⟩
  · rwa [if_pos hfull] at hex
  · rwa [if_neg hroom] at hex

/-- Settles O33: each part is one word written, and the next value of `WSTEP`. -/
theorem rbWriteStoresThenPublishes : Obligations.RbWriteStoresThenPublishes := by
  intro s hsize hseq
  refine ⟨fun hw => ?store, fun hw => ?publish⟩
  case store =>
    obtain ⟨lh, lr, hex⟩ := exec_rbWrite_stores hsize hseq hw
    exact ⟨_, hex, readWord_writeWord_same _ _ _, fun a ha => readByte_writeWord_of_outside _ _ _ ha, rfl⟩
  case publish =>
    obtain ⟨lh, lr, hex⟩ := exec_rbWrite_publishes hsize hseq hw
    rw [← nextCursor_eq_ofNat]
    exact ⟨_, hex, readWord_writeWord_same _ _ _, fun a ha => readByte_writeWord_of_outside _ _ _ ha, rfl⟩

/-- Settles O34: each part with what it reads or writes, and the fault of a slot never written. -/
theorem rbReadParts : Obligations.RbReadParts := by
  refine ⟨⟨rfl, rfl, rfl, fun _ hen => absurd trivial hen⟩, fun s s1 s2 t h hr ht hh lt lh => ?check,
    fun s s1 v hr hv => ?fetch, fun s hsize hr hv => ?unwritten, fun s hsize hr => ?release⟩
  case check =>
    have hc := readCursors_of_legal ht hh lt lh
    exact ⟨exec_rbRead_empty hr hc, exec_rbRead_latches hr hc, readCursors_shm ht hh⟩
  case fetch =>
    rw [← slot_eq_mod] at hv
    exact ⟨exec_rbRead_fetches hr hv, memRead_shm hv⟩
  case unwritten =>
    rw [← slot_eq_mod] at hv ⊢
    exact exec_rbRead_unwritten hsize hr hv
  case release =>
    obtain ⟨lh, lr, hex⟩ := exec_rbRead_releases hsize hr
    rw [← nextCursor_eq_ofNat]
    exact ⟨_, hex, readWord_writeWord_same _ _ _, fun a ha => readByte_writeWord_of_outside _ _ _ ha, rfl⟩

/-- An operation is about to read the cursors for a side: part 1 of a write, for the RTU, or part 0 of a read, for the host. -/
def ChecksCursors (i : Instr) (side : Side) (s : State) : Prop :=
  (i = .rbWrite ∧ side = .rtu ∧ s.seq = .run ∧ s.wstep = .part1) ∨ (i = .rbRead ∧ side = .host ∧ s.rstep = .idle)

/-- A fault met in reading the cursors is what the operation takes (R262). -/
theorem ChecksCursors.exec_fault {i : Instr} {side : Side} {s : State} {f : ModelFault} (hi : ChecksCursors i side s)
    (hf : readCursors side s = .error (.raise f)) : exec i s = .next (takeFault f s) := by
  obtain ⟨rfl, rfl, hseq, hw⟩ | ⟨rfl, rfl, hr⟩ := hi
  · simp only [exec_rbWrite_part1 hseq hw, ringWritePart1, hf, finish_raise]
  · simp only [exec_rbRead_part0 hr, ringReadPart0, hf, finish_raise]

/-- Settles O35: each check that fails ends the reading of the cursors before the next one. -/
theorem cursorFaultsInOrder : Obligations.CursorFaultsInOrder := by
  intro i side s hsize hi
  have hfault {f : ModelFault} := ChecksCursors.exec_fault (f := f) hi
  exact ⟨fun ht => hfault (readCursors_of_unwritten_tail hsize ht),
    fun ht hh => hfault (readCursors_of_unwritten_head hsize ht hh), fun t s1 h s2 ht hh =>
      ⟨fun lt => hfault (readCursors_of_illegal_tail ht hh (Nat.not_le.2 lt)),
        fun lt lh => hfault (readCursors_of_illegal_head ht hh lt (Nat.not_le.2 lh))⟩⟩

end Sys2Proof.Machine
end

section
/-! The ring invariant (R134) and the order of the messages (R137), under `SC`. The three operations of the ring are followed part by
part; no other operation touches the ring, its read in progress, or a write past its check for room. -/

namespace Sys2Proof.Machine

open Sys2Proof.Config

variable {s u : State} {h t : Word}

/-! ## What the invariant gives -/

theorem RingInv.readCursors_eq (hinv : RingInv s h t) (side : Side) : readCursors side s = .ok (h, t, s) :=
  readCursors_sc hinv.size hinv.order hinv.head hinv.tail hinv.head_legal hinv.tail_legal

/-- With a message unread, the slot read next is the oldest one's. -/
theorem slot_head_mem_liveSlots (hn : 0 < occupancy h t) : slot h ∈ liveSlots h t := by
  rw [liveSlots_nextCursor_head hn]
  exact List.mem_cons_self

theorem unread_congr (hlive : ∀ i ∈ liveSlots h t, u.word i = s.word i) : unread u h t = unread s h t :=
  List.map_congr_left hlive

/-- The invariant is kept with the cursors and the unread slots, the read in progress, and what is said of the write. -/
theorem RingInv.of_words (hinv : RingInv s h t) (hparams : u.params = s.params) (hhead : u.word headWord = s.word headWord)
    (htail : u.word tailWord = s.word tailWord) (hlive : ∀ i ∈ liveSlots h t, u.word i = s.word i)
    (hread : u.rstep = s.rstep ∧ u.rhead = s.rhead ∧ u.rdata = s.rdata)
    (hwriting : u.seq = .run → u.wstep = .part2 ∨ u.wstep = .part3 → u.wtail = t ∧ occupancy h t < 1024)
    (hstored : u.seq = .run → u.wstep = .part3 → u.word (slot t) = some u.msg) : RingInv u h t := by
  obtain ⟨hstep, hrhead, hrdata⟩ := hread
  exact {
    order := hparams ▸ hinv.order
    size := hparams ▸ hinv.size
    head := hhead.trans hinv.head
    tail := htail.trans hinv.tail
    head_legal := hinv.head_legal
    tail_legal := hinv.tail_legal
    bound := hinv.bound
    written := fun i hi => hlive i hi ▸ hinv.written i hi
    writing := hwriting
    stored := hstored
    reading := fun hr => hrhead ▸ hinv.reading (hstep ▸ hr)
    fetched := fun hr => by
      have hn := (hinv.reading (by simp [← hstep, hr])).2
      rw [hlive _ (slot_head_mem_liveSlots hn), hrdata]
      exact hinv.fetched (hstep ▸ hr) }

/-! ## The write -/

theorem RingInv.latch (hinv : RingInv s h t) :
    RingInv { s with whead := h, wtail := t, wstep := if RingFull h t then .idle else .part2 } h t :=
  { hinv with
    writing := fun _ hstep => by
      have hroom : occupancy h t ≠ 1024 := fun hn => by
        simp [(ringFull_iff hinv.head_legal hinv.tail_legal).2 hn] at hstep
      exact ⟨rfl, lt_of_le_of_ne hinv.bound hroom⟩
    stored := fun _ hstep => by split at hstep <;> cases hstep }

/-- The slot stored holds no unread message. -/
theorem RingInv.store (hinv : RingInv s h t) (hseq : s.seq = .run) (hw : s.wstep = .part2) (lh lr : List (Nat × Word)) :
    RingInv (s.afterStore lh lr) h t ∧ unread (s.afterStore lh lr) h t = unread s h t := by
  obtain ⟨hlatched, hroom⟩ := hinv.writing hseq (.inl hw)
  have hkeep {i : Nat} (hi : i ≠ slot s.wtail) : (s.afterStore lh lr).word i = s.word i := readWord_writeWord_of_ne _ hi _
  have hcursor {i : Nat} (hi : 1024 ≤ i) : (s.afterStore lh lr).word i = s.word i :=
    hkeep (by have := slot_le s.wtail; omega)
  have hlive : ∀ i ∈ liveSlots h t, (s.afterStore lh lr).word i = s.word i := by
    refine fun i hi => hkeep fun he => slot_tail_not_mem_liveSlots hroom ?_
    rwa [he, hlatched] at hi
  have hstored : (s.afterStore lh lr).word (slot t) = some s.msg := hlatched ▸ readWord_writeWord_same _ _ _
  exact ⟨hinv.of_words rfl (hcursor le_rfl) (hcursor (by decide)) hlive ⟨rfl, rfl, rfl⟩ (fun _ _ => ⟨hlatched, hroom⟩)
    fun _ _ => hstored, unread_congr hlive⟩

/-- Publishing makes the message stored the newest unread one. -/
theorem RingInv.publish (hinv : RingInv s h t) (hseq : s.seq = .run) (hw : s.wstep = .part3) (lh lr : List (Nat × Word)) :
    RingInv (s.afterPublish lh lr) h (nextCursor t) ∧
      unread (s.afterPublish lh lr) h (nextCursor t) = unread s h t ++ [some s.msg] := by
  obtain ⟨hlatched, hroom⟩ := hinv.writing hseq (.inr hw)
  have hkeep {i : Nat} (hi : i ≤ 1024) : (s.afterPublish lh lr).word i = s.word i :=
    readWord_writeWord_of_ne _ (Nat.ne_of_lt (Nat.lt_succ_of_le hi)) _
  have hlive : ∀ i ∈ liveSlots h t, (s.afterPublish lh lr).word i = s.word i :=
    fun i hi => hkeep (lt_of_mem_liveSlots hi).le
  have hnew : (s.afterPublish lh lr).word (slot t) = some s.msg :=
    (hkeep ((slot_le t).trans (by decide))).trans (hinv.stored hseq hw)
  have hocc := occupancy_nextCursor_tail hinv.head_legal hroom
  have hslots := liveSlots_nextCursor_tail hinv.head_legal hroom
  refine ⟨{ hinv with
    head := (hkeep le_rfl).trans hinv.head
    tail := hlatched ▸ readWord_writeWord_same _ _ _
    tail_legal := nextCursor_legal t
    bound := by omega
    written := fun i hi => ?written
    writing := fun _ hstep => by cases hstep <;> contradiction
    stored := fun _ hstep => by contradiction
    reading := fun hr => ⟨(hinv.reading hr).1, by omega⟩
    fetched := fun hr => ?fetched }, ?unread⟩
  case written =>
    rw [hslots, List.mem_append, List.mem_singleton] at hi
    obtain hold | rfl := hi
    · exact hlive i hold ▸ hinv.written i hold
    · simp [hnew]
  case fetched =>
    have hr' : s.rstep = .part3 := hr
    have hn := (hinv.reading (by simp [hr'])).2
    exact (hlive _ (slot_head_mem_liveSlots hn)).trans (hinv.fetched hr)
  case unread =>
    rw [unread, hslots, List.map_append, List.map_singleton, hnew]
    exact congrArg (· ++ [some s.msg]) (unread_congr hlive)

theorem RingInv.exec_rbWrite (hinv : RingInv s h t) (hex : exec .rbWrite s = .next u) :
    ∃ t', RingInv u h t' ∧
      unread u h t' = if s.wstep = .part3 then unread s h t ++ [some s.msg] else unread s h t := by
  obtain ⟨hseq, hbusy⟩ := exec_enabled hex
  cases hw : s.wstep with
  | idle => exact absurd hw hbusy
  | part1 =>
    obtain rfl := Host.Outcome.next.inj ((exec_rbWrite_latches hseq hw (hinv.readCursors_eq .rtu)).symm.trans hex)
    exact ⟨t, hinv.latch, rfl⟩
  | part2 =>
    obtain ⟨lh, lr, hstore⟩ := exec_rbWrite_stores hinv.size hseq hw
    obtain rfl := Host.Outcome.next.inj (hstore.symm.trans hex)
    exact ⟨t, hinv.store hseq hw lh lr⟩
  | part3 =>
    obtain ⟨lh, lr, hpublish⟩ := exec_rbWrite_publishes hinv.size hseq hw
    obtain rfl := Host.Outcome.next.inj (hpublish.symm.trans hex)
    exact ⟨nextCursor t, hinv.publish hseq hw lh lr⟩

/-! ## The read -/

/-- Releasing leaves the unread messages but the oldest, which `RDATA` holds. -/
theorem RingInv.release (hinv : RingInv s h t) (hr : s.rstep = .part3) (lh lr : List (Nat × Word)) :
    RingInv (s.afterRelease lh lr) (nextCursor h) t ∧
      unread s h t = some s.rdata :: unread (s.afterRelease lh lr) (nextCursor h) t := by
  obtain ⟨hlatched, hn⟩ := hinv.reading (by simp [hr])
  have hkeep {i : Nat} (hi : i ≠ 1024) : (s.afterRelease lh lr).word i = s.word i := readWord_writeWord_of_ne _ hi _
  have hlive : ∀ i ∈ liveSlots (nextCursor h) t, (s.afterRelease lh lr).word i = s.word i :=
    fun i hi => hkeep (lt_of_mem_liveSlots hi).ne
  have hocc := occupancy_nextCursor_head hn
  have hslots := liveSlots_nextCursor_head hn
  refine ⟨{ hinv with
    head := hlatched ▸ readWord_writeWord_same _ _ _
    tail := (hkeep (by decide)).trans hinv.tail
    head_legal := nextCursor_legal h
    bound := by have := hinv.bound; omega
    written := fun i hi => hlive i hi ▸ hinv.written i (hslots ▸ List.mem_cons_of_mem _ hi)
    writing := fun hseq hw => ⟨(hinv.writing hseq hw).1, by have := (hinv.writing hseq hw).2; omega⟩
    stored := fun hseq hw => (hkeep (Nat.lt_succ_of_le (slot_le t)).ne).trans (hinv.stored hseq hw)
    reading := fun hne => absurd rfl hne
    fetched := fun hstep => by contradiction }, ?unread⟩
  case unread =>
    rw [unread, hslots, List.map_cons, hinv.fetched hr]
    exact congrArg (some s.rdata :: ·) (unread_congr hlive).symm

/-- Part 0 finds the cursors, and part 2 the message in the oldest one's slot. -/
theorem RingInv.exec_rbRead (hinv : RingInv s h t) (hex : exec .rbRead s = .next u) :
    ∃ h', RingInv u h' t ∧
      if s.rstep = .part3 then unread s h t = some s.rdata :: unread u h' t ∧ u.rdata = s.rdata
      else unread u h' t = unread s h t := by
  cases hr : s.rstep with
  | idle =>
    have hc := hinv.readCursors_eq .host
    by_cases he : RingEmpty h t
    · obtain rfl := Host.Outcome.next.inj ((exec_rbRead_empty hr hc he).symm.trans hex)
      exact ⟨h, { hinv with }, rfl⟩
    · obtain rfl := Host.Outcome.next.inj ((exec_rbRead_latches hr hc he).symm.trans hex)
      have hn : 0 < occupancy h t := Nat.pos_of_ne_zero (mt (ringEmpty_iff hinv.head_legal hinv.tail_legal).2 he)
      exact ⟨h, { hinv with reading := fun _ => ⟨rfl, hn⟩, fetched := fun hstep => by contradiction }, rfl⟩
  | part2 =>
    obtain ⟨hlatched, hn⟩ := hinv.reading (by simp [hr])
    obtain ⟨v, hv⟩ := Option.ne_none_iff_exists'.1 (hinv.written _ (slot_head_mem_liveSlots hn))
    have hread : memRead .host (slot s.rhead) s = .ok (v, s) :=
      memRead_sc (slot_lt_shmWords_of_size hinv.size _) hinv.order (hlatched ▸ hv)
    obtain rfl := Host.Outcome.next.inj ((exec_rbRead_fetches hr hread).symm.trans hex)
    exact ⟨h, { hinv with reading := fun _ => ⟨hlatched, hn⟩, fetched := fun _ => hv }, rfl⟩
  | part3 =>
    obtain ⟨lh, lr, hrelease⟩ := exec_rbRead_releases hinv.size hr
    obtain rfl := Host.Outcome.next.inj (hrelease.symm.trans hex)
    obtain ⟨hnext, hunread⟩ := hinv.release hr lh lr
    exact ⟨nextCursor h, hnext, hunread, rfl⟩

/-! ## The initialisation -/

/-- `RB_INIT` with the RTU not running establishes the invariant (R134). -/
theorem ringInv_of_rbInit (hsc : s.params.memOrder = .sc) (hsize : 1031 ≤ s.params.shmWords) (hseq : s.seq ≠ .run)
    (hex : exec .rbInit s = .next u) : RingInv u 0 0 := by
  have hidle : s.rstep = .idle := exec_enabled hex
  obtain ⟨m, lh, lr, hzero, hclear, -⟩ := exec_rbInit_clears hsize hidle
  obtain rfl := Host.Outcome.next.inj (hclear.symm.trans hex)
  have hword {w : Nat} (hw : w ∈ initWords) : m.readWord w = some 0 :=
    (congrArg (Memory.readWord · w) hzero).trans (readWord_zeroed_of_mem hw s.shm)
  have hempty : liveSlots 0 0 = [] := liveSlots_of_empty (occupancy_self 0)
  exact {
    order := hsc
    size := hsize
    head := hword (by decide)
    tail := hword (by decide)
    head_legal := by decide
    tail_legal := by decide
    bound := by decide
    written := fun i hi => absurd (hempty ▸ hi) List.not_mem_nil
    writing := fun hrun => absurd hrun hseq
    stored := fun hrun => absurd hrun hseq
    reading := fun hr => absurd hidle hr
    fetched := fun hr => by simp [hidle] at hr }

/-! ## Every other operation -/

theorem Effect.read_eq {i : Instr} (he : Effect i s u) (hi : i ≠ .rbRead) :
    u.rstep = s.rstep ∧ u.rhead = s.rhead ∧ u.rdata = s.rdata := by
  cases he with
  | rbReadEmpty | rbReadLatch | rbReadFetch | rbReadRelease => exact absurd rfl hi
  | _ => exact ⟨rfl, rfl, rfl⟩

/-- A write past its check for room was under way before, and has what it had latched: an encoding starts at part 1, and starting and
halting the RTU leave it not running. -/
theorem Effect.write_eq {i : Instr} (he : Effect i s u) (hi : i ≠ .rbWrite) (hseq : u.seq = .run)
    (hw : u.wstep = .part2 ∨ u.wstep = .part3) :
    s.seq = .run ∧ u.wstep = s.wstep ∧ u.wtail = s.wtail ∧ u.msg = s.msg := by
  cases he with
  | rbWriteLatch | rbWriteStore | rbWritePublish => exact absurd rfl hi
  | encGpio | encAdc | seqInit => cases hw <;> contradiction
  | rtuStart | rtuHalt => cases hseq
  | _ => exact ⟨hseq, rfl, rfl, rfl⟩

theorem Effect.ringWord_eq {i : Instr} {w : Nat} (he : Effect i s u) (hinit : i ≠ .rbInit) (hwrite : i ≠ .rbWrite)
    (hread : i ≠ .rbRead) (hw : w ≤ 1025) : u.word w = s.word w := by
  refine he.word_eq fun hwr => ?_
  cases hwr with
  | slots | tail => exact hwrite rfl
  | head => exact hread rfl
  | init => exact hinit rfl
  | gpioInterest | adcInterest => omega

theorem RingInv.exec_other {i : Instr} (hinv : RingInv s h t) (hinit : i ≠ .rbInit) (hwrite : i ≠ .rbWrite) (hread : i ≠ .rbRead)
    (hex : exec i s = .next u) : RingInv u h t ∧ unread u h t = unread s h t := by
  have he := exec_effect hex
  have hword {w : Nat} (hw : w ≤ 1025) : u.word w = s.word w := he.ringWord_eq hinit hwrite hread hw
  have hlive : ∀ i ∈ liveSlots h t, u.word i = s.word i := fun i hi => hword ((lt_of_mem_liveSlots hi).le.trans (by decide))
  refine ⟨hinv.of_words he.params_eq (hword (by decide)) (hword le_rfl) hlive (he.read_eq hread) (fun hseq hw => ?writing)
    (fun hseq hw => ?stored), unread_congr hlive⟩
  case writing =>
    obtain ⟨hseq', hstep, htail, -⟩ := he.write_eq hwrite hseq hw
    exact htail ▸ hinv.writing hseq' (hstep ▸ hw)
  case stored =>
    obtain ⟨hseq', hstep, -, hmsg⟩ := he.write_eq hwrite hseq (.inr hw)
    rw [hword ((slot_le t).trans (by decide)), hmsg]
    exact hinv.stored hseq' (hstep ▸ hw)

/-! ## All operations -/

/-- Settles O30: each operation of the ring is followed by its own lemma, and no other touches the ring. -/
theorem ringIsFifo : Obligations.RingIsFifo := by
  intro i s u h t hinv hinit hex
  by_cases hi : i = .rbInit
  · subst hi
    exact ⟨0, 0, ringInv_of_rbInit hinv.order hinv.size (hinit rfl) hex, rfl⟩
  by_cases hw : i = .rbWrite
  · subst hw
    obtain ⟨t', hnext, hunread⟩ := hinv.exec_rbWrite hex
    refine ⟨h, t', hnext, ?_⟩
    by_cases hpart : s.wstep = .part3 <;> simpa [hpart] using hunread
  by_cases hr : i = .rbRead
  · subst hr
    obtain ⟨h', hnext, hunread⟩ := hinv.exec_rbRead hex
    refine ⟨h', t, hnext, ?_⟩
    by_cases hpart : s.rstep = .part3 <;> simpa [hpart] using hunread
  · obtain ⟨hnext, hunread⟩ := hinv.exec_other hi hw hr hex
    exact ⟨h, t, hnext, by simpa [hi, hw, hr] using hunread⟩

/-- Settles O29: `RB_INIT` establishes the invariant, and the order of the messages is kept together with it. -/
theorem operationsKeepRingInv : Obligations.OperationsKeepRingInv := by
  refine ⟨fun s u hsc hwf hseq hex => ringInv_of_rbInit hsc hwf.1 hseq hex, fun i s u h t hinv hinit hex => ?_⟩
  obtain ⟨h', t', hnext, -⟩ := ringIsFifo i s u h t hinv hinit hex
  exact ⟨h', t', hnext⟩

end Sys2Proof.Machine
end

section
/-! The words of the formats as numbers (R101, R102, R112, R113), what the decoder of messages reads (R155), and which bits of a
word are left when it is decoded and encoded again (R104, R157). -/

namespace Sys2Proof

/-! ## A format's word as a number -/

/-- A field over a number that stays below it. -/
theorem fieldAt_or_ofNat {n low k : Nat} (x : BitVec n) (hk : k < 2 ^ low) :
    fieldAt x low ||| BitVec.ofNat 32 k = BitVec.ofNat 32 (x.toNat * 2 ^ low + k) := by
  have hfield : fieldAt x low = BitVec.ofNat 32 (x.toNat <<< low) := by
    apply BitVec.eq_of_toNat_eq
    simp [fieldAt, Nat.shiftLeft_eq]
  rw [hfield, ← BitVec.ofNat_or, ← Nat.shiftLeft_add_eq_or_of_lt hk, Nat.shiftLeft_eq]

theorem fieldAt_zero {n : Nat} (x : BitVec n) : fieldAt x 0 = BitVec.ofNat 32 x.toNat := by
  simp [fieldAt]

theorem formP_eq_ofNat (o pin : BitVec 8) (b : BitVec 1) :
    formP o pin b = BitVec.ofNat 32 (o.toNat * 2 ^ 24 + b.toNat * 2 ^ 8 + pin.toNat) := by
  rw [formP, BitVec.or_assoc, fieldAt_zero, fieldAt_or_ofNat b pin.isLt, fieldAt_or_ofNat o (by omega), ← Nat.add_assoc]

theorem formA_eq_ofNat (o : BitVec 8) (ch : BitVec 4) (val : BitVec 12) :
    formA o ch val = BitVec.ofNat 32 (o.toNat * 2 ^ 24 + val.toNat * 2 ^ 4 + ch.toNat) := by
  rw [formA, BitVec.or_assoc, fieldAt_zero, fieldAt_or_ofNat val ch.isLt, fieldAt_or_ofNat o (by omega), ← Nat.add_assoc]

/-- A GPIO message has the fields of format P, and bits 31:24 zero. -/
theorem encodeMessage_gpio (pin : BitVec 8) (l : BitVec 1) :
    encodeMessage (.gpio pin l) = BitVec.ofNat 32 (l.toNat * 256 + pin.toNat) := by
  have hform : encodeMessage (.gpio pin l) = BitVec.ofNat 32 (0 + l.toNat * 256 + pin.toNat) := formP_eq_ofNat 0x00 pin l
  rwa [Nat.zero_add] at hform

/-- An ADC message has the fields of format A, and of bits 31:24 only the tag set. -/
theorem encodeMessage_adc (c : BitVec 4) (v : BitVec 12) :
    encodeMessage (.adc c v) = BitVec.ofNat 32 (0x80000000 + v.toNat * 16 + c.toNat) :=
  formA_eq_ofNat 0x80 c v

/-! ## Reading the fields -/

theorem extract_eq_ofNat (w : Word) (low n : Nat) : w.extractLsb' low n = BitVec.ofNat n (w.toNat / 2 ^ low % 2 ^ n) := by
  apply BitVec.eq_of_toNat_eq
  simp [Nat.shiftRight_eq_div_pow]

/-- Settles O6: each field is a range of the word's bits, read as a quotient and a remainder. -/
theorem messageDecoderReadsFields : Obligations.MessageDecoderReadsFields := by
  intro w
  refine ⟨fun htag => ?gpio, fun htag => ?adc⟩
  case gpio =>
    simp only [decodeMessage, htag, Bool.false_eq_true, if_false, fieldPin, fieldB, extract_eq_ofNat, Nat.reducePow, Nat.div_one]
  case adc => simp only [decodeMessage, htag, if_true, fieldCh, fieldVal, extract_eq_ofNat, Nat.reducePow, Nat.div_one]

/-! ## Encoding a decoded message -/

/-- How many low bits of a word the format that bit 31 selects has fields for (R101, R102). -/
def operandBits (w : Word) : Nat := if w.getLsbD 31 then 16 else 9

theorem operandBits_le (w : Word) : operandBits w ≤ 31 := by
  unfold operandBits
  split <;> decide

/-- One bit, as a field. -/
theorem extract_one (w : Word) (i : Nat) : w.extractLsb' i 1 = BitVec.ofBool (w.getLsbD i) := by
  apply BitVec.eq_of_getLsbD_eq
  intro k hk
  obtain rfl : k = 0 := by omega
  simp

/-- What is left of a word that is decoded and encoded: its tag, and the bits its fields are read from (R104). -/
theorem encodeMessage_decodeMessage (w : Word) :
    encodeMessage (decodeMessage w) = fieldAt (w.extractLsb' 31 1) 31 ||| fieldAt (w.extractLsb' 0 (operandBits w)) 0 := by
  rw [extract_one, operandBits, decodeMessage]
  cases w.getLsbD 31 with
  | false => exact (BitVec.or_assoc ..).trans (congrArg _ (fieldAt_extract_or rfl rfl (by decide)))
  | true => exact (BitVec.or_assoc ..).trans (congrArg _ (fieldAt_extract_or rfl rfl (by decide)))

/-- A word is its tag and its `n` low bits exactly when every bit between them is zero. -/
theorem tag_or_low_eq_iff {w : Word} {n : Nat} (hn : n ≤ 31) :
    fieldAt (w.extractLsb' 31 1) 31 ||| fieldAt (w.extractLsb' 0 n) 0 = w ↔
      ∀ k, n ≤ k → k ≤ 30 → w.getLsbD k = false := by
  rw [BitVec.eq_of_getLsbD_eq_iff]
  simp only [BitVec.getLsbD_or, bit_fieldAt_extract (w := w) (low := 31) (n := 1) (by decide),
    bit_fieldAt_extract (w := w) (low := 0) (n := n) (by omega)]
  constructor
  · intro h k hlo hhi
    have hk := h k (by omega)
    simpa [show ¬ 31 ≤ k by omega, Nat.not_lt.2 hlo] using hk.symm
  · intro h k hk
    by_cases hlow : k < n
    · simp [hlow]
    · by_cases htag : k = 31
      · simp [htag]
      · simp [h k (by omega) (by omega)]

/-- Settles O5: the decoder undoes the encoder, and encoding keeps the tag and the operand bits of a decoded word and clears the
others. -/
theorem reservedBitsDecideReencoding : Obligations.ReservedBitsDecideReencoding := by
  refine ⟨fun m n h => Function.LeftInverse.injective decodeMessage_encodeMessage h, fun w => ?_⟩
  rw [encodeMessage_decodeMessage, tag_or_low_eq_iff (operandBits_le w), operandBits]
  cases w.getLsbD 31 with
  | false => exact Iff.rfl
  | true => exact Iff.rfl

end Sys2Proof
end

section
/-! The encoders of the message codec on integers (R151, R153, R156), and the operations `ENC_GPIO`, `ENC_ADC` and `DECODE` with the
message rows (R150, R152, R154; log 14). -/

namespace Sys2Proof.Machine

/-! ## The encoders on integers -/

section

variable {pin level channel value : Nat} {w : Word}

theorem encGpioWord_of_inRange (h : pin ≤ 255 ∧ level ≤ 1) :
    encGpioWord pin level = .ok (BitVec.ofNat 32 (level * 256 + pin)) := by
  have hor : level <<< 8 ||| pin = level * 256 + pin := by
    rw [← Nat.shiftLeft_add_eq_or_of_lt (show pin < 2 ^ 8 by omega), Nat.shiftLeft_eq]
  rw [encGpioWord, if_neg (by omega), hor]

theorem encGpioWord_of_outOfRange (h : ¬ (pin ≤ 255 ∧ level ≤ 1)) :
    encGpioWord pin level = .error (.raise (.encRange pin level)) := if_pos (by omega)

theorem encAdcWord_of_inRange (h : channel ≤ 15 ∧ value ≤ 4095) :
    encAdcWord channel value = .ok (BitVec.ofNat 32 (2147483648 + value * 16 + channel)) := by
  have hor : value <<< 4 ||| channel = value * 16 + channel := by
    rw [← Nat.shiftLeft_add_eq_or_of_lt (show channel < 2 ^ 4 by omega), Nat.shiftLeft_eq]
  have htag : 0x80000000#32 = fieldAt 1#1 31 := by decide
  rw [encAdcWord, if_neg (by omega), hor, htag, fieldAt_or_ofNat 1#1 (by omega), Nat.add_assoc]
  rfl

theorem encAdcWord_of_outOfRange (h : ¬ (channel ≤ 15 ∧ value ≤ 4095)) :
    encAdcWord channel value = .error (.raise (.encRange channel value)) := if_pos (by omega)

theorem encGpioWord_eq_encodeMessage (h : pin ≤ 255 ∧ level ≤ 1) :
    encGpioWord pin level = .ok (encodeMessage (.gpio (BitVec.ofNat 8 pin) (BitVec.ofNat 1 level))) := by
  rw [encGpioWord_of_inRange h, encodeMessage_gpio, BitVec.toNat_ofNat, BitVec.toNat_ofNat, Nat.mod_eq_of_lt (by omega),
    Nat.mod_eq_of_lt (by omega)]

theorem encAdcWord_eq_encodeMessage (h : channel ≤ 15 ∧ value ≤ 4095) :
    encAdcWord channel value = .ok (encodeMessage (.adc (BitVec.ofNat 4 channel) (BitVec.ofNat 12 value))) := by
  rw [encAdcWord_of_inRange h, encodeMessage_adc, BitVec.toNat_ofNat, BitVec.toNat_ofNat, Nat.mod_eq_of_lt (by omega),
    Nat.mod_eq_of_lt (by omega)]

theorem encGpioWord_tag (h : encGpioWord pin level = .ok w) : w.getLsbD 31 = false := by
  by_cases hr : pin ≤ 255 ∧ level ≤ 1
  · cases (encGpioWord_eq_encodeMessage hr).symm.trans h
    exact tag_gpio _ _
  · cases (encGpioWord_of_outOfRange hr).symm.trans h

theorem encAdcWord_tag (h : encAdcWord channel value = .ok w) : w.getLsbD 31 = true := by
  by_cases hr : channel ≤ 15 ∧ value ≤ 4095
  · cases (encAdcWord_eq_encodeMessage hr).symm.trans h
    exact tag_adc _ _
  · cases (encAdcWord_of_outOfRange hr).symm.trans h

end

/-- Settles O7: the fields do not overlap, so joining them adds them. -/
theorem encodersFaultOutOfRange : Obligations.EncodersFaultOutOfRange := by
  refine ⟨fun pin level => ?gpio, fun channel value => ?adc⟩
  case gpio =>
    split
    · exact encGpioWord_of_inRange ‹_›
    · exact encGpioWord_of_outOfRange ‹_›
  case adc =>
    split
    · exact encAdcWord_of_inRange ‹_›
    · exact encAdcWord_of_outOfRange ‹_›

/-- Settles O4: the encoders give the words of the messages, which the decoder reads back, and the tags of their words differ. -/
theorem messageRoundTrip : Obligations.MessageRoundTrip := by
  refine ⟨fun p l hp hl => ?gpio, fun c v hc hv => ?adc, fun p l c v w hg ha => ?apart⟩
  case gpio => exact ⟨_, encGpioWord_eq_encodeMessage ⟨hp, hl⟩, decodeMessage_encodeMessage _⟩
  case adc => exact ⟨_, encAdcWord_eq_encodeMessage ⟨hc, hv⟩, decodeMessage_encodeMessage _⟩
  case apart => exact Bool.false_ne_true ((encGpioWord_tag hg).symm.trans (encAdcWord_tag ha))

/-! ## The operations -/

section

variable {s : State}

theorem exec_encGpio_starts {pin : BitVec 8} {b : BitVec 1} (hen : CanEncGpio s) :
    exec (.encGpio pin b) s =
      .next { s with msg := BitVec.ofNat 32 (b.toNat * 256 + pin.toNat), repPend := .none, wstep := .part1 } := by
  have hword := encGpioWord_of_inRange (pin := pin.toNat) (level := b.toNat) (by omega)
  simp only [exec, execEncGpio, guarded_of hen, hword, startWrite, finish_ok]

theorem exec_encAdc_starts {ch : BitVec 4} {val : BitVec 12} (hen : CanEncAdc s) :
    exec (.encAdc ch val) s =
      .next { s with msg := BitVec.ofNat 32 (0x80000000 + val.toNat * 16 + ch.toNat), repPend := .none, wstep := .part1 } := by
  have hword := encAdcWord_of_inRange (channel := ch.toNat) (value := val.toNat) (by omega)
  simp only [exec, execEncAdc, guarded_of hen, hword, startWrite, finish_ok]

variable (hr : s.rstep = .idle)

include hr

theorem exec_decode_unwritten (hw : s.rdataW = false) : exec .decode s = .next (takeFault (.uninit .rdata) s) := by
  simp only [exec, execDecode, guarded_of (show HostIdle s from hr), hw, Bool.false_eq_true, if_false, finish_raise]

theorem exec_decode_deposits (hw : s.rdataW = true) : exec .decode s = .next (depositMessage (decodeMessage s.rdata) s) := by
  simp only [exec, execDecode, guarded_of (show HostIdle s from hr), hw, if_true, finish_ok]

theorem exec_message_deposits (m : Message) : exec m.instr s = .next (depositMessage m s) := by
  cases m with
  | gpio pin level => exact guarded_of (show HostIdle s from hr)
  | adc channel value => exact guarded_of (show HostIdle s from hr)

end

/-- The row of R117 for an operation, from its word, its agent and what it answers where it is not enabled. -/
theorem rowSays_of_encode {i : Instr} {w : Word} {a : Agent} (hi : ∀ m : Message, i ≠ m.instr) (hw : encode i = w)
    (ha : i.agent = a) (hen : ∀ s : State, ¬ Enabled i s → exec i s = .refused (.notEnabled i.mnemonic)) : RowSays i w a :=
  ⟨hw, hw ▸ decodeCommand_encode hi, ha, hen⟩

/-- Settles O36: the operands are in range, so the encoder does not fault. -/
theorem encodersStartTheWrite : Obligations.EncodersStartTheWrite := by
  refine ⟨fun pin b => ⟨?gpioRow, fun s hseq hw hp => exec_encGpio_starts ⟨hseq, hw, hp⟩⟩,
    fun ch val => ⟨?adcRow, fun s hseq hw hp => exec_encAdc_starts ⟨hseq, hw, hp⟩⟩⟩
  case gpioRow =>
    exact rowSays_of_encode (by rintro (_ | _) <;> exact nofun) (formP_eq_ofNat 0x10 pin b) rfl fun _ hen => guarded_of_not hen
  case adcRow =>
    exact rowSays_of_encode (by rintro (_ | _) <;> exact nofun) (formA_eq_ofNat 0x11 ch val) rfl fun _ hen => guarded_of_not hen

/-- Settles O37: the message decoded goes to the cells of its kind. -/
theorem decodeStoresFields : Obligations.DecodeStoresFields := by
  refine ⟨⟨rfl, rfl, rfl, fun _ hen => guarded_of_not hen⟩, fun s hr => ⟨exec_decode_unwritten hr, fun p l hw hm => ?gpio,
    fun c v hw hm => ?adc⟩⟩
  case gpio => rw [exec_decode_deposits hr hw, hm, depositMessage]
  case adc => rw [exec_decode_deposits hr hw, hm, depositMessage]

/-- Settles O38: a message row deposits its message as `DECODE` of its word does. -/
theorem messageRowsAreDecoded : Obligations.MessageRowsAreDecoded := by
  intro s hr
  refine ⟨fun p l => exec_message_deposits hr (.gpio p l), fun c v => exec_message_deposits hr (.adc c v), fun hw => ?_⟩
  rw [exec_decode_deposits hr hw, exec_message_deposits hr]

end Sys2Proof.Machine
end

section
/-! The sequencer's control (R170): the table of its selection, line by line; what it selects is enabled, so it completes. -/

namespace Sys2Proof.Machine

section

variable {s : State} {i : Instr}

/-! ## The holds (R170) -/

theorem rtuNext_of_halted (hseq : s.seq = .halted) : rtuNext s = none := by
  simp [rtuNext, hseq]

/-- Under `SYNC` the drain holds at an empty queue while results are still to come. -/
theorem rtuNext_of_drain_sync (hat : RtuAt s .drain) (hfifo : s.adcFifo = []) (hm : s.params.adcMode = .sync)
    (hp : s.adcPend ≠ 0) : rtuNext s = none := by
  obtain ⟨-, -, -, -, hphase⟩ := id hat
  rw [rtuNext_of_rtuAt hat]
  simp [phaseNext, hphase, hfifo, hm, hp]

theorem rtuNext_of_wait (hat : RtuAt s .wait) (hf : s.tmrFlag = false) : rtuNext s = none := by
  obtain ⟨-, -, -, -, hphase⟩ := id hat
  rw [rtuNext_of_rtuAt hat]
  simp [phaseNext, hphase, hf]

/-! ## What is selected is enabled -/

theorem enabled_of_phaseNext {p : Phase} (hat : RtuAt s p) (h : phaseNext s = some i) : Enabled i s := by
  obtain ⟨-, -, -, -, hphase⟩ := id hat
  rw [phaseNext, hphase] at h
  cases p with
  | mux | trig | disca | discg =>
    cases h
    exact hat
  | drain =>
    dsimp only at h
    split at h
    · cases h
      exact ⟨hat, ‹_›⟩
    · rename_i hfifo
      split at h
      · cases h
      · rename_i hdone
        cases h
        refine ⟨hat, not_not.1 hfifo, ?_⟩
        cases hm : s.params.adcMode with
        | async => exact .inl rfl
        | sync => exact .inr (by simpa [hm] using hdone)
  | gpio =>
    dsimp only at h
    split at h <;> cases h
    · exact ⟨hat, ‹_›⟩
    · exact ⟨hat, Nat.not_lt.1 ‹_›⟩
  | wait =>
    dsimp only at h
    split at h <;> cases h
    exact ⟨hat, ‹_›⟩

theorem enabled_of_pairNext {st : CurStage} (hat : PairAt s st) (h : pairNext s = some i) : Enabled i s := by
  obtain ⟨-, -, -, -, hstage⟩ := id hat
  rw [pairNext, hstage] at h
  cases st with
  | avg =>
    cases h
    exact hat
  | classify =>
    dsimp only at h
    split at h
    · cases h
    · cases h
      exact ⟨hat, ‹_›⟩
    · split at h <;> cases h
      · exact ⟨hat, ‹_›, ‹_›⟩
      · exact ⟨hat, ‹_›, Nat.lt_of_not_le ‹_›⟩

/-- The converse of `rtuNext_of_enabled`. -/
theorem enabled_of_rtuNext (h : rtuNext s = some i) : Enabled i s := by
  cases hseq : s.seq with
  | halted =>
    rw [rtuNext_of_halted hseq] at h
    cases h
  | init =>
    rw [rtuNext, hseq] at h
    cases h
    exact hseq
  | run =>
    simp only [rtuNext, hseq] at h
    split at h
    · cases h
      exact ⟨hseq, ‹_›⟩
    · rename_i hw
      have hidle : s.wstep = .idle := not_not.1 hw
      cases hrep : s.repPend with
      | adc | gpio =>
        rw [hrep] at h
        cases h
        exact ⟨hseq, hidle, hrep⟩
      | none =>
        simp only [hrep] at h
        split at h
        · exact enabled_of_pairNext ⟨hseq, hidle, hrep, ‹_›, rfl⟩ h
        · exact enabled_of_phaseNext ⟨hseq, hidle, hrep, Bool.eq_false_of_not_eq_true ‹_›, rfl⟩ h

/-- An operation the RTU performs is the one selected (R170). -/
theorem rtuNext_of_attempt {t : State} (hr : i.agent = .rtu) (h : attempt .rtu i s = .next t) : rtuNext s = some i := by
  by_contra hsel
  rw [attempt_of_not_selected hr hr hsel] at h
  cases h

/-- An enabled operation completes in a state that meets the invariant (R262): it is not refused, and no access of it is to a cell
that does not exist. -/
theorem exec_completes (hinv : BlockInv s) (hwf : s.params.Wf) (hen : Enabled i s) : ∃ t, exec i s = .next t := by
  cases h : exec i s with
  | next t => exact ⟨t, rfl⟩
  | fault f => exact absurd h (exec_noFault hinv hwf i f)
  | refused r => exact absurd hen (exec_refused h)

end

/-- Settles O14: what the sequencer selects is enabled. -/
theorem selectedOperationCompletes : Obligations.SelectedOperationCompletes :=
  fun _ _ hinv hwf h => exec_completes hinv hwf (enabled_of_rtuNext h)

/-- Settles O13: in each line but the holds the operation is the one enabled, and only the selected one can be performed. -/
theorem sequencerControl : Obligations.SequencerControl := fun _ =>
  ⟨rtuNext_of_halted,
    fun hseq => rtuNext_of_enabled (i := .seqInit) rfl hseq trivial,
    fun hseq hw => rtuNext_of_enabled (i := .rbWrite) rfl ⟨hseq, hw⟩ trivial,
    fun hseq hw hrep => rtuNext_of_enabled (i := .encAdc _ _) rfl ⟨hseq, hw, hrep⟩ ⟨rfl, rfl⟩,
    fun hseq hw hrep => rtuNext_of_enabled (i := .encGpio _ _) rfl ⟨hseq, hw, hrep⟩ ⟨rfl, rfl⟩,
    fun hat => rtuNext_of_enabled (i := .fastAvg) rfl hat trivial,
    fun hat hoff => rtuNext_of_enabled (i := .adcSkip) rfl ⟨hat, hoff⟩ trivial,
    fun hat hon hfast => rtuNext_of_enabled (i := .fastAcc) rfl ⟨hat, hon, hfast⟩ trivial,
    fun hat hon hslow => rtuNext_of_enabled (i := .slowCmp) rfl ⟨hat, hon, hslow⟩ trivial,
    fun hat => rtuNext_of_enabled (i := .muxAdv) rfl hat trivial,
    fun hat => rtuNext_of_enabled (i := .adcTrig) rfl hat trivial,
    fun hat hfifo => rtuNext_of_enabled (i := .adcPop) rfl ⟨hat, hfifo⟩ trivial,
    rtuNext_of_drain_sync,
    fun hat hfifo hdone => rtuNext_of_enabled (i := .adcEnd) rfl ⟨hat, hfifo, hdone⟩ trivial,
    fun hat hlt => rtuNext_of_enabled (i := .gpioCmp) rfl ⟨hat, hlt⟩ trivial,
    fun hat hle => rtuNext_of_enabled (i := .gpioEnd) rfl ⟨hat, hle⟩ trivial,
    fun hat => rtuNext_of_enabled (i := .discAdc) rfl hat trivial,
    fun hat => rtuNext_of_enabled (i := .discGpio) rfl hat trivial,
    fun hat hf => rtuNext_of_enabled (i := .tmrWait) rfl ⟨hat, hf⟩ trivial,
    rtuNext_of_wait,
    fun _ _ _ _ hi hj ht hu => Option.some.inj ((rtuNext_of_attempt hi ht).symm.trans (rtuNext_of_attempt hj hu))⟩

end Sys2Proof.Machine
end

section
/-! The operations that begin an iteration and step it on (R171 to R179, R184). -/

namespace Sys2Proof.Machine

/-- Settles O39: the whole next state, in which every channel is disabled. -/
theorem seqInitWrites : Obligations.SeqInitWrites := by
  refine ⟨⟨rfl, rfl, rfl, fun _ hen => guarded_of_not hen⟩, fun s hseq => ⟨_, guarded_of hseq, fun c => ?_, rfl⟩⟩
  simp

/-- The multiplexer position wraps after the last one (R172). -/
theorem muxPos_add_one (pos : BitVec 3) : pos + 1 = BitVec.ofNat 3 ((pos.toNat + 1) % 8) := by
  apply BitVec.eq_of_toNat_eq
  simp [BitVec.toNat_add]

/-- Settles O40: none of the three can fail. -/
theorem phaseStepsOn : Obligations.PhaseStepsOn := by
  refine ⟨⟨rfl, rfl, rfl, fun _ hen => guarded_of_not hen⟩, ⟨rfl, rfl, rfl, fun _ hen => guarded_of_not hen⟩,
    ⟨rfl, rfl, rfl, fun _ hen => guarded_of_not hen⟩,
    fun s => ⟨fun hat => ?muxAdv, fun hat hle => ?gpioEnd, fun hat hf => ?tmrWait⟩⟩
  case muxAdv =>
    rw [← muxPos_add_one]
    exact guarded_of hat
  case gpioEnd => exact guarded_of (show CanGpioEnd s from ⟨hat, hle⟩)
  case tmrWait => exact guarded_of (show CanTmrWait s from ⟨hat, hf⟩)

/-- Settles O41: the sweep in progress decides. -/
theorem triggerStartsSweep : Obligations.TriggerStartsSweep := by
  refine ⟨⟨rfl, rfl, rfl, fun _ hen => guarded_of_not hen⟩, fun s hat => ⟨fun hp => ?idle, fun hp => ?busy⟩⟩
  case idle => simp only [exec, execAdcTrig, guarded_of hat, if_neg (not_not.2 hp), finish_ok]
  case busy => simp only [exec, execAdcTrig, guarded_of hat, if_pos hp, finish_raise]

/-- Settles O42: the table has 128 entries, each evaluated. -/
theorem channelMapTable : Obligations.ChannelMapTable := by
  unfold Obligations.ChannelMapTable
  decide

/-- A step id above 6 is none of the sweep's (R177). -/
theorem chmap_foreign {st : BitVec 4} (h : 6 < st.toNat) (p : BitVec 3) : chmap st p = none := by
  obtain ⟨-, -, -, -, hforeign⟩ := channelMapTable st p
  exact hforeign h

/-- Settles O43: the oldest result's step id decides whether it has a channel. -/
theorem drainPopsAndEnds : Obligations.DrainPopsAndEnds := by
  refine ⟨⟨rfl, rfl, rfl, fun _ hen => guarded_of_not hen⟩, ⟨rfl, rfl, rfl, fun _ hen => guarded_of_not hen⟩,
    fun s hat => ⟨fun r rest c hf hc => ?pop, fun r rest hf hst => ?foreign, fun hf hdone => ?ends⟩⟩
  case pop =>
    have hen : CanAdcPop s := ⟨hat, by simp [hf]⟩
    simp only [exec, execAdcPop, guarded_of hen, popResult, hf, hc, finish_ok]
  case foreign =>
    have hen : CanAdcPop s := ⟨hat, by simp [hf]⟩
    simp only [exec, execAdcPop, guarded_of hen, popResult, hf, chmap_foreign hst, finish_raise]
  case ends => exact guarded_of (show CanAdcEnd s from ⟨hat, hf, hdone⟩)

end Sys2Proof.Machine
end

section
/-! Discovery (R180, R182, R183): the channels and pins requested in the interest words. -/

namespace Sys2Proof.Machine

open Sys2Proof.Config

/-! ## Channels -/

section

variable {s s1 : State} {x : Word}

theorem exec_discAdc_discovers (hat : RtuAt s .disca) (hr : memRead .rtu adcIntWord s = .ok (x, s1)) :
    exec .discAdc s = .next { discoverChannels x s1 with phase := .discg, gidx := 0 } := by
  simp only [exec, execDiscAdc, guarded_of hat, hr, finish_ok]

theorem exec_discAdc_unwritten (hsize : 1031 ≤ s.params.shmWords) (hat : RtuAt s .disca) (hw : s.word adcIntWord = none) :
    exec .discAdc s = .next (takeFault (.uninit (.word adcIntWord)) s) := by
  simp only [exec, execDiscAdc, guarded_of hat,
    memRead_unwritten (side := .rtu) (lt_shmWords_of_size hsize (w := adcIntWord) (by decide)) hw, finish_raise]

theorem newlyRequested_iff {en : Vector Bool 14} {c : Fin 14} :
    newlyRequested x en c = true ↔ x.getLsbD c = true ∧ en[c] = false := by
  simp [newlyRequested]

theorem initialLast_eq (init : LastInit) : initialLast init = if init = .unknown then none else some 0 := by
  cases init <;> rfl

theorem discoverChannels_adcEn (c : Fin 14) : (discoverChannels x s).adcEn[c] = (s.adcEn[c] || x.getLsbD c) := by
  simp [discoverChannels]

theorem discoverChannels_adcLast (c : Fin 14) :
    (discoverChannels x s).adcLast[c] = if x.getLsbD c = true ∧ s.adcEn[c] = false then
      (if s.params.adcLastInit = .unknown then none else some 0) else s.adcLast[c] := by
  simp [discoverChannels, newlyRequested_iff, initialLast_eq]

theorem discoverChannels_adcBuf (c : Fin 6) (j : Fin 8) :
    ((discoverChannels x s).adcBuf[c])[j] =
      if x.getLsbD c = true ∧ s.adcEn[c.val]? = some false then 0 else (s.adcBuf[c])[j] := by
  have hc : c.val < 14 := by omega
  simp only [discoverChannels, newlyRequested_iff, Fin.getElem_fin, Vector.getElem_ofFn, Vector.getElem?_eq_getElem hc,
    Option.some.injEq]
  split <;> simp

end

/-- Settles O44: the read leaves every cell that discovery looks at. -/
theorem discAdcEnablesRequested : Obligations.DiscAdcEnablesRequested := by
  refine ⟨⟨rfl, rfl, rfl, fun _ hen => guarded_of_not hen⟩, fun s s1 x hat hr => ?_,
    fun s hsize hat hw => exec_discAdc_unwritten hsize hat hw⟩
  refine ⟨_, exec_discAdc_discovers hat hr, ?_⟩
  obtain ⟨-, -, l, rfl⟩ := memRead_ok hr
  exact ⟨fun c => ⟨discoverChannels_adcEn c, discoverChannels_adcLast c⟩, discoverChannels_adcBuf, rfl, rfl⟩

/-! ## Pins -/

/-- The entry of a pin newly tracked: its level is `UNKNOWN` (R182). -/
def newEntry (pin : BitVec 8) : GpioEntry := ⟨pin, none⟩

theorem tracked_append_newEntry (tab : List GpioEntry) (pin p : BitVec 8) :
    tracked (tab ++ [newEntry pin]) p = (tracked tab p || decide (pin = p)) := by
  simp [tracked, newEntry]

/-- Discovery of distinct pins, in order: those not tracked are appended as far as there is room. -/
theorem foldl_trackPin {maxGpio : Nat} {pins : List (BitVec 8)} (hd : pins.Nodup) (tab : List GpioEntry) :
    pins.foldl (trackPin maxGpio) tab =
      tab ++ ((pins.filter (fun p => !tracked tab p)).take (maxGpio - tab.length)).map newEntry := by
  induction pins generalizing tab with
  | nil => simp
  | cons p rest ih =>
    obtain ⟨hp, hrest⟩ := List.nodup_cons.1 hd
    rw [List.foldl_cons]
    by_cases htracked : tracked tab p = true
    · simp [trackPin, htracked, ih hrest]
    · by_cases hroom : tab.length < maxGpio
      · have hsame : rest.filter (fun q => !tracked (tab ++ [newEntry p]) q) = rest.filter (fun q => !tracked tab q) := by
          refine List.filter_congr fun q hq => ?_
          have hne : p ≠ q := fun he => hp (he ▸ hq)
          simp [tracked_append_newEntry, hne]
        have hstep : trackPin maxGpio tab p = tab ++ [newEntry p] := by
          simp [trackPin, htracked, hroom, newEntry]
        have hleft : maxGpio - tab.length = (maxGpio - (tab ++ [newEntry p]).length) + 1 := by
          simp only [List.length_append, List.length_singleton]
          omega
        rw [hstep, ih hrest, hsame, List.filter_cons_of_pos (by simpa using htracked), hleft, List.take_succ_cons]
        simp
      · have hfull : maxGpio - tab.length = 0 := by omega
        simp [trackPin, htracked, hroom, ih hrest, hfull]

/-- The scan of a module tracks the requested ones of its pins, whose ids are distinct. -/
theorem scanModule_eq {m : Nat} (hm : m < 4) (maxGpio : Nat) (x : Word) (tab : List GpioEntry) :
    scanModule maxGpio x m tab =
      tab ++ (((List.range 32).filter (fun b => x.getLsbD b && !tracked tab (pinId m b))).take
        (maxGpio - tab.length)).map (fun b => newEntry (pinId m b)) := by
  have hd : (((List.range 32).filter (fun b => x.getLsbD b)).map (pinId m)).Nodup := by
    refine List.Nodup.map_on (fun b hb c hc he => ?_) (List.nodup_range.filter _)
    have hb' : b < 32 := List.mem_range.1 (List.mem_of_mem_filter hb)
    have hc' : c < 32 := List.mem_range.1 (List.mem_of_mem_filter hc)
    have hids := congrArg BitVec.toNat he
    rw [pinId_toNat hm hb', pinId_toNat hm hc'] at hids
    omega
  have hfold : scanModule maxGpio x m tab =
      (((List.range 32).filter (fun b => x.getLsbD b)).map (pinId m)).foldl (trackPin maxGpio) tab := by
    rw [List.foldl_map, List.foldl_filter]
    rfl
  rw [hfold, foldl_trackPin hd, List.filter_map, List.filter_filter, ← List.map_take, List.map_map]
  simp only [Function.comp_def, Bool.and_comm]

section

variable {s s1 : State} {x : Word}

theorem nextModule_eq (hphase : s.phase = .discg) :
    nextModule s =
      { s with phase := if s.gidx = 3 then .wait else .discg, gidx := if s.gidx = 3 then 0 else s.gidx + 1 } := by
  by_cases h : s.gidx = 3
  · simp [nextModule, h]
  · simp [nextModule, h, ← hphase]

theorem exec_discGpio_scans (hat : RtuAt s .discg) (hg : s.gidx < 4) (hr : memRead .rtu (gpioIntWord + s.gidx) s = .ok (x, s1)) :
    exec .discGpio s = .next { s1 with
      gpioTab := scanModule s.params.maxGpio x s.gidx s.gpioTab
      phase := if s.gidx = 3 then .wait else .discg
      gidx := if s.gidx = 3 then 0 else s.gidx + 1 } := by
  simp only [exec, execDiscGpio, guarded_of hat, if_neg (Nat.not_le.2 hg), hr, finish_ok]
  obtain ⟨-, -, l, rfl⟩ := memRead_ok hr
  obtain ⟨-, -, -, -, hphase⟩ := hat
  exact congrArg _ (nextModule_eq hphase)

theorem exec_discGpio_unwritten (hsize : 1031 ≤ s.params.shmWords) (hat : RtuAt s .discg) (hg : s.gidx < 4)
    (hw : s.word (gpioIntWord + s.gidx) = none) :
    exec .discGpio s = .next (takeFault (.uninit (.word (gpioIntWord + s.gidx))) s) := by
  have hlt : gpioIntWord + s.gidx < s.params.shmWords := lt_shmWords_of_size hsize (by simp only [gpioIntWord]; omega)
  simp only [exec, execDiscGpio, guarded_of hat, if_neg (Nat.not_le.2 hg), memRead_unwritten (side := .rtu) hlt hw, finish_raise]

end

/-- Settles O45: the scan in closed form, and the step to the next module. -/
theorem discGpioTracksRequested : Obligations.DiscGpioTracksRequested := by
  refine ⟨⟨rfl, rfl, rfl, fun _ hen => guarded_of_not hen⟩, fun s s1 x hat hg hr => ?scan,
    fun s hsize hat hg hw => exec_discGpio_unwritten hsize hat (Nat.lt_succ_of_le hg) hw⟩
  case scan =>
    have hm : s.gidx < 4 := Nat.lt_succ_of_le hg
    refine ⟨?_, memRead_shm hr⟩
    rw [exec_discGpio_scans hat hm hr, scanModule_eq hm]
    rfl

end Sys2Proof.Machine
end

section
/-! The comparator's operands: the samples and averages of a rolling buffer (R201, R203), and the sampling order (R206). -/

namespace Sys2Proof

/-- Bits 15:4 of an ADC message are its value's (R102). -/
theorem getLsbD_encodeMessage_adc (c : BitVec 4) (v : BitVec 12) {i : Nat} (hi : i < 12) :
    (encodeMessage (.adc c v)).getLsbD (4 + i) = v.getLsbD i := by
  have hv : (fieldVal (encodeMessage (.adc c v))).getLsbD i = v.getLsbD i := by rw [val_adc]
  simpa [fieldVal, hi] using hv

end Sys2Proof

namespace Sys2Proof.Machine

open Sys2Proof.Config

/-! ## Samples and averages -/

theorem fastSample_eq_ofNat (raw : BitVec 12) : fastSample raw = BitVec.ofNat 7 (raw.toNat / 32) := by
  apply BitVec.eq_of_toNat_eq
  simp [fastSample, Nat.shiftRight_eq_div_pow]

theorem storeSample_getElem (bufs : Vector (Vector (BitVec 7) 8) 6) (n : Nat) (pos : BitVec 3) (v : BitVec 7) (c : Fin 6)
    (j : Fin 8) :
    ((storeSample bufs n pos v)[c])[j] = if c.val = n ∧ j.val = pos.toNat then v else (bufs[c])[j] := by
  by_cases hc : c.val = n
  · subst hc
    by_cases hj : j.val = pos.toNat
    · simp [storeSample, hj]
    · simp [storeSample, hj, Ne.symm hj]
  · unfold storeSample
    split
    · simp [hc, Ne.symm hc]
    · simp [hc]

theorem bufferSum_eq (buf : Vector (BitVec 7) 8) :
    bufferSum buf = buf[0].toNat + buf[1].toNat + buf[2].toNat + buf[3].toNat + buf[4].toNat + buf[5].toNat + buf[6].toNat +
      buf[7].toNat := by
  obtain ⟨⟨l⟩, hl⟩ := buf
  match l, hl with
  | [_, _, _, _, _, _, _, _], _ => simp [bufferSum, Nat.add_assoc]

theorem bufferSum_le (buf : Vector (BitVec 7) 8) : bufferSum buf ≤ 1016 := by
  rw [bufferSum_eq]
  omega

theorem average_toNat (buf : Vector (BitVec 7) 8) : (average buf).toNat = bufferSum buf / 8 := by
  have hsum := bufferSum_le buf
  rw [average, BitVec.toNat_ofNat, Nat.shiftRight_eq_div_pow]
  omega

/-- Settles O48: the average is a 7-bit number, so of the message's value field only bits 10:4 can be set. -/
theorem averageIsFloorOfMean : Obligations.AverageIsFloorOfMean := by
  refine fun buf => ⟨bufferSum_eq buf, bufferSum_le buf, average_toNat buf, average_le buf, fun c k hlo hhi => ?_⟩
  obtain ⟨i, rfl⟩ := Nat.exists_eq_add_of_le (show 4 ≤ k by omega)
  rw [getLsbD_encodeMessage_adc c _ (by omega)]
  have hpow : 2 ^ 7 ≤ 2 ^ i := Nat.pow_le_pow_right (by decide) (by omega)
  exact Nat.testBit_lt_two_pow ((Nat.lt_succ_of_le (average_le buf)).trans_le hpow)

/-! ## The sampling order -/

theorem numberedFrom_getElem? (tab : List GpioEntry) (n k : Nat) :
    (numberedFrom n tab)[k]? = (tab[k]?).map (fun e => (n + k, e)) := by
  induction tab generalizing n k with
  | nil => rfl
  | cons x rest ih =>
    cases k with
    | zero => rfl
    | succ k => simp [numberedFrom, ih, Nat.add_assoc, Nat.add_comm 1]

/-- The order of numbered entries by ascending pin id. -/
abbrev PinLe : Nat × GpioEntry → Nat × GpioEntry → Prop := (fun x => x.2.pin.toNat) ⁻¹'o (· ≤ ·)

theorem insertByPin_eq_orderedInsert (x : Nat × GpioEntry) (l : List (Nat × GpioEntry)) :
    insertByPin x l = l.orderedInsert PinLe x := by
  induction l with
  | nil => rfl
  | cons y rest ih =>
    rw [List.orderedInsert_cons, ← ih]
    rfl

/-- The order by pin id is the library's insertion sort. -/
theorem orderByPin_eq_insertionSort (l : List (Nat × GpioEntry)) : orderByPin l = l.insertionSort PinLe := by
  induction l with
  | nil => rfl
  | cons x rest ih => rw [orderByPin, ih, insertByPin_eq_orderedInsert, List.insertionSort_cons]

/-- Settles O51: creation order numbers the entries from 0, and an insertion sort permutes them into ascending order. -/
theorem samplingOrderBySetting : Obligations.SamplingOrderBySetting := by
  intro tab
  have hsort : samplingOrder .pinId tab = (samplingOrder .discovery tab).insertionSort PinLe :=
    orderByPin_eq_insertionSort (numberedFrom 0 tab)
  rw [hsort]
  refine ⟨fun k => ?discovery, List.perm_insertionSort PinLe _, List.pairwise_insertionSort PinLe _⟩
  case discovery => simpa only [samplingOrder, Nat.zero_add] using numberedFrom_getElem? tab 0 k

end Sys2Proof.Machine
end

section
/-! The comparator's operations (R200, R202, R204 to R206): each guarded body is one store or one change test. -/

namespace Sys2Proof.Machine

/-! ## The change tests (R207) -/

section

variable {s : State}

theorem lastReported_eq {c : BitVec 4} {n : Nat} (hn : n < 14) (hc : c.toNat = n) : s.lastReported c = s.adcLast[n] := by
  simp [State.lastReported, hc, hn]

theorem compareAnalog_of_eq {c : BitVec 4} {v : BitVec 12} (h : s.lastReported c = some v) : compareAnalog c v s = s := by
  simp [compareAnalog, reportDue, h]

/-- The two updates of a vector agree where the index exists. -/
theorem setIfInBounds_eq_set {α : Type} {k n : Nat} (hn : n < k) (xs : Vector α k) (x : α) :
    xs.setIfInBounds n x = xs.set n x := by
  ext i hi
  rw [Vector.getElem_setIfInBounds, Vector.getElem_set]

theorem compareAnalog_of_ne {c : BitVec 4} {n : Nat} {v : BitVec 12} (hn : n < 14) (hc : c.toNat = n)
    (h : s.lastReported c ≠ some v) :
    compareAnalog c v s = { s with repPend := .adc, repCh := c, repVal := v, adcLast := s.adcLast.set n (some v) } := by
  simp [compareAnalog, reportDue, h, hc, State.reportAdc, setIfInBounds_eq_set hn]

theorem compareLevel_of_eq {k : Nat} {e : GpioEntry} {l : BitVec 1} (h : e.last = some l) : compareLevel k e l s = s := by
  simp [compareLevel, reportDue, h]

theorem compareLevel_of_ne {k : Nat} {e : GpioEntry} {l : BitVec 1} (h : e.last ≠ some l) :
    compareLevel k e l s =
      { s with repPend := .gpio, repPin := e.pin, repLvl := l, gpioTab := s.gpioTab.set k ⟨e.pin, some l⟩ } := by
  simp [compareLevel, reportDue, h, State.reportGpio]

end

/-! ## The operations -/

section

variable {s : State}

theorem exec_fastAcc_stores (hen : CanFastAcc s) :
    exec .fastAcc s = .next { s with
      adcBuf := storeSample s.adcBuf s.curCh.toNat s.muxPos (BitVec.ofNat 7 (s.curRaw.toNat / 32))
      curStage := if s.muxPos = 7 then .avg else s.curStage
      curValid := if s.muxPos = 7 then s.curValid else false } := by
  rw [← fastSample_eq_ofNat]
  exact guarded_of hen

theorem exec_fastAvg_compares {c : Fin 6} (hat : PairAt s .avg) (hc : s.curCh.toNat = c.val) :
    exec .fastAvg s = .next
      { compareAnalog s.curCh (average s.adcBuf[c]) s with curStage := .classify, curValid := false } := by
  have hbuf : s.adcBuf[s.curCh.toNat]? = some s.adcBuf[c] := by simp [hc]
  simp only [exec, execFastAvg, guarded_of hat, hbuf, finish_ok, State.setCurValid]

theorem exec_slowCmp_compares (hen : CanSlowCmp s) :
    exec .slowCmp s = .next { compareAnalog s.curCh s.curRaw s with curValid := false } :=
  guarded_of hen

theorem exec_adcSkip_discards (hen : CanAdcSkip s) : exec .adcSkip s = .next { s with curValid := false } :=
  guarded_of hen

/-- `PIN = 32*m + b` names bit `b` of module `m` (R44). -/
theorem regRead_pinModule {pin : BitVec 8} {m : Fin 4} {b : Nat} (hpin : pin.toNat = 32 * m.val + b) (hb : b < 32)
    (r : GpioReg) : regRead (pinModule pin) r s = .ok (s.gpioBank r)[m] := by
  have hm : pinModule pin = m.val := by
    unfold pinModule
    omega
  rw [hm]
  exact regRead_of_lt m.isLt r s

theorem exec_gpioCmp_compares {k : Nat} {e : GpioEntry} {m : Fin 4} {b : Nat} (hen : CanGpioCmp s)
    (hs : s.sampledEntry = some (k, e)) (hpin : e.pin.toNat = 32 * m.val + b) (hb : b < 32) :
    exec .gpioCmp s = .next
      { compareLevel k e (BitVec.ofBool (bankBit s.gpioDatain m b)) s with gidx := s.gidx + 1 } := by
  have hbit : pinBit e.pin = b := by
    unfold pinBit
    omega
  simp only [exec, execGpioCmp, guarded_of hen, samplePin, hs, regRead_pinModule hpin hb, hbit, finish_ok]
  rfl

end

/-- Settles O46: the sample is the quotient by 32, and the position decides what is left to do. -/
theorem fastAccStoresSample : Obligations.FastAccStoresSample := by
  refine ⟨⟨rfl, rfl, rfl, fun _ hen => guarded_of_not hen⟩, fun s hat hch hfast => ?_⟩
  refine ⟨_, exec_fastAcc_stores ⟨hat, hch, hfast⟩, storeSample_getElem _ _ _ _, fun hpos => ?last, fun hpos => ?earlier⟩
  case last => simp only [hpos, if_true]
  case earlier => simp only [hpos, if_false]

/-- Settles O47: the average against the last reported value. -/
theorem fastAvgReportsChange : Obligations.FastAvgReportsChange := by
  refine ⟨⟨rfl, rfl, rfl, fun _ hen => guarded_of_not hen⟩, fun s c hat hc => ?_⟩
  have hc14 : c.val < 14 := by omega
  rw [exec_fastAvg_compares hat hc, Vector.getElem?_eq_getElem hc14, ← lastReported_eq hc14 hc]
  refine ⟨fun heq => ?same, fun hne => ?differs⟩
  case same => rw [compareAnalog_of_eq (Option.some.inj heq)]
  case differs => rw [compareAnalog_of_ne hc14 hc fun h => hne (congrArg some h)]

/-- Settles O49: the raw value against the last reported one; a skipped result is compared with nothing. -/
theorem slowCmpAndSkip : Obligations.SlowCmpAndSkip := by
  refine ⟨⟨rfl, rfl, rfl, fun _ hen => guarded_of_not hen⟩, ⟨rfl, rfl, rfl, fun _ hen => guarded_of_not hen⟩,
    fun s c hat hc => ?_⟩
  have hen : s.enabledChannel s.curCh = some s.adcEn[c] := by simp [State.enabledChannel, hc]
  have hlast : s.lastReported s.curCh = s.adcLast[c] := lastReported_eq c.isLt hc
  refine ⟨fun hon hslow heq => ?same, fun hon hslow hne => ?differs, fun hoff => ?skip⟩
  case same =>
    rw [exec_slowCmp_compares ⟨hat, hon ▸ hen, hc ▸ hslow⟩, compareAnalog_of_eq (hlast.trans heq)]
  case differs =>
    rw [exec_slowCmp_compares ⟨hat, hon ▸ hen, hc ▸ hslow⟩, compareAnalog_of_ne c.isLt hc (hlast ▸ hne)]
  case skip => exact exec_adcSkip_discards ⟨hat, hoff ▸ hen⟩

/-- Settles O50: the level read against the entry's last reported one. -/
theorem gpioCmpReportsChange : Obligations.GpioCmpReportsChange := by
  refine ⟨⟨rfl, rfl, rfl, fun _ hen => guarded_of_not hen⟩, fun s k e m b hat hlt hs hpin hb => ?_⟩
  rw [exec_gpioCmp_compares ⟨hat, hlt⟩ hs hpin hb]
  refine ⟨fun heq => ?same, fun hne => ?differs⟩
  case same => rw [compareLevel_of_eq heq]
  case differs => rw [compareLevel_of_ne hne]

end Sys2Proof.Machine
end

section
/-! What the host manager and the environment compute with: format K as a number (R114), one bit of a GPIO register (R44, R305), one bit
of an interest word (R225), and the registry cell of an operand (R62). -/

namespace Sys2Proof

theorem formK_eq_ofNat (o : BitVec 8) (ch : BitVec 4) : formK o ch = BitVec.ofNat 32 (o.toNat * 2 ^ 24 + ch.toNat) := by
  rw [formK, fieldAt_zero, fieldAt_or_ofNat o (by omega)]

end Sys2Proof

namespace Sys2Proof.Machine

open Sys2Proof.Config

/-! ## One bit of a GPIO register -/

theorem getLsbD_bit (b : Nat) {k : Nat} (hk : k < 32) : (1#32 <<< b).getLsbD k = decide (k = b) := by
  rw [Bool.eq_iff_iff]
  simp only [BitVec.getLsbD_shiftLeft, BitVec.getLsbD_one, Bool.and_eq_true, Bool.not_eq_true', decide_eq_true_eq,
    decide_eq_false_iff_not]
  omega

theorem getLsbD_putBit (v : Word) (level : BitVec 1) {b k : Nat} (hk : k < 32) :
    (putBit v b level).getLsbD k = if k = b then decide (level = 1) else v.getLsbD k := by
  by_cases hl : level = 1
  · rw [putBit, if_pos hl, setBit, BitVec.getLsbD_or, getLsbD_bit b hk, decide_eq_true hl]
    by_cases hb : k = b <;> simp [hb]
  · rw [putBit, if_neg hl, clearBit, BitVec.getLsbD_and, BitVec.getLsbD_not, getLsbD_bit b hk, decide_eq_false hl]
    by_cases hb : k = b <;> simp [hb, hk]

/-- A bank of GPIO registers with bit `b` of module `m` written. -/
def setBankBit (v : Vector Word 4) (m : Fin 4) (b : Nat) (level : BitVec 1) : Vector Word 4 := v.set m.val (putBit v[m] b level)

theorem bankBit_setBankBit (v : Vector Word 4) (m m' : Fin 4) (level : BitVec 1) (b : Nat) {b' : Nat} (hb' : b' < 32) :
    bankBit (setBankBit v m b level) m' b' = if m' = m ∧ b' = b then decide (level = 1) else bankBit v m' b' := by
  by_cases hm : m' = m
  · subst hm
    simpa [bankBit, setBankBit] using getLsbD_putBit v[m'] level hb'
  · have hne : m.val ≠ m'.val := fun h => hm (Fin.ext h.symm)
    simp [bankBit, setBankBit, hm, hne]

section

variable {s : State} {pin : BitVec 8} {m : Fin 4} {b : Nat} (hpin : pin.toNat = 32 * m.val + b) (hb : b < 32)

include hpin hb

/-! `PIN = 32*m + b` names bit `b` of module `m` (R44). -/

theorem pinModule_eq : pinModule pin = m.val := by
  unfold pinModule
  omega

theorem pinBit_eq : pinBit pin = b := by
  unfold pinBit
  omega

theorem pin_le_of_eq : pin.toNat ≤ 127 := by omega

theorem updateRegBit_pin (r : GpioReg) (level : BitVec 1) :
    updateRegBit (pinModule pin) r (pinBit pin) level s = .ok (s.setGpioBank r (setBankBit (s.gpioBank r) m b level)) := by
  rw [updateRegBit, regRead_pinModule hpin hb, pinModule_eq hpin hb, pinBit_eq hpin hb]
  exact regWrite_of_lt m.isLt r _ s

end

/-! ## One bit of an interest word -/

section

variable {s s1 : State} {w : Nat} {g : Word}

/-- A request completes where its read does; what it reads, it stores with the bit set. -/
theorem requestBit_completes (hr : memRead .host w s = .ok (g, s1)) (b : Nat) :
    ∃ lh lr, requestBit w b s = .ok { s with shm := s.shm.writeWord w (setBit g b), staleHost := lh, staleRtu := lr } := by
  obtain ⟨hw, -, l, rfl⟩ := memRead_ok hr
  obtain ⟨u, hu⟩ := memWrite_completes (side := .host) (v := setBit g b) (s := s.setStale .host l) hw
  rw [requestBit, hr]
  obtain ⟨-, lh, lr, rfl, -⟩ := memWrite_ok hu
  exact ⟨lh, lr, hu⟩

theorem requestBit_unwritten (hw : w < s.params.shmWords) (hu : s.word w = none) (b : Nat) :
    requestBit w b s = .error (.raise (.uninit (.word w))) := by
  rw [requestBit, memRead_unwritten hw hu]

end

/-! ## The registries -/

theorem pinUse_eq {s : State} {pin : BitVec 8} {q : Fin 128} (hq : q.val = pin.toNat) : s.pinUse pin = s.hregPin[q] := by
  simp [State.pinUse, ← hq]

theorem directionOf_ne_none (b : BitVec 1) : directionOf b ≠ .none := by
  unfold directionOf
  split <;> exact nofun

end Sys2Proof.Machine
end

section
/-! What the operations of the host manager (R220 to R228) and `PIN_SET` (R244) end in, one equation per case. -/

namespace Sys2Proof.Machine

open Sys2Proof.Config

section

variable {s s1 : State} {pin : BitVec 8} {ch : BitVec 4} {g : Word}

/-! ## The checks of an operation on a pin (R269) -/

theorem pinChecked_of_named {body : Except Stop State} (hpin : pin.toNat ≤ 127) (hmap : s.hmapped = true) :
    pinChecked pin s body = body := by
  simp [pinChecked, Nat.not_lt.2 hpin, hmap]

theorem finish_pinChecked_refused {body : Except Stop State} (h : 127 < pin.toNat ∨ s.hmapped = false) :
    finish s (pinChecked pin s body) = .next { s with refused := true } := by
  unfold pinChecked
  split
  · rfl
  · rw [if_pos (h.resolve_left ‹_›)]
    rfl

/-! ## Configuring a pin (R222) -/

section

variable {m : Fin 4} {b : Nat} {q : Fin 128} (hpin : pin.toNat = 32 * m.val + b) (hb : b < 32) (hq : q.val = pin.toNat)

include hpin hb hq

theorem configurePin_output :
    configurePin pin 0 s =
      .ok { s with gpioOe := setBankBit s.gpioOe m b 0, hregPin := s.hregPin.set q.val .output, hstatus := .ok } := by
  rw [configurePin, updateRegBit_pin hpin hb, ← hq]
  simp only [directionOf, if_neg (show ¬ (0 : BitVec 1) = 1 by decide), State.setGpioBank, State.gpioBank, State.setStatus,
    setIfInBounds_eq_set q.isLt]

/-- An input's interest bit is requested after its `OE` bit is written. -/
theorem configurePin_input :
    configurePin pin 1 s =
      (requestBit (gpioIntWord + m.val) b { s with gpioOe := setBankBit s.gpioOe m b 1 }).map fun t =>
        { t with hregPin := t.hregPin.set q.val .input, hstatus := .ok } := by
  rw [configurePin, updateRegBit_pin hpin hb, pinModule_eq hpin hb, pinBit_eq hpin hb, ← hq]
  simp only [if_true, State.setGpioBank, State.gpioBank]
  cases requestBit (gpioIntWord + m.val) b { s with gpioOe := setBankBit s.gpioOe m b 1 } with
  | error e => rfl
  | ok t => simp only [setIfInBounds_eq_set q.isLt, State.setStatus, directionOf, if_true, Except.map]

theorem configurePin_input_completes (hv : memRead .host (gpioIntWord + m.val) s = .ok (g, s1)) :
    ∃ lh lr, configurePin pin 1 s = .ok { s with
      shm := s.shm.writeWord (gpioIntWord + m.val) (setBit g b), staleHost := lh, staleRtu := lr
      gpioOe := setBankBit s.gpioOe m b 1, hregPin := s.hregPin.set q.val .input, hstatus := .ok } := by
  obtain ⟨lh, lr, hreq⟩ := requestBit_completes (memRead_gpioOe hv (setBankBit s.gpioOe m b 1)) b
  refine ⟨lh, lr, ?_⟩
  rw [configurePin_input hpin hb hq, hreq]
  rfl

theorem configurePin_input_unwritten (hsize : 1031 ≤ s.params.shmWords) (hv : s.word (gpioIntWord + m.val) = none) :
    configurePin pin 1 s = .error (.raise (.uninit (.word (gpioIntWord + m.val)))) := by
  have hlt : gpioIntWord + m.val < s.params.shmWords := lt_shmWords_of_size hsize (by simp only [gpioIntWord]; omega)
  have hreq := requestBit_unwritten (s := { s with gpioOe := setBankBit s.gpioOe m b 1 }) hlt hv b
  rw [configurePin_input hpin hb hq, hreq]
  rfl

end

/-! ## `PIN_SET` -/

theorem exec_pinSet_refused (l : BitVec 1) (h : 127 < pin.toNat) : exec (.pinSet pin l) s = .next { s with refused := true } := by
  simp only [exec, execPinSet, if_pos h, finish_refuse, takeRefusal]

/-- The environment's write of a level is a register update of `DATAIN`. -/
theorem exec_pinSet_writes {m : Fin 4} {b : Nat} (hpin : pin.toNat = 32 * m.val + b) (hb : b < 32) (l : BitVec 1) :
    exec (.pinSet pin l) s = .next { s with gpioDatain := setBankBit s.gpioDatain m b l } := by
  have hset : setPinLevel (pinModule pin) (pinBit pin) l s = .ok (s.setGpioBank .datain (setBankBit s.gpioDatain m b l)) :=
    updateRegBit_pin hpin hb .datain l
  simp only [exec, execPinSet, if_neg (Nat.not_lt.2 (pin_le_of_eq hpin hb)), hset, finish_ok, State.setGpioBank]

/-! ## Requesting a channel -/

theorem registerChannel_new {c : Fin 14} (hc : ch.toNat = c.val) (hreg : s.hregAdc[c] = false) :
    registerChannel ch s =
      (requestBit adcIntWord c.val s).map fun t => { t with hregAdc := t.hregAdc.set c.val true, hstatus := .ok } := by
  have hcell : ¬ (s.hregAdc[ch.toNat]?).getD false = true := by simpa [hc] using hreg
  rw [registerChannel, if_neg hcell, hc]
  cases requestBit adcIntWord c.val s with
  | error e => rfl
  | ok t => simp only [setIfInBounds_eq_set c.isLt, State.setStatus, Except.map]

variable (hr : s.rstep = .idle)

include hr

/-! ## The operations without operands -/

theorem exec_mapRegs_draws :
    exec .mapRegs s = .next (if freeMapOutcome s.tick then { s with hmapped := true, hstatus := .ok }
      else { s with hstatus := .registerMapError }) :=
  guarded_of (show HostIdle s from hr)

theorem exec_sessionEnd_clears :
    exec .sessionEnd s = .next
      { s with hregPin := Vector.replicate 128 .none, hregAdc := Vector.replicate 14 false, hmapped := false } :=
  guarded_of (show HostIdle s from hr)

/-! ## `CFG_PIN` -/

theorem exec_cfgPin_refused (l : BitVec 1) (h : 127 < pin.toNat ∨ s.hmapped = false) :
    exec (.cfgPin pin l) s = .next { s with refused := true } :=
  (guarded_of (show HostIdle s from hr)).trans (finish_pinChecked_refused h)

section

variable {q : Fin 128} {l : BitVec 1} (hmap : s.hmapped = true) (hq : q.val = pin.toNat)

include hmap hq

theorem exec_cfgPin_named :
    exec (.cfgPin pin l) s = finish s
      (if s.hregPin[q] = directionOf l then .ok { s with hstatus := .ok }
        else if s.hregPin[q] ≠ .none then .ok { s with hstatus := .pinConflictError }
        else if freePathOutcome s.tick then configurePin pin l s
        else .ok { s with hstatus := .pinConfigError }) := by
  simp only [exec, execCfgPin, guarded_of (show HostIdle s from hr), pinChecked_of_named (show pin.toNat ≤ 127 by omega) hmap,
    pinUse_eq hq, State.setStatus]

theorem exec_cfgPin_same (hreg : s.hregPin[q] = directionOf l) :
    exec (.cfgPin pin l) s = .next { s with hstatus := .ok } := by
  rw [exec_cfgPin_named hr hmap hq, if_pos hreg, finish_ok]

theorem exec_cfgPin_conflict (hreg : s.hregPin[q] ≠ directionOf l) (huse : s.hregPin[q] ≠ .none) :
    exec (.cfgPin pin l) s = .next { s with hstatus := .pinConflictError } := by
  rw [exec_cfgPin_named hr hmap hq, if_neg hreg, if_pos huse, finish_ok]

/-- For a free pin the draw decides. -/
theorem exec_cfgPin_free (hfree : s.hregPin[q] = .none) :
    exec (.cfgPin pin l) s = finish s
      (if freePathOutcome s.tick then configurePin pin l s else .ok { s with hstatus := .pinConfigError }) := by
  rw [exec_cfgPin_named hr hmap hq, hfree, if_neg (directionOf_ne_none l).symm, if_neg (not_not.2 rfl)]

end

/-! ## `SET_OUT` -/

theorem exec_setOut_refused (l : BitVec 1) (h : 127 < pin.toNat ∨ s.hmapped = false) :
    exec (.setOut pin l) s = .next { s with refused := true } :=
  (guarded_of (show HostIdle s from hr)).trans (finish_pinChecked_refused h)

theorem exec_setOut_writes {m : Fin 4} {b : Nat} (hpin : pin.toNat = 32 * m.val + b) (hb : b < 32) (hmap : s.hmapped = true)
    (l : BitVec 1) : exec (.setOut pin l) s = .next { s with gpioDataout := setBankBit s.gpioDataout m b l } := by
  simp only [exec, execSetOut, guarded_of (show HostIdle s from hr), pinChecked_of_named (pin_le_of_eq hpin hb) hmap,
    updateRegBit_pin hpin hb, finish_ok, State.setGpioBank, State.gpioBank]

/-! ## `REG_ADC` -/

theorem exec_regAdc_refused (h : 13 < ch.toNat) : exec (.regAdc ch) s = .next { s with refused := true } := by
  simp only [exec, execRegAdc, guarded_of (show HostIdle s from hr), if_pos h, finish_refuse, takeRefusal]

section

variable {c : Fin 14} (hc : ch.toNat = c.val)

include hc

theorem exec_regAdc_named : exec (.regAdc ch) s = finish s (registerChannel ch s) := by
  simp only [exec, execRegAdc, guarded_of (show HostIdle s from hr), if_neg (show ¬ 13 < ch.toNat by omega)]

theorem exec_regAdc_again (hreg : s.hregAdc[c] = true) : exec (.regAdc ch) s = .next { s with hstatus := .ok } := by
  have hcell : (s.hregAdc[ch.toNat]?).getD false = true := by simpa [hc] using hreg
  rw [exec_regAdc_named hr hc, registerChannel, if_pos hcell]
  rfl

theorem exec_regAdc_requests (hreg : s.hregAdc[c] = false) (hv : memRead .host adcIntWord s = .ok (g, s1)) :
    ∃ lh lr, exec (.regAdc ch) s = .next { s with
      shm := s.shm.writeWord adcIntWord (setBit g c.val), staleHost := lh, staleRtu := lr
      hregAdc := s.hregAdc.set c.val true, hstatus := .ok } := by
  obtain ⟨lh, lr, hq⟩ := requestBit_completes hv c.val
  refine ⟨lh, lr, ?_⟩
  rw [exec_regAdc_named hr hc, registerChannel_new hc hreg, hq]
  rfl

theorem exec_regAdc_unwritten (hsize : 1031 ≤ s.params.shmWords) (hreg : s.hregAdc[c] = false)
    (hv : s.word adcIntWord = none) : exec (.regAdc ch) s = .next (takeFault (.uninit (.word adcIntWord)) s) := by
  rw [exec_regAdc_named hr hc, registerChannel_new hc hreg, requestBit_unwritten (lt_shmWords_of_size hsize (by decide)) hv]
  rfl

end

end

end Sys2Proof.Machine
end

section
/-! The claims about the host manager and `PIN_SET` (R220 to R229, R244). -/

namespace Sys2Proof.Machine

open Sys2Proof.Config

/-! ## The host never blocks (R229) -/

section

variable {s : State}

/-- An enabled operation that stops in no fault completes. -/
theorem exec_completes_of_noFault {i : Instr} (hen : Enabled i s) (hf : ∀ f, exec i s ≠ .fault f) : ∃ t, exec i s = .next t := by
  cases h : exec i s with
  | next t => exact ⟨t, rfl⟩
  | fault f => exact absurd h (hf f)
  | refused r => exact absurd hen (exec_refused h)

theorem execSetOut_noFault (pin : BitVec 8) (b : BitVec 1) (f : Fault) : execSetOut pin b s ≠ .fault f :=
  guarded_noFault (fun _ => pinChecked_noHalt fun hpin => updateRegBit_noHalt (pinModule_lt hpin)) f

theorem exec_rbInit_completes (hwf : s.params.Wf) (hr : s.rstep = .idle) : ∃ t, exec .rbInit s = .next t := by
  obtain ⟨m, lh, lr, -, hex, -⟩ := exec_rbInit_clears hwf.1 hr
  exact ⟨_, hex⟩

theorem exec_decode_completes (hr : s.rstep = .idle) : ∃ t, exec .decode s = .next t := by
  cases hw : s.rdataW with
  | false => exact ⟨_, exec_decode_unwritten hr hw⟩
  | true => exact ⟨_, exec_decode_deposits hr hw⟩

end

/-- Settles O15: the operations are enabled, and within the parameters' bounds none of them accesses a cell that does not exist. -/
theorem hostNeverBlocks : Obligations.HostNeverBlocks := by
  refine fun s hwf => ⟨exec_completes_of_noFault trivial (execRbRead_noFault hwf), fun hr => ?plain,
    fun hr pin b => ⟨?cfgPin, ?setOut⟩, fun hr ch => ?regAdc⟩
  case plain =>
    simp only [List.forall_mem_cons, List.not_mem_nil, false_implies, implies_true, and_true]
    exact ⟨exec_rbInit_completes hwf hr, exec_decode_completes hr, ⟨_, exec_mapRegs_draws hr⟩, ⟨_, exec_sessionEnd_clears hr⟩⟩
  case cfgPin => exact exec_completes_of_noFault hr (execCfgPin_noFault hwf)
  case setOut => exact exec_completes_of_noFault hr (execSetOut_noFault pin b)
  case regAdc => exact exec_completes_of_noFault hr (execRegAdc_noFault hwf)

/-! ## Pins and channels -/

/-- Settles O54: the draw decides; a written path is followed by the pin's bits and its registry cell. -/
theorem cfgPinConfigures : Obligations.CfgPinConfigures := by
  intro s pin m b q hsize hpin hb hq hr hmap hfree
  have hex (l : BitVec 1) := exec_cfgPin_free (l := l) hr hmap hq hfree
  cases hpath : freePathOutcome s.tick with
  | false =>
    simp only [hpath, Bool.false_eq_true, if_false, finish_ok] at hex ⊢
    exact ⟨⟨_, hex 0, rfl⟩, fun _ _ _ => ⟨_, hex 1, rfl⟩, fun _ => hex 1⟩
  | true =>
    simp only [hpath, if_true] at hex ⊢
    refine ⟨?output, fun g s1 hv => ?input, fun hv => ?unwritten⟩
    case output =>
      rw [hex, configurePin_output hpin hb hq]
      exact ⟨_, rfl, fun m' b' hb' => bankBit_setBankBit s.gpioOe m m' 0 b hb', rfl⟩
    case input =>
      obtain ⟨lh, lr, hcfg⟩ := configurePin_input_completes hpin hb hq hv
      rw [hex, hcfg]
      exact ⟨_, rfl, fun m' b' hb' => bankBit_setBankBit s.gpioOe m m' 1 b hb', readWord_writeWord_same _ _ _,
        fun a ha => readByte_writeWord_of_outside _ _ _ ha, rfl⟩
    case unwritten =>
      rw [hex, configurePin_input_unwritten hpin hb hq hsize hv]
      rfl

/-- Settles O53: the checks and the registry decide before the path is reached. -/
theorem cfgPinWithoutEffect : Obligations.CfgPinWithoutEffect := by
  refine ⟨fun pin b => ?row, fun s pin b hr h => exec_cfgPin_refused hr b h, fun s pin b q hq hr hmap => ⟨fun hreg => ?same,
    fun hreg => ?conflict⟩⟩
  case row =>
    exact rowSays_of_encode (by rintro (_ | _) <;> exact nofun) (formP_eq_ofNat 0x41 pin b) rfl fun _ hen => guarded_of_not hen
  case same => exact exec_cfgPin_same hr hmap hq.symm hreg
  case conflict =>
    have hother : s.hregPin[q] ≠ directionOf b ∧ s.hregPin[q] ≠ .none := by
      rw [hreg, directionOf]
      split <;> decide
    exact exec_cfgPin_conflict hr hmap hq.symm hother.1 hother.2

/-- Settles O55: the range, then the registry, then the interest word decide. -/
theorem regAdcRequests : Obligations.RegAdcRequests := by
  refine ⟨fun ch => ?row, fun s ch hr h => exec_regAdc_refused hr h, fun s ch c hsize hc hr =>
    ⟨exec_regAdc_again hr hc, fun g s1 hreg hv => ?request, exec_regAdc_unwritten hr hc hsize⟩⟩
  case row =>
    exact rowSays_of_encode (by rintro (_ | _) <;> exact nofun) (formK_eq_ofNat 0x42 ch) rfl fun _ hen => guarded_of_not hen
  case request =>
    obtain ⟨lh, lr, hex⟩ := exec_regAdc_requests hr hc hreg hv
    exact ⟨_, hex, readWord_writeWord_same _ _ _, fun a ha => readByte_writeWord_of_outside _ adcIntWord _ ha, rfl⟩

/-- Settles O56: each operation writes one bit of one bank. -/
theorem onePinBitIsWritten : Obligations.OnePinBitIsWritten := by
  refine ⟨fun pin l => ⟨?setOutRow, ?pinSetRow⟩,
    fun s pin l => ⟨fun hr h => exec_setOut_refused hr l h, exec_pinSet_refused l⟩,
    fun s pin l m b hpin hb => ⟨fun hr hmap => ⟨_, exec_setOut_writes hr hpin hb hmap l, ?dataout, rfl⟩,
      ⟨_, exec_pinSet_writes hpin hb l, ?datain, rfl⟩⟩⟩
  case setOutRow =>
    exact rowSays_of_encode (by rintro (_ | _) <;> exact nofun) (formP_eq_ofNat 0x43 pin l) rfl fun _ hen => guarded_of_not hen
  case pinSetRow =>
    exact rowSays_of_encode (by rintro (_ | _) <;> exact nofun) (formP_eq_ofNat 0x52 pin l) rfl fun _ hen => absurd trivial hen
  case dataout => exact fun m' b' hb' => bankBit_setBankBit s.gpioDataout m m' l b hb'
  case datain => exact fun m' b' hb' => bankBit_setBankBit s.gpioDatain m m' l b hb'

/-! ## Sessions -/

/-- Settles O52: one draw, whatever its value. -/
theorem mapRegsDraws : Obligations.MapRegsDraws :=
  ⟨⟨rfl, rfl, rfl, fun _ hen => guarded_of_not hen⟩, fun _ => exec_mapRegs_draws⟩

/-- Settles O57: every cell of the two registries is the cleared one. -/
theorem sessionEndClears : Obligations.SessionEndClears := by
  refine ⟨⟨rfl, rfl, rfl, fun _ hen => guarded_of_not hen⟩, fun s hr =>
    ⟨_, exec_sessionEnd_clears hr, fun q => ?pins, fun c => ?channels, rfl⟩⟩
  case pins => exact Vector.getElem_replicate q.isLt
  case channels => exact Vector.getElem_replicate c.isLt

end Sys2Proof.Machine
end

section
/-! The timer, the ADC front end and the loader (R240, R242, R246, R248). -/

namespace Sys2Proof.Machine

/-- Settles O59: `RTU_START` is enabled where the RTU is halted, `RTU_HALT` where it is not. -/
theorem loaderStartsAndHalts : Obligations.LoaderStartsAndHalts :=
  ⟨⟨rfl, rfl, rfl, fun _ hen => guarded_of_not hen⟩, ⟨rfl, rfl, rfl, fun _ hen => guarded_of_not hen⟩,
    fun s hr => ⟨fun hseq => guarded_of (show CanRtuStart s from ⟨hr, hseq⟩),
      fun hseq => guarded_of (show CanRtuHalt s from ⟨hr, hseq⟩)⟩⟩

/-- Settles O58: a compare match is always enabled, a conversion where the queue has room for the next step's result. -/
theorem timerAndConversion : Obligations.TimerAndConversion := by
  refine ⟨⟨rfl, rfl, rfl, fun _ hen => absurd trivial hen⟩, fun _ => rfl, fun st d => ⟨?row, fun s hpend hnext hroom => ?appends⟩⟩
  case row =>
    exact rowSays_of_encode (by rintro (_ | _) <;> exact nofun) (formA_eq_ofNat 0x51 st d) rfl fun _ hen => guarded_of_not hen
  case appends => exact guarded_of (show CanAdcConv s st from ⟨hpend, hnext, hroom⟩)

end Sys2Proof.Machine
end

section
/-! Fair runs (R241, R243, R312; log 17): a hold of the RTU is kept by every command but those that end it, and fairness brings one of
these. -/

namespace Sys2Proof.Machine

open Sys2Proof.Config

variable {s t : State} {c : Command}

/-! ## What a performed command keeps -/

/-- A command whose word spells an operation of its own agent is that operation's command (R118). -/
theorem command_of_decode {i : Instr} (hd : decodeCommand c.word = .op i) (ha : i.agent = c.agent) : c = i.command := by
  rw [Instr.command, commandWordsUnique c.word i hd, ha]

/-- `OtherKeeps` of a performed command: what it keeps when it is not one of the RTU's own steps. -/
structure CommandKeeps (c : Command) (s t : State) : Prop where
  control : SameControl s t
  seq : c ≠ Instr.rtuHalt.command → s.seq ≠ .halted → t.seq = s.seq
  flag : s.tmrFlag = true → t.tmrFlag = true
  sweep : (∀ st d, c ≠ (Instr.adcConv st d).command) → t.adcFifo = s.adcFifo ∧ t.adcPend = s.adcPend ∧ t.adcNext = s.adcNext

/-- A command other than the RTU's next operation is refused, or another agent's operation. -/
theorem commandKeeps_of_perform (h : perform c s = .next t) (hrtu : ∀ i, rtuNext s = some i → c ≠ i.command) :
    CommandKeeps c s t := by
  obtain ⟨u, rfl, rfl | ⟨i, hd, ha, hsel, hex⟩⟩ := perform_next h
  · exact ⟨⟨rfl, rfl, rfl, rfl, rfl⟩, fun _ _ => rfl, id, fun _ => ⟨rfl, rfl, rfl⟩⟩
  · obtain rfl := command_of_decode hd ha
    obtain ⟨⟨hw, hrep, hvalid, hphase, hparams⟩, hseq, hflag, hsweep⟩ :=
      exec_otherKeeps (fun hr => hrtu i (hsel hr) rfl) hex
    exact ⟨⟨hw, hrep, hvalid, hphase, hparams⟩, fun hc => hseq fun hi => hc (congrArg Instr.command hi), hflag,
      fun hc => hsweep fun st d hi => hc st d (congrArg Instr.command hi)⟩

/-- An RTU that the host does not halt stays where it is. -/
theorem CommandKeeps.rtuAt {p : Phase} (hk : CommandKeeps c s t) (hc : c ≠ Instr.rtuHalt.command) (hat : RtuAt s p) : RtuAt t p := by
  obtain ⟨hseq, hw, hrep, hvalid, hphase⟩ := hat
  have hrun : t.seq = s.seq := hk.seq hc (by simp [hseq])
  exact ⟨hrun.trans hseq, hk.control.wstep.trans hw, hk.control.repPend.trans hrep, hk.control.curValid.trans hvalid,
    hk.control.phase.trans hphase⟩

/-! ## A property kept until an event -/

/-- Where each step that does not keep `P` is an event of `Q`, a run in which `P` holds comes to such an event, or `P` holds forever. -/
theorem InfiniteRun.event_or_forever {states : Nat → State} {events : Nat → Command} {P : State → Prop} {Q : Command → Prop}
    (hrun : InfiniteRun states events) (hstep : ∀ c s t, perform c s = .next t → P s → Q c ∨ P t) {n : Nat} (hn : P (states n)) :
    (∃ k, n ≤ k ∧ Q (events k)) ∨ ∀ k, n ≤ k → P (states k) := by
  by_cases hQ : ∃ k, n ≤ k ∧ Q (events k)
  · exact .inl hQ
  · refine .inr fun k hk => Nat.le_induction hn (fun m hm ih => ?_) k hk
    exact (hstep _ _ _ (hrun m) ih).resolve_left fun hq => hQ ⟨m, hm, hq⟩

/-! ## Waiting for the timer (R184, R241) -/

/-- The commands that end a wait for the timer. -/
def EndsWait (c : Command) : Prop := c = Instr.tmrWait.command ∨ c = Instr.rtuHalt.command

/-- A waiting RTU has one operation. -/
theorem rtuNext_wait {i : Instr} (hat : RtuAt s .wait) (hi : rtuNext s = some i) : i = .tmrWait := by
  cases hf : s.tmrFlag with
  | false =>
    rw [rtuNext_of_wait hat hf] at hi
    cases hi
  | true =>
    rw [rtuNext_of_enabled (i := .tmrWait) rfl ⟨hat, hf⟩ trivial] at hi
    exact (Option.some.inj hi).symm

theorem wait_step (h : perform c s = .next t) (hat : RtuAt s .wait) :
    EndsWait c ∨ (RtuAt t .wait ∧ (s.tmrFlag = true → t.tmrFlag = true)) := by
  refine or_iff_not_imp_left.2 fun hc => ?_
  obtain ⟨hwait, hhalt⟩ := not_or.1 hc
  have hk : CommandKeeps c s t := commandKeeps_of_perform h fun i hi => rtuNext_wait hat hi ▸ hwait
  exact ⟨hk.rtuAt hhalt hat, hk.flag⟩

/-- A compare match sets the flag (R240). -/
theorem tmrFlag_of_fire (h : perform Instr.tmrFire.command s = .next t) : t.tmrFlag = true := by
  cases h
  rfl

/-- The RTU takes a step only by the operation the sequencer selects (R170). -/
theorem rtuNext_of_takes (htakes : Takes .rtu c) (h : perform c s = .next t) : ∃ i, rtuNext s = some i ∧ c = i.command := by
  obtain ⟨hc, i, hd, hi⟩ := htakes
  have hact : act i s = .next t := by
    rw [act, hi, ← hc, ← perform_of_op hd, h]
  obtain ⟨-, -, hsel, -⟩ := act_next hact
  exact ⟨i, hsel hi, command_of_decode hd (hi.trans hc.symm)⟩

/-- Once the flag is set, `TMR_WAIT` is enabled until the wait ends. -/
theorem canTmrWait_step (h : perform c s = .next t) (hen : CanTmrWait s) : EndsWait c ∨ CanTmrWait t := by
  obtain ⟨hat, hflag⟩ := hen
  exact (wait_step h hat).imp_right fun ⟨hat', hkept⟩ => ⟨hat', hkept hflag⟩

theorem hasStep_of_canTmrWait (hen : CanTmrWait s) : HasStep .rtu s := by
  have hsel : rtuNext s = some .tmrWait := rtuNext_of_enabled rfl hen trivial
  obtain ⟨t, hex⟩ : ∃ t, exec .tmrWait s = .next t := ⟨_, guarded_of hen⟩
  have hperform : perform Instr.tmrWait.command s = .next t.ticked := by
    rw [perform_of_op (i := .tmrWait) rfl, attempt_of_selected (a := Instr.tmrWait.command.agent) rfl fun _ => hsel, hex, counted]
  exact ⟨Instr.tmrWait.command, t.ticked, ⟨rfl, .tmrWait, rfl, rfl⟩, hperform⟩

/-- In a fair run a wait ends: the timer fires, the flag stays set, and `TMR_WAIT` stays enabled until it is taken. -/
theorem FairRun.wait_ends {states : Nat → State} {events : Nat → Command} (hfair : FairRun states events) {n : Nat}
    (hat : RtuAt (states n) .wait) : ∃ k, n ≤ k ∧ EndsWait (events k) := by
  by_contra hnever
  have hwaits : ∀ k, n ≤ k → RtuAt (states k) .wait :=
    (hfair.run.event_or_forever (fun _ _ _ h hat => (wait_step h hat).imp_right And.left) hat).resolve_left hnever
  obtain ⟨m, hm, hfire⟩ := hfair.timer n
  have hflag : (states (m + 1)).tmrFlag = true := tmrFlag_of_fire (hfire ▸ hfair.run m)
  have hcan : ∀ k, m + 1 ≤ k → CanTmrWait (states k) :=
    (hfair.run.event_or_forever (fun _ _ _ => canTmrWait_step) ⟨hwaits _ (by omega), hflag⟩).resolve_left
      fun ⟨k, hk, hend⟩ => hnever ⟨k, by omega, hend⟩
  obtain ⟨k, hk, htakes | hnone⟩ := hfair.agents .rtu (m + 1) (hasStep_of_canTmrWait (hcan _ le_rfl))
  · obtain ⟨i, hsel, hc⟩ := rtuNext_of_takes htakes (hfair.run k)
    obtain rfl := rtuNext_wait (hcan k hk).1 hsel
    exact hnever ⟨k, by omega, .inl hc⟩
  · exact hnone (hasStep_of_canTmrWait (hcan k hk))

/-! ## Waiting for the rest of a sweep (R170, R243) -/

/-- The commands that end a drain's wait for the rest of its sweep. -/
def EndsSweepWait (c : Command) : Prop := (∃ st d, c = (Instr.adcConv st d).command) ∨ c = Instr.rtuHalt.command

/-- Under `SYNC` the drain holds at an empty queue, and a conversion is enabled. -/
structure AwaitsSweep (s : State) : Prop where
  drain : RtuAt s .drain
  sync : s.params.adcMode = .sync
  empty : s.adcFifo = []
  conversion : ConversionEnabled s

theorem ConversionEnabled.pend_ne_zero (h : ConversionEnabled s) : s.adcPend ≠ 0 := by
  obtain ⟨_, hpos, -, -⟩ := h
  exact Nat.ne_of_gt hpos

/-- Of a sweep under way the next step is one the front end can convert (R60). -/
theorem conversionEnabled_of_sweep (hinv : SweepInv s) (hrun : s.seq = .run) (hpend : s.adcPend ≠ 0)
    (hroom : s.adcFifo.length < s.params.fifoDepth) : ConversionEnabled s := by
  have hcount : s.adcNext + s.adcPend = 7 := hinv.counts hrun (Nat.pos_of_ne_zero hpend)
  have hstep : (BitVec.ofNat 4 s.adcNext).toNat = s.adcNext := Nat.mod_eq_of_lt (by omega)
  exact ⟨_, Nat.pos_of_ne_zero hpend, hstep, hroom⟩

theorem awaitsSweep_step (h : perform c s = .next t) (hs : AwaitsSweep s) : EndsSweepWait c ∨ AwaitsSweep t := by
  refine or_iff_not_imp_left.2 fun hc => ?_
  obtain ⟨hconv, hhalt⟩ := not_or.1 hc
  have hnone : rtuNext s = none := rtuNext_of_drain_sync hs.drain hs.empty hs.sync hs.conversion.pend_ne_zero
  have hk : CommandKeeps c s t := commandKeeps_of_perform h (by simp [hnone])
  obtain ⟨hfifo, hpend, hnext⟩ := hk.sweep fun st d he => hconv ⟨st, d, he⟩
  refine ⟨hk.rtuAt hhalt hs.drain, hk.control.params ▸ hs.sync, hfifo ▸ hs.empty, ?_⟩
  obtain ⟨st, hen⟩ := hs.conversion
  refine ⟨st, ?_⟩
  rw [CanAdcConv, hfifo, hpend, hnext, hk.control.params]
  exact hen

/-- In a fair run a conversion that stays enabled occurs. -/
theorem FairRun.sweepWait_ends {states : Nat → State} {events : Nat → Command} (hfair : FairRun states events) {n : Nat}
    (hs : AwaitsSweep (states n)) : ∃ k, n ≤ k ∧ EndsSweepWait (events k) := by
  obtain hend | hawaits := hfair.run.event_or_forever (fun _ _ _ => awaitsSweep_step) hs
  · exact hend
  · obtain ⟨k, hk, hconv | hnone⟩ := hfair.conversion n hs.conversion
    · exact ⟨k, hk, .inl hconv⟩
    · exact absurd (hawaits k hk).conversion hnone

/-- Settles O60: the timer's and the front end's fairness end the two holds. -/
theorem fairRunsReleaseHolds : Obligations.FairRunsReleaseHolds := by
  refine fun states events hfair n => ⟨hfair.wait_ends, fun hinv hwf hat hsync hempty hpend => hfair.sweepWait_ends ?_⟩
  have hroom : (states n).adcFifo.length < (states n).params.fifoDepth := by
    simp only [hempty, List.length_nil]
    omega
  exact ⟨hat, hsync, hempty, conversionEnabled_of_sweep hinv.sweep hat.1 hpend hroom⟩

end Sys2Proof.Machine
end

section
/-! The claims about stops, faults and refusals (R262, R263, R268, R279). -/

namespace Sys2Proof.Machine

open Sys2Proof.Config

/-! ## An operation that is not enabled is no step (R268) -/

/-- The converse of `exec_refused`: the guard of each operation is the condition its rule lists. -/
theorem exec_of_not_enabled {i : Instr} {s : State} (h : ¬ Enabled i s) : exec i s = .refused (.notEnabled i.mnemonic) := by
  cases i
  case rbRead | tmrFire | pinSet => exact absurd trivial h
  all_goals exact guarded_of_not h

/-- Settles O12: an operation is refused where its guard fails, and nowhere else. -/
theorem enabledExactlyWhenListed : Obligations.EnabledExactlyWhenListed :=
  fun _ _ => ⟨exec_refused, exec_of_not_enabled⟩

/-! ## Records are added and never taken back (R262, R263) -/

section

variable {i : Instr} {s t : State}

/-- Taking a fault adds at most its one record, and a record that stands already adds nothing (R66). -/
theorem takeFault_faults_cases (f : ModelFault) (s : State) :
    (takeFault f s).faults = s.faults ∨ f ∉ s.faults ∧ takeFault f s = { s with faults := s.faults ++ [f] } := by
  by_cases hf : f ∈ s.faults
  · exact .inl (if_pos hf)
  · exact .inr ⟨hf, by rw [takeFault, if_neg hf]⟩

theorem Effect.faults_eq_or (h : Effect i s t) :
    t.faults = s.faults ∨ ∃ f, f ∉ s.faults ∧ t = { s with faults := s.faults ++ [f] } := by
  cases h with
  | fault f => exact (takeFault_faults_cases f s).imp_right fun hadd => ⟨f, hadd⟩
  | _ => exact .inl rfl

theorem Effect.refused_eq_or (h : Effect i s t) : t.refused = s.refused ∨ t = { s with refused := true } := by
  cases h with
  | refusal => exact .inr rfl
  | _ => exact .inl rfl

end

/-- Settles O16: only taking a fault writes `FAULT`, and only taking a refusal writes `REFUSED`. -/
theorem faultsArePreciseAndSticky : Obligations.FaultsArePreciseAndSticky :=
  fun _ _ _ h => ⟨(exec_effect h).faults_eq_or, (exec_effect h).refused_eq_or⟩

/-! ## The parts of a pseudocode do not read the records (R279) -/

/-- The state with its records of faults and its mark of a refusal replaced. -/
def State.withRecords (fs : List ModelFault) (r : Bool) (s : State) : State := { s with faults := fs, refused := r }

/-- A pseudocode commutes with replacing the records: it ends alike from both states, and where it completes, it leaves states
that differ only in them. -/
abbrev Unobserving (fs : List ModelFault) (r : Bool) (body : State → Except Stop State) (s : State) : Prop :=
  body (s.withRecords fs r) = (body s).map (State.withRecords fs r)

section

variable {fs : List ModelFault} {r : Bool} {s : State}

@[simp] theorem withRecords_params : (s.withRecords fs r).params = s.params := rfl
@[simp] theorem withRecords_tick : (s.withRecords fs r).tick = s.tick := rfl
@[simp] theorem withRecords_shm : (s.withRecords fs r).shm = s.shm := rfl
@[simp] theorem withRecords_msg : (s.withRecords fs r).msg = s.msg := rfl
@[simp] theorem withRecords_wtail : (s.withRecords fs r).wtail = s.wtail := rfl
@[simp] theorem withRecords_muxPos : (s.withRecords fs r).muxPos = s.muxPos := rfl
@[simp] theorem withRecords_adcFifo : (s.withRecords fs r).adcFifo = s.adcFifo := rfl
@[simp] theorem withRecords_curCh : (s.withRecords fs r).curCh = s.curCh := rfl
@[simp] theorem withRecords_adcBuf : (s.withRecords fs r).adcBuf = s.adcBuf := rfl
@[simp] theorem withRecords_adcPend : (s.withRecords fs r).adcPend = s.adcPend := rfl
@[simp] theorem withRecords_hregAdc : (s.withRecords fs r).hregAdc = s.hregAdc := rfl
@[simp] theorem withRecords_hmapped : (s.withRecords fs r).hmapped = s.hmapped := rfl
@[simp] theorem withRecords_gidx : (s.withRecords fs r).gidx = s.gidx := rfl
@[simp] theorem withRecords_rdata : (s.withRecords fs r).rdata = s.rdata := rfl
@[simp] theorem withRecords_rdataW : (s.withRecords fs r).rdataW = s.rdataW := rfl
@[simp] theorem withRecords_rhead : (s.withRecords fs r).rhead = s.rhead := rfl
@[simp] theorem withRecords_wstep : (s.withRecords fs r).wstep = s.wstep := rfl
@[simp] theorem withRecords_rstep : (s.withRecords fs r).rstep = s.rstep := rfl
@[simp] theorem withRecords_lastReported (c : BitVec 4) : (s.withRecords fs r).lastReported c = s.lastReported c := rfl
@[simp] theorem withRecords_sampledEntry : (s.withRecords fs r).sampledEntry = s.sampledEntry := rfl
@[simp] theorem withRecords_pinUse (pin : BitVec 8) : (s.withRecords fs r).pinUse pin = s.pinUse pin := rfl

@[simp] theorem withRecords_stale (side : Side) : (s.withRecords fs r).stale side = s.stale side := by
  cases side <;> rfl

@[simp] theorem withRecords_setStale (side : Side) (l : List (Nat × Word)) :
    (s.withRecords fs r).setStale side l = (s.setStale side l).withRecords fs r := by
  cases side <;> rfl

@[simp] theorem withRecords_gpioBank (reg : GpioReg) : (s.withRecords fs r).gpioBank reg = s.gpioBank reg := by
  cases reg <;> rfl

@[simp] theorem withRecords_setGpioBank (reg : GpioReg) (b : Vector Word 4) :
    (s.withRecords fs r).setGpioBank reg b = (s.setGpioBank reg b).withRecords fs r := by
  cases reg <;> rfl

/-! ## Shared words and registers -/

theorem memRead_withRecords (side : Side) (w : Nat) :
    memRead side w (s.withRecords fs r) = (memRead side w s).map fun p => (p.1, p.2.withRecords fs r) := by
  simp only [memRead, withRecords_params, withRecords_shm, withRecords_tick, withRecords_stale, withRecords_setStale]
  split
  · rfl
  · split
    · rfl
    · split <;> rfl

theorem memWrite_unobserving (side : Side) (w : Nat) (v : Word) : Unobserving fs r (memWrite side w v) s := by
  simp only [Unobserving, memWrite, withRecords_params, withRecords_shm, withRecords_stale, withRecords_setStale]
  split
  · rfl
  · split <;> rfl

theorem regRead_withRecords (m : Nat) (reg : GpioReg) : regRead m reg (s.withRecords fs r) = regRead m reg s := by
  simp only [regRead, withRecords_gpioBank]

theorem regWrite_unobserving (m : Nat) (reg : GpioReg) (v : Word) : Unobserving fs r (regWrite m reg v) s := by
  simp only [Unobserving, regWrite, withRecords_gpioBank, withRecords_setGpioBank]
  split <;> rfl

theorem readCursors_withRecords (side : Side) :
    readCursors side (s.withRecords fs r) = (readCursors side s).map fun p => (p.1, p.2.1, p.2.2.withRecords fs r) := by
  unfold readCursors
  rw [memRead_withRecords]
  cases memRead side tailWord s with
  | error e => rfl
  | ok p =>
    dsimp only [Except.map]
    rw [memRead_withRecords]
    cases memRead side headWord p.2 with
    | error e => rfl
    | ok q =>
      dsimp only [Except.map]
      split
      · rfl
      · split <;> rfl

theorem requestBit_unobserving (w b : Nat) : Unobserving fs r (requestBit w b) s := by
  unfold Unobserving requestBit
  rw [memRead_withRecords]
  cases memRead .host w s with
  | error e => rfl
  | ok p => exact memWrite_unobserving .host w (setBit p.1 b)

theorem updateRegBit_unobserving (m : Nat) (reg : GpioReg) (b : Nat) (level : BitVec 1) :
    Unobserving fs r (updateRegBit m reg b level) s := by
  unfold Unobserving updateRegBit
  rw [regRead_withRecords]
  cases regRead m reg s with
  | error e => rfl
  | ok v => exact regWrite_unobserving m reg (putBit v b level)

theorem zeroWords_unobserving (l : List Nat) : Unobserving fs r (zeroWords l) s := by
  induction l generalizing s with
  | nil => rfl
  | cons w rest ih =>
    unfold Unobserving zeroWords
    rw [memWrite_unobserving]
    cases memWrite .host w 0 s with
    | error e => rfl
    | ok t => exact ih

/-! ## The ring and the codec -/

theorem ringWritePart1_unobserving : Unobserving fs r ringWritePart1 s := by
  unfold Unobserving ringWritePart1
  rw [readCursors_withRecords]
  cases readCursors .rtu s <;> rfl

theorem ringWritePart2_unobserving : Unobserving fs r ringWritePart2 s := by
  unfold Unobserving ringWritePart2
  rw [memWrite_unobserving, withRecords_wtail, withRecords_msg]
  cases memWrite .rtu (slot s.wtail) s.msg s <;> rfl

theorem ringWritePart3_unobserving : Unobserving fs r ringWritePart3 s := by
  unfold Unobserving ringWritePart3
  rw [memWrite_unobserving, withRecords_wtail]
  cases memWrite .rtu tailWord (nextCursor s.wtail) s <;> rfl

theorem ringReadPart0_unobserving : Unobserving fs r ringReadPart0 s := by
  unfold Unobserving ringReadPart0
  rw [readCursors_withRecords]
  cases readCursors .host s with
  | error e => rfl
  | ok p =>
    dsimp only [Except.map]
    split <;> rfl

theorem ringReadPart2_unobserving : Unobserving fs r ringReadPart2 s := by
  unfold Unobserving ringReadPart2
  rw [memRead_withRecords, withRecords_rhead]
  cases memRead .host (slot s.rhead) s <;> rfl

theorem ringReadPart3_unobserving : Unobserving fs r ringReadPart3 s := by
  unfold Unobserving ringReadPart3
  rw [memWrite_unobserving, withRecords_rhead]
  cases memWrite .host headWord (nextCursor s.rhead) s <;> rfl

theorem startWrite_unobserving (word : Except Stop Word) : Unobserving fs r (startWrite word) s := by
  cases word <;> rfl

theorem depositMessage_withRecords (m : Message) :
    depositMessage m (s.withRecords fs r) = (depositMessage m s).withRecords fs r := by
  cases m <;> rfl

/-! ## The sequencer and the comparator -/

theorem popResult_unobserving : Unobserving fs r popResult s := by
  unfold Unobserving popResult
  rw [withRecords_adcFifo, withRecords_muxPos]
  split
  · rfl
  · split <;> rfl

theorem nextModule_withRecords : nextModule (s.withRecords fs r) = (nextModule s).withRecords fs r := by
  unfold nextModule
  rw [withRecords_gidx]
  split <;> rfl

theorem compareAnalog_withRecords (c : BitVec 4) (v : BitVec 12) :
    compareAnalog c v (s.withRecords fs r) = (compareAnalog c v s).withRecords fs r := by
  unfold compareAnalog
  rw [withRecords_lastReported]
  split <;> rfl

theorem compareLevel_withRecords (k : Nat) (e : GpioEntry) (l : BitVec 1) :
    compareLevel k e l (s.withRecords fs r) = (compareLevel k e l s).withRecords fs r := by
  unfold compareLevel
  split <;> rfl

theorem samplePin_unobserving : Unobserving fs r samplePin s := by
  unfold Unobserving samplePin
  rw [withRecords_sampledEntry]
  split
  · rfl
  · rw [regRead_withRecords]
    split
    · rfl
    · rw [compareLevel_withRecords]
      rfl

/-! ## The host manager -/

theorem configurePin_unobserving (pin : BitVec 8) (b : BitVec 1) : Unobserving fs r (configurePin pin b) s := by
  unfold Unobserving configurePin
  rw [updateRegBit_unobserving]
  cases updateRegBit (pinModule pin) .oe (pinBit pin) b s with
  | error e => rfl
  | ok s1 =>
    dsimp only [Except.map]
    by_cases hb : b = 1
    · rw [if_pos hb, if_pos hb, requestBit_unobserving]
      cases requestBit (gpioIntWord + pinModule pin) (pinBit pin) s1 <;> rfl
    · rw [if_neg hb, if_neg hb]
      rfl

theorem registerChannel_unobserving (ch : BitVec 4) : Unobserving fs r (registerChannel ch) s := by
  unfold Unobserving registerChannel
  rw [withRecords_hregAdc, requestBit_unobserving]
  split
  · rfl
  · cases requestBit adcIntWord ch.toNat s <;> rfl

/-- The checks of an operation on a pin read its operand and `HMAPPED` only (R269). -/
theorem pinChecked_withRecords {pin : BitVec 8} {b b' : Except Stop State} (h : b' = b.map (State.withRecords fs r)) :
    pinChecked pin (s.withRecords fs r) b' = (pinChecked pin s b).map (State.withRecords fs r) := by
  unfold pinChecked
  rw [withRecords_hmapped, h]
  split
  · rfl
  · split <;> rfl

/-! ## No operation reads the records (R279) -/

/-- Whatever a pseudocode ends in, the step's outcome differs only in the records. -/
theorem finish_withRecords {b b' : Except Stop State} (h : b' = b.map (State.withRecords fs r)) :
    withoutRecords (finish (s.withRecords fs r) b') = withoutRecords (finish s b) := by
  subst h
  cases b with
  | ok t => rfl
  | error e => cases e <;> rfl

/-- An enabling condition `en` is the same for both states, since no rule's condition names a record. -/
theorem guarded_withRecords {m : String} {en : Prop} [Decidable en] {b b' : Except Stop State}
    (h : b' = b.map (State.withRecords fs r)) :
    withoutRecords (guarded m en (s.withRecords fs r) b') = withoutRecords (guarded m en s b) := by
  unfold guarded
  split
  · exact finish_withRecords h
  · rfl

theorem execRbWrite_withRecords : withoutRecords (execRbWrite (s.withRecords fs r)) = withoutRecords (execRbWrite s) := by
  refine guarded_withRecords ?_
  rw [withRecords_wstep]
  split
  · exact ringWritePart1_unobserving
  · exact ringWritePart2_unobserving
  · exact ringWritePart3_unobserving
  · rfl

theorem execRbRead_withRecords : withoutRecords (execRbRead (s.withRecords fs r)) = withoutRecords (execRbRead s) := by
  refine finish_withRecords ?_
  rw [withRecords_rstep]
  split
  · exact ringReadPart0_unobserving
  · exact ringReadPart2_unobserving
  · exact ringReadPart3_unobserving

theorem execDiscAdc_withRecords : withoutRecords (execDiscAdc (s.withRecords fs r)) = withoutRecords (execDiscAdc s) := by
  refine guarded_withRecords ?_
  rw [memRead_withRecords]
  cases memRead .rtu adcIntWord s <;> rfl

theorem execDiscGpio_withRecords : withoutRecords (execDiscGpio (s.withRecords fs r)) = withoutRecords (execDiscGpio s) := by
  refine guarded_withRecords ?_
  rw [withRecords_gidx, memRead_withRecords]
  split
  · rfl
  · cases memRead .rtu (gpioIntWord + s.gidx) s with
    | error e => rfl
    | ok p =>
      exact congrArg Except.ok (nextModule_withRecords
        (s := { p.2 with gpioTab := scanModule p.2.params.maxGpio p.1 p.2.gidx p.2.gpioTab }))

theorem execFastAvg_withRecords : withoutRecords (execFastAvg (s.withRecords fs r)) = withoutRecords (execFastAvg s) := by
  refine guarded_withRecords ?_
  rw [withRecords_curCh, withRecords_adcBuf]
  split
  · rfl
  · rw [compareAnalog_withRecords]
    rfl

theorem execCfgPin_withRecords (pin : BitVec 8) (b : BitVec 1) :
    withoutRecords (execCfgPin pin b (s.withRecords fs r)) = withoutRecords (execCfgPin pin b s) := by
  refine guarded_withRecords (pinChecked_withRecords ?_)
  rw [withRecords_pinUse, withRecords_tick, configurePin_unobserving]
  split
  · rfl
  · split
    · rfl
    · split <;> rfl

theorem execRegAdc_withRecords (ch : BitVec 4) :
    withoutRecords (execRegAdc ch (s.withRecords fs r)) = withoutRecords (execRegAdc ch s) := by
  refine guarded_withRecords ?_
  split
  · rfl
  · exact registerChannel_unobserving ch

theorem execPinSet_withRecords (pin : BitVec 8) (b : BitVec 1) :
    withoutRecords (execPinSet pin b (s.withRecords fs r)) = withoutRecords (execPinSet pin b s) := by
  refine finish_withRecords ?_
  split
  · rfl
  · -- the environment's write of a level is a register update of `DATAIN`
    exact updateRegBit_unobserving (pinModule pin) .datain (pinBit pin) b

theorem exec_withRecords (i : Instr) : withoutRecords (exec i (s.withRecords fs r)) = withoutRecords (exec i s) := by
  cases i with
  | rbInit => exact guarded_withRecords (zeroWords_unobserving initWords)
  | rbWrite => exact execRbWrite_withRecords
  | rbRead => exact execRbRead_withRecords
  | encGpio pin b => exact guarded_withRecords (startWrite_unobserving _)
  | encAdc ch val => exact guarded_withRecords (startWrite_unobserving _)
  | decode =>
    refine guarded_withRecords ?_
    rw [withRecords_rdataW, withRecords_rdata, depositMessage_withRecords]
    split <;> rfl
  | adcTrig =>
    refine guarded_withRecords ?_
    rw [withRecords_adcPend]
    split <;> rfl
  | adcPop => exact guarded_withRecords popResult_unobserving
  | discAdc => exact execDiscAdc_withRecords
  | discGpio => exact execDiscGpio_withRecords
  | fastAvg => exact execFastAvg_withRecords
  | slowCmp =>
    refine guarded_withRecords ?_
    rw [compareAnalog_withRecords]
    rfl
  | gpioCmp => exact guarded_withRecords samplePin_unobserving
  | mapRegs =>
    refine guarded_withRecords ?_
    rw [withRecords_tick]
    split <;> rfl
  | cfgPin pin b => exact execCfgPin_withRecords pin b
  | regAdc ch => exact execRegAdc_withRecords ch
  | setOut pin b => exact guarded_withRecords (pinChecked_withRecords (updateRegBit_unobserving _ _ _ _))
  | pinSet pin b => exact execPinSet_withRecords pin b
  | tmrFire => rfl
  | rtuStart =>
    refine guarded_withRecords ?_
    rw [withRecords_tick]
    split <;> rfl
  | _ => exact guarded_withRecords rfl

end

/-- Settles O17: every operation commutes with replacing the records, up to those of its next state. -/
theorem faultsNotObserved : Obligations.FaultsNotObserved := fun i _ _ _ => exec_withRecords i

end Sys2Proof.Machine
end

section
/-! A free choice (log 2): what a step does with nothing placed (R268, R311). -/

namespace Sys2Proof.Machine

open Sys2Proof.Config

section

variable {s : State} {i : Instr} {w : Word}

/-- A step with nothing placed is a freely chosen move, counted. -/
theorem step_of_unplaced (h : s.pending = []) : step s = counted (freeMove (freeWord s.tick) s) := by
  unfold step nextStep
  rw [h]

theorem freeMove_of_illegal (hd : decodeCommand w = .illegalCommand) : freeMove w s = .next s := by
  simp only [freeMove, hd]

theorem freeMove_of_refused {r : Refusal} (hd : decodeCommand w = .op i) (h : attempt i.agent i s = .refused r) :
    freeMove w s = .next s := by
  simp only [freeMove, hd, h]

/-- A chosen operation that its agent can attempt without being refused is moved as attempted. -/
theorem freeMove_of_not_refused (hd : decodeCommand w = .op i) (h : ∀ r, attempt i.agent i s ≠ .refused r) :
    freeMove w s = attempt i.agent i s := by
  simp only [freeMove, hd]
  cases ha : attempt i.agent i s with
  | next t => rfl
  | fault f => rfl
  | refused r => exact absurd ha (h r)

/-- An operation that is not enabled is refused to its own agent, by the sequencer's selection or by its own guard. -/
theorem attempt_of_not_enabled (h : ¬ Enabled i s) : attempt i.agent i s = .refused (.notEnabled i.mnemonic) := by
  by_cases hsel : i.agent = .rtu ∧ rtuNext s ≠ some i
  · exact attempt_of_not_selected rfl hsel.1 hsel.2
  · rw [attempt_of_selected rfl fun hr => not_not.1 fun hn => hsel ⟨hr, hn⟩, exec_of_not_enabled h]

/-- An operation chosen freely that is selected and enabled is performed: its meaning is not a refusal. -/
theorem freeMove_of_enabled (hd : decodeCommand w = .op i) (hsel : i.agent = .rtu → rtuNext s = some i) (hen : Enabled i s) :
    freeMove w s = exec i s := by
  have hex : attempt i.agent i s = exec i s := attempt_of_selected rfl hsel
  rw [freeMove_of_not_refused hd fun r hr => exec_refused (hex.symm.trans hr) hen, hex]

end

/-- Settles O10: a choice that its agent's attempt refuses moves no agent, and an enabled one is the operation's meaning. -/
theorem unplacedStepIsFree : Obligations.UnplacedStepIsFree := by
  intro s hp
  rw [step_of_unplaced hp]
  refine ⟨fun hd => ?_, fun i hd hr hsel => ?_, fun i hd hen => ?_, fun i hd hsel hen => ?_⟩
  · rw [freeMove_of_illegal hd]; rfl
  · rw [freeMove_of_refused hd (attempt_of_not_selected rfl hr hsel)]; rfl
  · rw [freeMove_of_refused hd (attempt_of_not_enabled hen)]; rfl
  · rw [freeMove_of_enabled hd hsel hen]

end Sys2Proof.Machine
end
